-- ==== Sys2Proof/Word.lean ====
section
/-! DEFINITION. The machine's word, byte and register-number types (00_scope.md R7, R10; 10_state.md R30). -/

namespace Sys2Proof

/-- A 32-bit pattern: a register value, program counter, address or ALU result (R10). -/
abbrev Word := BitVec 32

/-- One byte of memory (R61). -/
abbrev Byte := BitVec 8

/-- A register index 0 to 31 (R30). The five-bit fields `rd`, `rs1`, `rs2` hold exactly these (R101). -/
abbrev Reg := Fin 32

/-- The width of a memory access: 1, 2 or 4 bytes (20_memory.md R76). -/
inductive Width where
  | byte
  | half
  | word
  deriving DecidableEq, Repr

/-- The number of bytes an access moves (R76). -/
def Width.bytes : Width → Nat
  | .byte => 1
  | .half => 2
  | .word => 4

end Sys2Proof
end

