-- ==== Sys2Proof/WellFormed.lean ====
section
/-! DEFINITION. Which instructions an encoding exists for. Register numbers, 12-bit and 20-bit
immediates and shift amounts are exact by type; what is left to check is that a control-transfer
offset is even, bit 0 being the one bit of it that no encoding stores (30_encoding.md R106, R108). -/

namespace Sys2Proof

/-- A branch offset has bit 0 clear: "It is always even" (R106). -/
abbrev branchOffsetOk (offset : BitVec 13) : Prop := offset.getLsbD 0 = false

/-- A JAL offset has bit 0 clear: "It is always even" (R108). -/
abbrev jalOffsetOk (offset : BitVec 21) : Prop := offset.getLsbD 0 = false

/-- The instruction has an encoding. -/
def Instr.wellFormed : Instr → Bool
  | .beq _ _ off | .bne _ _ off | .blt _ _ off
  | .bge _ _ off | .bltu _ _ off | .bgeu _ _ off => decide (branchOffsetOk off)
  | .jal _ off => decide (jalOffsetOk off)
  | .add .. | .sub .. | .sll .. | .slt .. | .sltu .. | .xor .. | .srl .. | .sra .. | .or ..
  | .and .. | .mul .. | .div .. | .divu .. => true
  | .addi .. | .slti .. | .sltiu .. | .xori .. | .ori .. | .andi .. | .slli .. | .srli ..
  | .srai .. => true
  | .lui .. | .auipc .. | .lb .. | .lh .. | .lw .. | .lbu .. | .lhu .. => true
  | .sb .. | .sh .. | .sw .. | .jalr .. | .ecall => true

end Sys2Proof
end

