-- ==== Sys2Proof/Decode.lean ====
section
/-! DEFINITION. Decoding (30_encoding.md): the fields, the immediates, the total decoder of R118 that
rejects an unrecognized word by name, the opcode table as rows, and after them the encoder. -/

namespace Sys2Proof

/-! ## Fields (R101) -/

def opcodeField (w : Word) : BitVec 7 := w.extractLsb' 0 7
def rdField (w : Word) : Reg := (w.extractLsb' 7 5).toFin
def funct3Field (w : Word) : BitVec 3 := w.extractLsb' 12 3
def rs1Field (w : Word) : Reg := (w.extractLsb' 15 5).toFin
def rs2Field (w : Word) : Reg := (w.extractLsb' 20 5).toFin
def funct7Field (w : Word) : BitVec 7 := w.extractLsb' 25 7

/-! ## Immediates as stored (R104 to R109) -/

/-- The I-type immediate's 12 bits, inst[31:20] (R104). -/
def immIField (w : Word) : BitVec 12 := w.extractLsb' 20 12

/-- The S-type immediate's 12 bits, inst[31:25] ++ inst[11:7] (R105). -/
def immSField (w : Word) : BitVec 12 := w.extractLsb' 25 7 ++ w.extractLsb' 7 5

/-- The B-type offset's 13 bits, inst[31] ++ inst[7] ++ inst[30:25] ++ inst[11:8] ++ 0 (R106). -/
def immBField (w : Word) : BitVec 13 :=
  w.extractLsb' 31 1 ++ w.extractLsb' 7 1 ++ w.extractLsb' 25 6 ++ w.extractLsb' 8 4 ++ 0#1

/-- The U-type immediate's 20 bits, inst[31:12] (R107). -/
def immUField (w : Word) : BitVec 20 := w.extractLsb' 12 20

/-- The J-type offset's 21 bits, inst[31] ++ inst[19:12] ++ inst[20] ++ inst[30:21] ++ 0 (R108). -/
def immJField (w : Word) : BitVec 21 :=
  w.extractLsb' 31 1 ++ w.extractLsb' 12 8 ++ w.extractLsb' 20 1 ++ w.extractLsb' 21 10 ++ 0#1

/-- The shift amount of the OP-IMM shifts, inst[24:20] (R109). -/
def shamtField (w : Word) : BitVec 5 := w.extractLsb' 20 5

/-! ## The decoder (R118) -/

/-- Why a word is unrecognized (R117), or why a byte list holds no word. -/
inductive Unrecognized where
  /-- bits [6:0] are none of the ten opcodes of R110 -/
  | opcode
  /-- OP with a (funct7, funct3) pair outside the table of R111 (R216) -/
  | opFunct
  /-- OP-IMM shift with other upper bits than R112 allows (R260) -/
  | opImmShift
  /-- LOAD with funct3 011, 110 or 111 (R113, R327) -/
  | loadFunct3
  /-- STORE with funct3 011 or above (R114, R355) -/
  | storeFunct3
  /-- BRANCH with funct3 010 or 011 (R115, R388) -/
  | branchFunct3
  /-- fewer than four bytes: no instruction is shorter than one word (R100) -/
  | tooShort
  deriving DecidableEq, Repr

/-- OP, opcode 0110011 (R111). -/
def decodeOp (w : Word) : Except Unrecognized Instr :=
  let rd := rdField w
  let rs1 := rs1Field w
  let rs2 := rs2Field w
  match funct7Field w, funct3Field w with
  | 0b0000000#7, 0b000#3 => .ok (.add rd rs1 rs2)
  | 0b0100000#7, 0b000#3 => .ok (.sub rd rs1 rs2)
  | 0b0000000#7, 0b001#3 => .ok (.sll rd rs1 rs2)
  | 0b0000000#7, 0b010#3 => .ok (.slt rd rs1 rs2)
  | 0b0000000#7, 0b011#3 => .ok (.sltu rd rs1 rs2)
  | 0b0000000#7, 0b100#3 => .ok (.xor rd rs1 rs2)
  | 0b0000000#7, 0b101#3 => .ok (.srl rd rs1 rs2)
  | 0b0100000#7, 0b101#3 => .ok (.sra rd rs1 rs2)
  | 0b0000000#7, 0b110#3 => .ok (.or rd rs1 rs2)
  | 0b0000000#7, 0b111#3 => .ok (.and rd rs1 rs2)
  | 0b0000001#7, 0b000#3 => .ok (.mul rd rs1 rs2)
  | 0b0000001#7, 0b100#3 => .ok (.div rd rs1 rs2)
  | 0b0000001#7, 0b101#3 => .ok (.divu rd rs1 rs2)
  | _, _ => .error .opFunct

/-- The two right shifts of OP-IMM, told apart by inst[31:25] (R112; 90_conflicts.md C1). -/
def decodeShiftRightImm (w : Word) : Except Unrecognized Instr :=
  match funct7Field w with
  | 0b0000000#7 => .ok (.srli (rdField w) (rs1Field w) (shamtField w))
  | 0b0100000#7 => .ok (.srai (rdField w) (rs1Field w) (shamtField w))
  | _ => .error .opImmShift

/-- The left shift of OP-IMM (R112). -/
def decodeShiftLeftImm (w : Word) : Except Unrecognized Instr :=
  match funct7Field w with
  | 0b0000000#7 => .ok (.slli (rdField w) (rs1Field w) (shamtField w))
  | _ => .error .opImmShift

/-- OP-IMM, opcode 0010011 (R112). -/
def decodeOpImm (w : Word) : Except Unrecognized Instr :=
  let rd := rdField w
  let rs1 := rs1Field w
  let imm := immIField w
  match funct3Field w with
  | 0b000#3 => .ok (.addi rd rs1 imm)
  | 0b001#3 => decodeShiftLeftImm w
  | 0b010#3 => .ok (.slti rd rs1 imm)
  | 0b011#3 => .ok (.sltiu rd rs1 imm)
  | 0b100#3 => .ok (.xori rd rs1 imm)
  | 0b101#3 => decodeShiftRightImm w
  | 0b110#3 => .ok (.ori rd rs1 imm)
  | 0b111#3 => .ok (.andi rd rs1 imm)

/-- LOAD, opcode 0000011 (R113). -/
def decodeLoad (w : Word) : Except Unrecognized Instr :=
  let rd := rdField w
  let rs1 := rs1Field w
  let imm := immIField w
  match funct3Field w with
  | 0b000#3 => .ok (.lb rd rs1 imm)
  | 0b001#3 => .ok (.lh rd rs1 imm)
  | 0b010#3 => .ok (.lw rd rs1 imm)
  | 0b100#3 => .ok (.lbu rd rs1 imm)
  | 0b101#3 => .ok (.lhu rd rs1 imm)
  | _ => .error .loadFunct3

/-- STORE, opcode 0100011 (R114). -/
def decodeStore (w : Word) : Except Unrecognized Instr :=
  let rs1 := rs1Field w
  let rs2 := rs2Field w
  let imm := immSField w
  match funct3Field w with
  | 0b000#3 => .ok (.sb rs2 rs1 imm)
  | 0b001#3 => .ok (.sh rs2 rs1 imm)
  | 0b010#3 => .ok (.sw rs2 rs1 imm)
  | _ => .error .storeFunct3

/-- BRANCH, opcode 1100011 (R115). -/
def decodeBranch (w : Word) : Except Unrecognized Instr :=
  let rs1 := rs1Field w
  let rs2 := rs2Field w
  let off := immBField w
  match funct3Field w with
  | 0b000#3 => .ok (.beq rs1 rs2 off)
  | 0b001#3 => .ok (.bne rs1 rs2 off)
  | 0b100#3 => .ok (.blt rs1 rs2 off)
  | 0b101#3 => .ok (.bge rs1 rs2 off)
  | 0b110#3 => .ok (.bltu rs1 rs2 off)
  | 0b111#3 => .ok (.bgeu rs1 rs2 off)
  | _ => .error .branchFunct3

/-- The decoder, a total function of the word (R118). LUI, AUIPC, JAL, JALR and SYSTEM are selected
by the opcode alone (R116). -/
def decode (w : Word) : Except Unrecognized Instr :=
  match opcodeField w with
  | 0b0110011#7 => decodeOp w
  | 0b0010011#7 => decodeOpImm w
  | 0b0110111#7 => .ok (.lui (rdField w) (immUField w))
  | 0b0010111#7 => .ok (.auipc (rdField w) (immUField w))
  | 0b0000011#7 => decodeLoad w
  | 0b0100011#7 => decodeStore w
  | 0b1100011#7 => decodeBranch w
  | 0b1101111#7 => .ok (.jal (rdField w) (immJField w))
  | 0b1100111#7 => .ok (.jalr (rdField w) (rs1Field w) (immIField w))
  | 0b1110011#7 => .ok .ecall
  | _ => .error .opcode

/-- A word from its four bytes, least significant first (20_memory.md R72). -/
def wordOfBytes (b0 b1 b2 b3 : Byte) : Word := b3 ++ b2 ++ b1 ++ b0

/-- The decoder on any bytes: one instruction from the first four, with the bytes after it (R100). -/
def decodeBytes : List Byte → Except Unrecognized (Instr × List Byte)
  | b0 :: b1 :: b2 :: b3 :: rest =>
    match decode (wordOfBytes b0 b1 b2 b3) with
    | .ok i => .ok (i, rest)
    | .error e => .error e
  | _ => .error .tooShort

/-! ## Encoder -/

/-- R-type (R103). -/
def encodeR (funct7 : BitVec 7) (funct3 : BitVec 3) (op : BitVec 7) (rd rs1 rs2 : Reg) : Word :=
  funct7 ++ BitVec.ofFin (w := 5) rs2 ++ BitVec.ofFin (w := 5) rs1 ++ funct3 ++
    BitVec.ofFin (w := 5) rd ++ op

/-- I-type (R103, R104). -/
def encodeI (funct3 : BitVec 3) (op : BitVec 7) (rd rs1 : Reg) (imm : BitVec 12) : Word :=
  imm ++ BitVec.ofFin (w := 5) rs1 ++ funct3 ++ BitVec.ofFin (w := 5) rd ++ op

/-- The OP-IMM shifts: the upper seven bits fixed, the amount in inst[24:20] (R109, R112). -/
def encodeShift (upper : BitVec 7) (funct3 : BitVec 3) (rd rs1 : Reg) (shamt : BitVec 5) : Word :=
  encodeI funct3 0b0010011 rd rs1 (upper ++ shamt)

/-- S-type (R103, R105). -/
def encodeS (funct3 : BitVec 3) (rs2 rs1 : Reg) (imm : BitVec 12) : Word :=
  imm.extractLsb' 5 7 ++ BitVec.ofFin (w := 5) rs2 ++ BitVec.ofFin (w := 5) rs1 ++ funct3 ++
    imm.extractLsb' 0 5 ++ 0b0100011#7

/-- B-type (R103, R106). -/
def encodeB (funct3 : BitVec 3) (rs1 rs2 : Reg) (off : BitVec 13) : Word :=
  off.extractLsb' 12 1 ++ off.extractLsb' 5 6 ++ BitVec.ofFin (w := 5) rs2 ++
    BitVec.ofFin (w := 5) rs1 ++ funct3 ++ off.extractLsb' 1 4 ++ off.extractLsb' 11 1 ++
    0b1100011#7

/-- U-type (R103, R107). -/
def encodeU (op : BitVec 7) (rd : Reg) (imm20 : BitVec 20) : Word :=
  imm20 ++ BitVec.ofFin (w := 5) rd ++ op

/-- J-type (R103, R108). -/
def encodeJ (rd : Reg) (off : BitVec 21) : Word :=
  off.extractLsb' 20 1 ++ off.extractLsb' 1 10 ++ off.extractLsb' 11 1 ++ off.extractLsb' 12 8 ++
    BitVec.ofFin (w := 5) rd ++ 0b1101111#7

/-- The word of a well-formed instruction. Where the decoder examines no such bit (R116), JALR gets
funct3 000 and ECALL the canonical word 0x00000073 (R430) (DESIGN CHOICE, log entry 15). -/
def encode : Instr → Word
  | .add rd rs1 rs2 => encodeR 0b0000000 0b000 0b0110011 rd rs1 rs2
  | .sub rd rs1 rs2 => encodeR 0b0100000 0b000 0b0110011 rd rs1 rs2
  | .sll rd rs1 rs2 => encodeR 0b0000000 0b001 0b0110011 rd rs1 rs2
  | .slt rd rs1 rs2 => encodeR 0b0000000 0b010 0b0110011 rd rs1 rs2
  | .sltu rd rs1 rs2 => encodeR 0b0000000 0b011 0b0110011 rd rs1 rs2
  | .xor rd rs1 rs2 => encodeR 0b0000000 0b100 0b0110011 rd rs1 rs2
  | .srl rd rs1 rs2 => encodeR 0b0000000 0b101 0b0110011 rd rs1 rs2
  | .sra rd rs1 rs2 => encodeR 0b0100000 0b101 0b0110011 rd rs1 rs2
  | .or rd rs1 rs2 => encodeR 0b0000000 0b110 0b0110011 rd rs1 rs2
  | .and rd rs1 rs2 => encodeR 0b0000000 0b111 0b0110011 rd rs1 rs2
  | .mul rd rs1 rs2 => encodeR 0b0000001 0b000 0b0110011 rd rs1 rs2
  | .div rd rs1 rs2 => encodeR 0b0000001 0b100 0b0110011 rd rs1 rs2
  | .divu rd rs1 rs2 => encodeR 0b0000001 0b101 0b0110011 rd rs1 rs2
  | .addi rd rs1 imm => encodeI 0b000 0b0010011 rd rs1 imm
  | .slti rd rs1 imm => encodeI 0b010 0b0010011 rd rs1 imm
  | .sltiu rd rs1 imm => encodeI 0b011 0b0010011 rd rs1 imm
  | .xori rd rs1 imm => encodeI 0b100 0b0010011 rd rs1 imm
  | .ori rd rs1 imm => encodeI 0b110 0b0010011 rd rs1 imm
  | .andi rd rs1 imm => encodeI 0b111 0b0010011 rd rs1 imm
  | .slli rd rs1 shamt => encodeShift 0b0000000 0b001 rd rs1 shamt
  | .srli rd rs1 shamt => encodeShift 0b0000000 0b101 rd rs1 shamt
  | .srai rd rs1 shamt => encodeShift 0b0100000 0b101 rd rs1 shamt
  | .lui rd imm20 => encodeU 0b0110111 rd imm20
  | .auipc rd imm20 => encodeU 0b0010111 rd imm20
  | .lb rd rs1 imm => encodeI 0b000 0b0000011 rd rs1 imm
  | .lh rd rs1 imm => encodeI 0b001 0b0000011 rd rs1 imm
  | .lw rd rs1 imm => encodeI 0b010 0b0000011 rd rs1 imm
  | .lbu rd rs1 imm => encodeI 0b100 0b0000011 rd rs1 imm
  | .lhu rd rs1 imm => encodeI 0b101 0b0000011 rd rs1 imm
  | .sb rs2 rs1 imm => encodeS 0b000 rs2 rs1 imm
  | .sh rs2 rs1 imm => encodeS 0b001 rs2 rs1 imm
  | .sw rs2 rs1 imm => encodeS 0b010 rs2 rs1 imm
  | .beq rs1 rs2 off => encodeB 0b000 rs1 rs2 off
  | .bne rs1 rs2 off => encodeB 0b001 rs1 rs2 off
  | .blt rs1 rs2 off => encodeB 0b100 rs1 rs2 off
  | .bge rs1 rs2 off => encodeB 0b101 rs1 rs2 off
  | .bltu rs1 rs2 off => encodeB 0b110 rs1 rs2 off
  | .bgeu rs1 rs2 off => encodeB 0b111 rs1 rs2 off
  | .jal rd off => encodeJ rd off
  | .jalr rd rs1 imm => encodeI 0b000 0b1100111 rd rs1 imm
  | .ecall => 0x00000073

/-! ## The opcode table as (match, mask) pairs -/

/-- The mask of an instruction's row in opcode_table.json: the bits its encoding fixes (R118). -/
def Instr.rowMask : Instr → Word
  | .add .. | .sub .. | .sll .. | .slt .. | .sltu .. | .xor .. | .srl .. | .sra .. | .or ..
  | .and .. | .mul .. | .div .. | .divu .. | .slli .. | .srli .. | .srai .. => 0xFE00707F
  | .addi .. | .slti .. | .sltiu .. | .xori .. | .ori .. | .andi .. => 0x0000707F
  | .lb .. | .lh .. | .lw .. | .lbu .. | .lhu .. | .sb .. | .sh .. | .sw .. => 0x0000707F
  | .beq .. | .bne .. | .blt .. | .bge .. | .bltu .. | .bgeu .. => 0x0000707F
  | .lui .. | .auipc .. | .jal .. | .jalr .. | .ecall => 0x0000007F

/-- The match value of an instruction's row in opcode_table.json: the value of the fixed bits. -/
def Instr.rowMatch : Instr → Word
  | .add .. => 0x00000033
  | .sub .. => 0x40000033
  | .sll .. => 0x00001033
  | .slt .. => 0x00002033
  | .sltu .. => 0x00003033
  | .xor .. => 0x00004033
  | .srl .. => 0x00005033
  | .sra .. => 0x40005033
  | .or .. => 0x00006033
  | .and .. => 0x00007033
  | .mul .. => 0x02000033
  | .div .. => 0x02004033
  | .divu .. => 0x02005033
  | .addi .. => 0x00000013
  | .slti .. => 0x00002013
  | .sltiu .. => 0x00003013
  | .xori .. => 0x00004013
  | .ori .. => 0x00006013
  | .andi .. => 0x00007013
  | .slli .. => 0x00001013
  | .srli .. => 0x00005013
  | .srai .. => 0x40005013
  | .lui .. => 0x00000037
  | .auipc .. => 0x00000017
  | .lb .. => 0x00000003
  | .lh .. => 0x00001003
  | .lw .. => 0x00002003
  | .lbu .. => 0x00004003
  | .lhu .. => 0x00005003
  | .sb .. => 0x00000023
  | .sh .. => 0x00001023
  | .sw .. => 0x00002023
  | .beq .. => 0x00000063
  | .bne .. => 0x00001063
  | .blt .. => 0x00004063
  | .bge .. => 0x00005063
  | .bltu .. => 0x00006063
  | .bgeu .. => 0x00007063
  | .jal .. => 0x0000006F
  | .jalr .. => 0x00000067
  | .ecall => 0x00000073

/-- The (match, mask) rows of opcode_table.json that fix bits [6:0], [14:12] and [31:25]. -/
def opcodeRows : List (Word × Word) :=
  ([0x00000033, 0x40000033, 0x00001033, 0x00002033, 0x00003033, 0x00004033, 0x00005033,
    0x40005033, 0x00006033, 0x00007033, 0x02000033, 0x02004033, 0x02005033,
    0x00001013, 0x00005013, 0x40005013].map (·, 0xFE00707F)) ++
  ([0x00000013, 0x00002013, 0x00003013, 0x00004013, 0x00006013, 0x00007013,
    0x00000003, 0x00001003, 0x00002003, 0x00004003, 0x00005003,
    0x00000023, 0x00001023, 0x00002023,
    0x00000063, 0x00001063, 0x00004063, 0x00005063, 0x00006063, 0x00007063].map (·, 0x0000707F)) ++
  ([0x00000037, 0x00000017, 0x0000006F, 0x00000067, 0x00000073].map (·, 0x0000007F))

/-- The rows of the opcode table a word matches. -/
def rowsMatching (w : Word) : List (Word × Word) :=
  opcodeRows.filter (fun row => w &&& row.2 == row.1)

/-! ## The table's numbering of an instruction's bits -/

/-- The first instruction word of an `nbits`-bit table row whose bits are `w`: the bits above
`nbits` are 0 and the longest instruction is one 32-bit word (R100). -/
def tableWord (nbits w : Nat) : Word := BitVec.ofNat 32 (w % 2 ^ nbits)

/-- The four bytes of a word in the order the hardware stores them (20_memory.md R72). -/
def bytesOfWord (w : Word) : List Byte :=
  [w.extractLsb' 0 8, w.extractLsb' 8 8, w.extractLsb' 16 8, w.extractLsb' 24 8]

/-- The instruction the decoder reads from an instruction whose bits are `w`, numbered as
opcode_table.json numbers them. -/
def decodeTableWord (nbits w : Nat) : Option Instr :=
  match decodeBytes (bytesOfWord (tableWord nbits w)) with
  | .ok (i, _) => some i
  | .error _ => none

end Sys2Proof
end

