-- ==== Sys2Proof/Config.lean ====
section
/-! DEFINITION. The parameters of the hardware (00_scope.md R8) and their hardware values
(92_eei_decisions.md). They are configuration, not state (10_state.md R49). -/

namespace Sys2Proof

/-- The names a region may have: "text, data, stack, or similar" (20_memory.md R62). -/
inductive RegionName where
  | text
  | data
  | stack
  | other (name : String)
  deriving DecidableEq, Repr

/-- One region: its name, its base and its end address, both inclusive (R61, R62). -/
structure Region where
  name : RegionName
  base : Word
  last : Word
  deriving DecidableEq, Repr

/-- `STRADDLE_POLICY` (20_memory.md R71). -/
inductive StraddlePolicy where
  | perByte
  | fault
  deriving DecidableEq, Repr

/-- `MEM_MISS_POLICY` (20_memory.md R79). -/
inductive MemMissPolicy where
  | silent
  | fault
  deriving DecidableEq, Repr

/-- `DECODE_MISS_POLICY` (48_system.md R432, R433). -/
inductive DecodeMissPolicy where
  | nop
  | fault
  deriving DecidableEq, Repr

/-- `DIV_CORNER_POLICY` (41_alu_reg.md R212). -/
inductive DivCornerPolicy where
  | riscv
  | fault
  deriving DecidableEq, Repr

/-- The parameters of R8 and the program image that RESET loads (R49, R602). `TEXT_BASE` is not a
field of its own: it is the base of the text region (R63). -/
structure Config where
  regions : List Region
  x0Hardwired : Bool
  straddle : StraddlePolicy
  memMiss : MemMissPolicy
  decodeMiss : DecodeMissPolicy
  divCorner : DivCornerPolicy
  image : List Word
  deriving DecidableEq, Repr

/-- `TEXT_BASE`, the base of the region named text (R63). R62 requires exactly one; where a region
list has none, the address 0 stands in (DESIGN CHOICE, log entry 13). -/
def Config.textBase (c : Config) : Word :=
  match c.regions.find? (fun r => r.name == .text) with
  | some r => r.base
  | none => 0

/-- The region list is as R62 requires: base at most end, pairwise disjoint as closed intervals,
exactly one region named text. -/
abbrev Config.RegionsValid (c : Config) : Prop :=
  (∀ r ∈ c.regions, r.base ≤ r.last) ∧
  c.regions.Pairwise (fun r q => r.last < q.base ∨ q.last < r.base) ∧
  c.regions.countP (fun r => r.name == .text) = 1

/-- Every policy has its hardware value (R8): x0 writable, per-byte straddles, silent misses,
unrecognized words as NOPs, RISC-V division corners. The regions and the image are free. -/
abbrev Config.AtHardwarePolicies (c : Config) : Prop :=
  c.x0Hardwired = false ∧ c.straddle = .perByte ∧ c.memMiss = .silent ∧
    c.decodeMiss = .nop ∧ c.divCorner = .riscv

/-- The configuration of `State.reset`: the hardware value of every policy (R8), no image, and the
region map of 92_eei_decisions.md D4. The spec leaves REGIONS open; the map is D4's test
configuration (DESIGN CHOICE, log entry 2). -/
def Config.hardware : Config where
  regions := [⟨.text, 0x1000, 0x1FFF⟩, ⟨.data, 0x2000, 0x2FFF⟩, ⟨.stack, 0x3000, 0x3FFF⟩]
  x0Hardwired := false
  straddle := .perByte
  memMiss := .silent
  decodeMiss := .nop
  divCorner := .riscv
  image := []

end Sys2Proof
end

