-- ==== Sys2Proof/Machine/State.lean ====
section
/-! DEFINITION. The state of the machine as plain data (10_state.md), the reasons a step could stop,
and the state right after reset (70_reset_and_hazards.md R600, R604). -/

namespace Sys2Proof.Machine

/-- The bytes of memory as (address, byte) pairs. The canonical form is `Memory.wf`: addresses
strictly rising and no byte 0x00, since 0x00 is what an unlisted address reads as: the reset contents
of every region byte (R600), and the value of an unmapped read (R65). -/
abbrev Memory := List Host.Cell

/-- One snapshot of the architectural state: the register file and the program counter (R38). -/
structure Snapshot where
  /-- x0 to x31 (R30) -/
  x : Vector Word 32
  /-- the program counter (R35) -/
  pc : Word
  deriving DecidableEq, Repr

/-- The four model-level faults (60_exceptions.md R513). `raise` records one in the field `fault` of
State, and the step that raises it answers a NEXT state that holds the record, as R513 describes; so
no step of this model answers `Outcome.fault` (safe: nothing the spec gives an effect is stopped). -/
inductive Fault where
  /-- a fetch, load or store that straddles a region end, under STRADDLE_POLICY = fault (R71);
  raised by `State.access` and the fetch; safe -/
  | straddle (addr : Word) (width : Width)
  /-- a fetch, load or store that touches an unmapped byte, under MEM_MISS_POLICY = fault (R79);
  raised by `State.access` and the fetch; safe -/
  | memMiss (addr : Word) (width : Width)
  /-- an unrecognized word, under DECODE_MISS_POLICY = fault (R433); raised by `execUnrecognized`; safe -/
  | decode (pc : Word) (word : Word)
  /-- a division corner, under DIV_CORNER_POLICY = fault (R212); raised by DIV and DIVU; safe -/
  | divCorner (pc : Word)
  deriving DecidableEq, Repr

/-- Why an instruction has no meaning. Every instruction has one, so no arm of `exec` answers it. -/
inductive Refusal where
  /-- an instruction that still waits for its meaning, by its mnemonic; raised by no arm; safe -/
  | notModelled (mnemonic : String)
  deriving DecidableEq, Repr

/-- The machine (10_state.md, section 1). -/
structure State where
  /-- the current snapshot, "authoritative for reads during a step" (R38) -/
  cur : Snapshot
  /-- the next snapshot, which "accumulates writes during a step" (R38) -/
  nxt : Snapshot
  /-- the bytes of the regions, a single copy (R48, R61) -/
  mem : Memory
  /-- the run flag (R41) -/
  run : Bool
  /-- the instruction counter, unbounded (R42) -/
  icount : Nat
  /-- diagnostic output: the last step's word was unrecognized (R46) -/
  decodeMiss : Bool
  /-- diagnostic output: the last step touched an unmapped byte (R46) -/
  memMiss : Bool
  /-- the sticky record of a model-level fault (R513) -/
  fault : Option Fault
  /-- the configuration (R8, R49), which no step changes; the model's own field (log entry 1) -/
  cfg : Config
  deriving DecidableEq, Repr

/-- What a meaning answers. -/
abbrev Result := Host.Outcome State Fault Refusal

/-- Every register 0 and the program counter at the text base (R36, R35). -/
def Snapshot.reset (c : Config) : Snapshot where
  x := Vector.replicate 32 0
  pc := c.textBase

/-- The state RESET establishes before the program image is loaded: every region byte 0x00, both
snapshots at reset, the counter 0, `run` set, both diagnostics and the fault record clear (R600). -/
def State.cleared (c : Config) : State where
  cur := Snapshot.reset c
  nxt := Snapshot.reset c
  mem := []
  run := true
  icount := 0
  decodeMiss := false
  memMiss := false
  fault := none
  cfg := c

/-- The machine right after reset under the hardware configuration, with the empty image: nothing
is placed in memory (R604; log entries 2 and 10). -/
def State.reset : State := State.cleared Config.hardware

end Sys2Proof.Machine
end

