-- ==== Sys2Proof/Machine/Flags.lean ====
section
/-! DEFINITION. The hardware has no status flags (10_state.md R43): a comparison writes a register or
steers a branch. This file holds the comparison predicates, and the operations on the one-bit state
the machine does have: the run flag and the two diagnostic outputs. -/

namespace Sys2Proof.Machine

/-- `a <s b`: the signed comparison (00_scope.md R10). -/
def ltSigned (a b : Word) : Bool := decide (a.toInt < b.toInt)

/-- `a <u b`: the unsigned comparison (R10). -/
def ltUnsigned (a b : Word) : Bool := decide (a.toNat < b.toNat)

/-- `c ? 0x00000001 : 0x00000000`, the result of a set-less-than (41_alu_reg.md R205). -/
def boolWord (c : Bool) : Word := if c then 1 else 0

/-- `halt()`: clears the run flag (R15, 48_system.md R430). -/
def State.halt (s : State) : State := { s with run := false }

/-- `decode_miss <- 0 ; mem_miss <- 0`, at the start of a step (40_step.md R151). -/
def State.clearDiagnostics (s : State) : State := { s with decodeMiss := false, memMiss := false }

/-- Sets `decode_miss` (R46, R432). -/
def State.noteDecodeMiss (s : State) : State := { s with decodeMiss := true }

/-- Sets `mem_miss` where the condition holds, and never clears it (R46, R65, R66). -/
def State.noteMemMiss (s : State) (missed : Bool) : State := { s with memMiss := s.memMiss || missed }

/-- The condition under which RUN and RUN_N perform a step: `run and fault = none`
(40_step.md R163, R164). -/
def State.mayStep (s : State) : Bool := s.run && s.fault.isNone

end Sys2Proof.Machine
end

