-- ==== Sys2Proof/Machine/Ops.lean ====
section
/-! DEFINITION. The named operations over registers, the program counter and memory, the raising of a
model-level fault, and the commit. The instruction rules of 41 to 48 are written in them. -/

namespace Sys2Proof.Machine

/-! ## Registers and the program counter -/

/-- Register `r` of a snapshot. -/
def Snapshot.reg (p : Snapshot) (r : Reg) : Word := p.x.get r

/-- A snapshot with register `r` set to `v`. -/
def Snapshot.setReg (p : Snapshot) (r : Reg) (v : Word) : Snapshot := { p with x := p.x.set r v }

/-- A snapshot with the program counter set to `t`. -/
def Snapshot.setPc (p : Snapshot) (t : Word) : Snapshot := { p with pc := t }

/-- Register `r` is the hardwired x0 (10_state.md R32). -/
def State.hardwired (s : State) (r : Reg) : Bool := s.cfg.x0Hardwired && r == 0

/-- `x[r]` as an operand: register `r` of the current snapshot (R11, 40_step.md R155); under
X0_HARDWIRED x0 always reads 0 (R32). -/
def State.readReg (s : State) (r : Reg) : Word := if s.hardwired r then 0 else s.cur.reg r

/-- `x[r] <- v`: a write to register `r` of the next snapshot (R11, R156); under X0_HARDWIRED a write
to x0 is discarded (R32). -/
def State.writeReg (s : State) (r : Reg) (v : Word) : State :=
  if s.hardwired r then s else { s with nxt := s.nxt.setReg r v }

/-- `pc <- t`: a write to the program counter of the next snapshot (R11). -/
def State.setPc (s : State) (t : Word) : State := { s with nxt := s.nxt.setPc t }

/-- `pc + 4` modulo 2^32: the default next program counter (R39, 40_step.md R153). -/
def State.nextPc (s : State) : Word := s.cur.pc + 4#32

/-! ## Memory as data -/

/-- The byte listed at address `a`, 0x00 where none is. -/
def Memory.read : Memory → Nat → Byte
  | [], _ => 0#8
  | (k, b) :: m, a => if k = a then b else Memory.read m a

/-- The memory with byte `b` at address `a`, in canonical form: 0x00 is never listed. -/
def Memory.write : Memory → Nat → Byte → Memory
  | [], a, b => if b = 0#8 then [] else [(a, b)]
  | (k, c) :: m, a, b =>
    if a < k then (if b = 0#8 then (k, c) :: m else (a, b) :: (k, c) :: m)
    else if a = k then (if b = 0#8 then m else (a, b) :: m)
    else (k, c) :: Memory.write m a b

/-- The canonical form: addresses strictly rising, no byte equal to what an unlisted one reads as. -/
abbrev Memory.wf (m : Memory) : Prop :=
  m.Pairwise (fun c d => c.1 < d.1) ∧ ∀ c ∈ m, c.2 ≠ 0#8

/-! ## Regions (20_memory.md R61 to R64, R70) -/

/-- `base <= a <= end` (R64). -/
def regionContains (r : Region) (a : Word) : Bool := decide (r.base ≤ a) && decide (a ≤ r.last)

/-- `mapped(a)`: some region contains `a` (R64). -/
def mapped (c : Config) (a : Word) : Bool := c.regions.any (fun r => regionContains r a)

/-- The byte addresses of an access: `addr + k` modulo 2^32 for `k` below the width (R67, R68). -/
def accessBytes (w : Width) (addr : Word) : List Word :=
  (List.range w.bytes).map (fun k => addr + BitVec.ofNat 32 k)

/-- Some byte of the access lies in no region. -/
def touchesUnmapped (c : Config) (w : Width) (addr : Word) : Bool :=
  (accessBytes w addr).any (fun a => !mapped c a)

/-- A straddling access: its bytes "do not all lie in one region and are not all unmapped" (R70). -/
def straddles (c : Config) (w : Width) (addr : Word) : Bool :=
  !(c.regions.any (fun r => (accessBytes w addr).all (regionContains r))) &&
    (accessBytes w addr).any (mapped c)

/-- The model-level fault an access raises before any byte moves (R71, R79): the straddle first, then
the miss. 60_exceptions.md R505 orders the two for the data access; that a fetch raises them in the same
order is DEDUCED (log entry 21). -/
def accessFault (c : Config) (w : Width) (addr : Word) : Option Fault :=
  if c.straddle = .fault ∧ straddles c w addr then some (.straddle addr w)
  else if c.memMiss = .fault ∧ touchesUnmapped c w addr then some (.memMiss addr w)
  else none

/-! ## Byte primitives and little-endian accesses (R65 to R68, R72) -/

/-- `ReadByte(a)`: the byte of the region that contains `a`, 0x00 where none does (R65). -/
def State.readByte (s : State) (a : Word) : Byte := if mapped s.cfg a then s.mem.read a.toNat else 0#8

/-- `WriteByte(a, b)`: dropped where no region contains `a` (R66). -/
def State.writeByte (s : State) (a : Word) (b : Byte) : State :=
  if mapped s.cfg a then { s with mem := s.mem.write a.toNat b } else s

/-- `MemRead(addr, 1)` (R67). -/
def State.memRead8 (s : State) (addr : Word) : BitVec 8 := s.readByte addr

/-- `MemRead(addr, 2)` (R67). -/
def State.memRead16 (s : State) (addr : Word) : BitVec 16 := s.readByte (addr + 1#32) ++ s.readByte addr

/-- `MemRead(addr, 4)`, the document's `read32` (R67, R14). -/
def State.memRead32 (s : State) (addr : Word) : BitVec 32 :=
  s.readByte (addr + 3#32) ++ s.readByte (addr + 2#32) ++ s.readByte (addr + 1#32) ++ s.readByte addr

/-- `MemWrite(addr, 1, v)` (R68). -/
def State.memWrite8 (s : State) (addr v : Word) : State := s.writeByte addr (v.extractLsb' 0 8)

/-- `MemWrite(addr, 2, v)` (R68). -/
def State.memWrite16 (s : State) (addr v : Word) : State :=
  (s.writeByte addr (v.extractLsb' 0 8)).writeByte (addr + 1#32) (v.extractLsb' 8 8)

/-- `MemWrite(addr, 4, v)`, the document's `write32` (R68, R14). -/
def State.memWrite32 (s : State) (addr v : Word) : State :=
  (((s.writeByte addr (v.extractLsb' 0 8)).writeByte (addr + 1#32) (v.extractLsb' 8 8)).writeByte
    (addr + 2#32) (v.extractLsb' 16 8)).writeByte (addr + 3#32) (v.extractLsb' 24 8)

/-! ## Faults, accesses, commit -/

/-- `raise`: records a model-level fault; the next snapshot is discarded and nothing else changes
(60_exceptions.md R513). DEDUCED: the discarded snapshot then equals `cur` (log entry 16). There is no
return from it but RESET (R507). -/
def State.raise (s : State) (f : Fault) : State := { s with nxt := s.cur, fault := some f }

/-- A fetch, load or store of `w` bytes at `addr`: the fault it raises with no byte moved, or else
`mem_miss` where a byte is unmapped, and then `act` (R46, R71, R79). DEDUCED: an access that raises a
fault leaves `mem_miss` as it was (log entry 8). -/
def State.access (s : State) (w : Width) (addr : Word) (act : State → State) : State :=
  match accessFault s.cfg w addr with
  | some f => s.raise f
  | none => act (s.noteMemMiss (touchesUnmapped s.cfg w addr))

/-- Commit: `cur <- nxt` and `icount <- icount + 1` (40_step.md R157, R158). -/
def State.commit (s : State) : State := { s with cur := s.nxt, icount := s.icount + 1 }

/-- `if fault = none then commit()` (40_step.md R163). -/
def State.commitUnlessFaulted (s : State) : State := if s.fault.isNone then s.commit else s

/-- Writes the words of a program image from `addr` upward, each with MemWrite(addr, 4, word) (R602).
No step runs, so no diagnostic is set and no fault is raised (log entry 9). -/
def State.loadWords (s : State) (addr : Word) : List Word → State
  | [] => s
  | w :: ws => (s.memWrite32 addr w).loadWords (addr + 4#32) ws

/-- A state whose next step fetches the word `w`: `w` written at the program counter, `run` set and
no fault recorded, since the machine fetches only then (log entry 11). -/
def State.placeWord (s : State) (w : Word) : State :=
  { s.memWrite32 s.cur.pc w with run := true, fault := none }

end Sys2Proof.Machine
end

