-- ==== Sys2Proof/Machine/Operands.lean ====
section
/-! DEFINITION. Every operand form of the instruction set: the sign- and zero-extension primitives,
the immediates as 32-bit values, shift amounts, effective addresses, targets and the link value. -/

namespace Sys2Proof.Machine

/-- `sext_N(v)` (00_scope.md R12). -/
def sext {n : Nat} (v : BitVec n) : Word := v.signExtend 32

/-- `zext_N(v)` (R13). -/
def zext {n : Nat} (v : BitVec n) : Word := v.setWidth 32

/-- `immI = sext_12(inst[31:20])`, and `immS` likewise of its own twelve bits (30_encoding.md R104, R105). -/
def imm12 (imm : BitVec 12) : Word := sext imm

/-- `immU = inst[31:12] ++ {0}^12` (R107). -/
def immU (imm20 : BitVec 20) : Word := imm20 ++ 0#12

/-- `immB = sext_13(…)` (R106). -/
def immB (offset : BitVec 13) : Word := sext offset

/-- `immJ = sext_21(…)` (R108). -/
def immJ (offset : BitVec 21) : Word := sext offset

/-- `x[rs2][4:0]`: "the low 5 bits of the second operand register" (R109, 41_alu_reg.md R204). -/
def shiftAmount (v : Word) : Nat := (v.extractLsb' 0 5).toNat

/-- `ea = x[rs1] + imm` modulo 2^32 (44_loads.md R320, 45_stores.md R350). -/
def State.effectiveAddress (s : State) (rs1 : Reg) (imm : BitVec 12) : Word := s.readReg rs1 + imm12 imm

/-- `pc + immB`, with the pc of the branch itself (46_branches.md R380). -/
def State.branchTarget (s : State) (offset : BitVec 13) : Word := s.cur.pc + immB offset

/-- `pc + immJ` (47_jumps.md R410). -/
def State.jalTarget (s : State) (offset : BitVec 21) : Word := s.cur.pc + immJ offset

/-- `x[rs1] + immI`; bit 0 is not cleared (R411, R412). -/
def State.jalrTarget (s : State) (rs1 : Reg) (imm : BitVec 12) : Word := s.readReg rs1 + imm12 imm

/-- `pc + 4`, the return address of JAL and JALR (R410, R411). -/
def State.linkValue (s : State) : Word := s.cur.pc + 4#32

end Sys2Proof.Machine
end

