-- ==== Sys2Proof/Machine/Branches.lean ====
section
/-! DEFINITION. The conditional branches (46_branches.md). -/

namespace Sys2Proof.Machine

/-- A branch: `pc <- pc + immB` if the predicate holds, else the default next pc stands (R380). -/
def execBranch (cond : Word → Word → Bool) (rs1 rs2 : Reg) (offset : BitVec 13) (s : State) : Result :=
  .next (if cond (s.readReg rs1) (s.readReg rs2) then s.setPc (s.branchTarget offset) else s)

/-- R382 -/
def execBeq (rs1 rs2 : Reg) (offset : BitVec 13) (s : State) : Result :=
  execBranch (fun a b => a == b) rs1 rs2 offset s

/-- R383 -/
def execBne (rs1 rs2 : Reg) (offset : BitVec 13) (s : State) : Result :=
  execBranch (fun a b => a != b) rs1 rs2 offset s

/-- R384 -/
def execBlt (rs1 rs2 : Reg) (offset : BitVec 13) (s : State) : Result :=
  execBranch ltSigned rs1 rs2 offset s

/-- R385 -/
def execBge (rs1 rs2 : Reg) (offset : BitVec 13) (s : State) : Result :=
  execBranch (fun a b => !ltSigned a b) rs1 rs2 offset s

/-- R386 -/
def execBltu (rs1 rs2 : Reg) (offset : BitVec 13) (s : State) : Result :=
  execBranch ltUnsigned rs1 rs2 offset s

/-- R387 -/
def execBgeu (rs1 rs2 : Reg) (offset : BitVec 13) (s : State) : Result :=
  execBranch (fun a b => !ltUnsigned a b) rs1 rs2 offset s

end Sys2Proof.Machine
end

