-- ==== Sys2Proof/Machine/Jumps.lean ====
section
/-! DEFINITION. The unconditional jumps (47_jumps.md). -/

namespace Sys2Proof.Machine

/-- R410 -/
def execJal (rd : Reg) (offset : BitVec 21) (s : State) : Result :=
  .next ((s.writeReg rd s.linkValue).setPc (s.jalTarget offset))

/-- R411: the target is computed from the current snapshot, so `rd = rs1` uses the old `x[rs1]`. -/
def execJalr (rd rs1 : Reg) (imm : BitVec 12) (s : State) : Result :=
  .next ((s.writeReg rd s.linkValue).setPc (s.jalrTarget rs1 imm))

end Sys2Proof.Machine
end

