-- ==== Sys2Proof/Machine/Loads.lean ====
section
/-! DEFINITION. The loads (44_loads.md). -/

namespace Sys2Proof.Machine

/-- A load of `w` bytes: `x[rd] <- value` at the effective address (R320, R321). -/
def execLoad (w : Width) (value : State → Word → Word) (rd rs1 : Reg) (imm : BitVec 12) (s : State) :
    Result :=
  let ea := s.effectiveAddress rs1 imm
  .next (s.access w ea (fun t => t.writeReg rd (value t ea)))

/-- R322 -/
def execLb (rd rs1 : Reg) (imm : BitVec 12) (s : State) : Result :=
  execLoad .byte (fun t ea => sext (t.memRead8 ea)) rd rs1 imm s

/-- R323 -/
def execLh (rd rs1 : Reg) (imm : BitVec 12) (s : State) : Result :=
  execLoad .half (fun t ea => sext (t.memRead16 ea)) rd rs1 imm s

/-- R324 -/
def execLw (rd rs1 : Reg) (imm : BitVec 12) (s : State) : Result :=
  execLoad .word (fun t ea => t.memRead32 ea) rd rs1 imm s

/-- R325 -/
def execLbu (rd rs1 : Reg) (imm : BitVec 12) (s : State) : Result :=
  execLoad .byte (fun t ea => zext (t.memRead8 ea)) rd rs1 imm s

/-- R326 -/
def execLhu (rd rs1 : Reg) (imm : BitVec 12) (s : State) : Result :=
  execLoad .half (fun t ea => zext (t.memRead16 ea)) rd rs1 imm s

end Sys2Proof.Machine
end

