-- ==== Sys2Proof/Machine/Alu.lean ====
section
/-! DEFINITION. The results of the arithmetic, logical, shift, compare, multiply and divide operations
(41_alu_reg.md), and the two shapes of the instructions that use them. Everything wraps modulo 2^32
(R201). -/

namespace Sys2Proof.Machine

def aluAdd (a b : Word) : Word := a + b
def aluSub (a b : Word) : Word := a - b
def aluXor (a b : Word) : Word := a ^^^ b
def aluOr (a b : Word) : Word := a ||| b
def aluAnd (a b : Word) : Word := a &&& b

/-- `(a <s b) ? 1 : 0` (R205). -/
def aluSlt (a b : Word) : Word := boolWord (ltSigned a b)

/-- `(a <u b) ? 1 : 0` (R206). -/
def aluSltu (a b : Word) : Word := boolWord (ltUnsigned a b)

/-- `a << k`, `k` in 0 to 31 (R10, R204). -/
def shiftLeft (a : Word) (k : Nat) : Word := a <<< k

/-- `a >>u k` (R10, R208). -/
def shiftRightLogical (a : Word) (k : Nat) : Word := a >>> k

/-- `a >>s k`: copies of bit 31 shifted in (R10, R209). -/
def shiftRightArith (a : Word) (k : Nat) : Word := a.sshiftRight k

/-- The low 32 bits of the product (R213). -/
def aluMul (a b : Word) : Word := BitVec.ofNat 32 (a.toNat * b.toNat)

/-- The quotient of the signed values, rounded toward zero (R214), outside the corners. -/
def quotSigned (a b : Word) : Word := BitVec.ofInt 32 (a.toInt.tdiv b.toInt)

/-- The quotient of the unsigned values, rounded down (R215), outside the corner. -/
def quotUnsigned (a b : Word) : Word := BitVec.ofNat 32 (a.toNat / b.toNat)

/-- The value a division corner gives under DIV_CORNER_POLICY = riscv, `none` where the operands are
no corner: all ones for a zero divisor, the dividend for -2^31 / -1 (R212, R214). -/
def divCorner (a b : Word) : Option Word :=
  if b = 0 then some 0xFFFFFFFF
  else if a = 0x80000000 ∧ b = 0xFFFFFFFF then some 0x80000000
  else none

/-- The same for DIVU, whose one corner is the zero divisor (R212, R215). -/
def divuCorner (_a b : Word) : Option Word := if b = 0 then some 0xFFFFFFFF else none

/-- An instruction that computes `x[rd]` from two registers (R200). -/
def execRegReg (f : Word → Word → Word) (rd rs1 rs2 : Reg) (s : State) : Result :=
  .next (s.writeReg rd (f (s.readReg rs1) (s.readReg rs2)))

/-- An instruction that computes `x[rd]` from a register and a value of the word (42_alu_imm.md R250). -/
def execRegVal (f : Word → Word) (rd rs1 : Reg) (s : State) : Result :=
  .next (s.writeReg rd (f (s.readReg rs1)))

/-- A division: its corner value or DivCornerFault, as DIV_CORNER_POLICY says, or the quotient (R212). -/
def execDivide (corner : Word → Word → Option Word) (quot : Word → Word → Word)
    (rd rs1 rs2 : Reg) (s : State) : Result :=
  match corner (s.readReg rs1) (s.readReg rs2) with
  | none => .next (s.writeReg rd (quot (s.readReg rs1) (s.readReg rs2)))
  | some v =>
    match s.cfg.divCorner with
    | .riscv => .next (s.writeReg rd v)
    | .fault => .next (s.raise (.divCorner s.cur.pc))

end Sys2Proof.Machine
end

