-- ==== Sys2Proof/Machine/OpImm.lean ====
section
/-! DEFINITION. The register-immediate instructions (42_alu_imm.md R251 to R259). -/

namespace Sys2Proof.Machine

/-- R251 -/
def execAddi (rd rs1 : Reg) (imm : BitVec 12) (s : State) : Result :=
  execRegVal (fun a => aluAdd a (imm12 imm)) rd rs1 s

/-- R252 -/
def execSlti (rd rs1 : Reg) (imm : BitVec 12) (s : State) : Result :=
  execRegVal (fun a => aluSlt a (imm12 imm)) rd rs1 s

/-- R253: the immediate is sign-extended first, then compared unsigned. -/
def execSltiu (rd rs1 : Reg) (imm : BitVec 12) (s : State) : Result :=
  execRegVal (fun a => aluSltu a (imm12 imm)) rd rs1 s

/-- R254 -/
def execXori (rd rs1 : Reg) (imm : BitVec 12) (s : State) : Result :=
  execRegVal (fun a => aluXor a (imm12 imm)) rd rs1 s

/-- R255 -/
def execOri (rd rs1 : Reg) (imm : BitVec 12) (s : State) : Result :=
  execRegVal (fun a => aluOr a (imm12 imm)) rd rs1 s

/-- R256 -/
def execAndi (rd rs1 : Reg) (imm : BitVec 12) (s : State) : Result :=
  execRegVal (fun a => aluAnd a (imm12 imm)) rd rs1 s

/-- R257 -/
def execSlli (rd rs1 : Reg) (shamt : BitVec 5) (s : State) : Result :=
  execRegVal (fun a => shiftLeft a shamt.toNat) rd rs1 s

/-- R258 -/
def execSrli (rd rs1 : Reg) (shamt : BitVec 5) (s : State) : Result :=
  execRegVal (fun a => shiftRightLogical a shamt.toNat) rd rs1 s

/-- R259 -/
def execSrai (rd rs1 : Reg) (shamt : BitVec 5) (s : State) : Result :=
  execRegVal (fun a => shiftRightArith a shamt.toNat) rd rs1 s

end Sys2Proof.Machine
end

