-- ==== Sys2Proof/Machine/OpReg.lean ====
section
/-! DEFINITION. The register-register instructions (41_alu_reg.md R202 to R215). -/

namespace Sys2Proof.Machine

/-- R202 -/
def execAdd (rd rs1 rs2 : Reg) (s : State) : Result := execRegReg aluAdd rd rs1 rs2 s

/-- R203 -/
def execSub (rd rs1 rs2 : Reg) (s : State) : Result := execRegReg aluSub rd rs1 rs2 s

/-- R204 -/
def execSll (rd rs1 rs2 : Reg) (s : State) : Result :=
  execRegReg (fun a b => shiftLeft a (shiftAmount b)) rd rs1 rs2 s

/-- R205 -/
def execSlt (rd rs1 rs2 : Reg) (s : State) : Result := execRegReg aluSlt rd rs1 rs2 s

/-- R206 -/
def execSltu (rd rs1 rs2 : Reg) (s : State) : Result := execRegReg aluSltu rd rs1 rs2 s

/-- R207 -/
def execXor (rd rs1 rs2 : Reg) (s : State) : Result := execRegReg aluXor rd rs1 rs2 s

/-- R208 -/
def execSrl (rd rs1 rs2 : Reg) (s : State) : Result :=
  execRegReg (fun a b => shiftRightLogical a (shiftAmount b)) rd rs1 rs2 s

/-- R209 -/
def execSra (rd rs1 rs2 : Reg) (s : State) : Result :=
  execRegReg (fun a b => shiftRightArith a (shiftAmount b)) rd rs1 rs2 s

/-- R210 -/
def execOr (rd rs1 rs2 : Reg) (s : State) : Result := execRegReg aluOr rd rs1 rs2 s

/-- R211 -/
def execAnd (rd rs1 rs2 : Reg) (s : State) : Result := execRegReg aluAnd rd rs1 rs2 s

/-- R213 -/
def execMul (rd rs1 rs2 : Reg) (s : State) : Result := execRegReg aluMul rd rs1 rs2 s

/-- R214 -/
def execDiv (rd rs1 rs2 : Reg) (s : State) : Result := execDivide divCorner quotSigned rd rs1 rs2 s

/-- R215 -/
def execDivu (rd rs1 rs2 : Reg) (s : State) : Result := execDivide divuCorner quotUnsigned rd rs1 rs2 s

end Sys2Proof.Machine
end

