-- ==== Sys2Proof/Machine/Stores.lean ====
section
/-! DEFINITION. The stores (45_stores.md). -/

namespace Sys2Proof.Machine

/-- A store of `w` bytes: `put` writes the low bytes of `x[rs2]` at the effective address (R350, R351). -/
def execStore (w : Width) (put : State → Word → Word → State) (rs2 rs1 : Reg) (imm : BitVec 12)
    (s : State) : Result :=
  let ea := s.effectiveAddress rs1 imm
  .next (s.access w ea (fun t => put t ea (s.readReg rs2)))

/-- R352 -/
def execSb (rs2 rs1 : Reg) (imm : BitVec 12) (s : State) : Result :=
  execStore .byte State.memWrite8 rs2 rs1 imm s

/-- R353 -/
def execSh (rs2 rs1 : Reg) (imm : BitVec 12) (s : State) : Result :=
  execStore .half State.memWrite16 rs2 rs1 imm s

/-- R354 -/
def execSw (rs2 rs1 : Reg) (imm : BitVec 12) (s : State) : Result :=
  execStore .word State.memWrite32 rs2 rs1 imm s

end Sys2Proof.Machine
end

