-- ==== Sys2Proof/Machine/System.lean ====
section
/-! DEFINITION. The SYSTEM instruction and the rule of every unrecognized word (48_system.md). -/

namespace Sys2Proof.Machine

/-- ECALL, standing for every SYSTEM word: clears `run`, with no register or memory write (R430). -/
def execEcall (s : State) : Result := .next s.halt

/-- An unrecognized word `w`: nothing but `decode_miss` under DECODE_MISS_POLICY = nop (R432), a
DecodeFault under fault (R433), which leaves `decode_miss` clear (log entry 7). -/
def execUnrecognized (w : Word) (s : State) : Result :=
  match s.cfg.decodeMiss with
  | .nop => .next s.noteDecodeMiss
  | .fault => .next (s.raise (.decode s.cur.pc w))

end Sys2Proof.Machine
end

