-- ==== Sys2Proof/Machine/UpperImm.lean ====
section
/-! DEFINITION. The upper-immediate instructions (43_upper_imm.md). -/

namespace Sys2Proof.Machine

/-- R300 -/
def execLui (rd : Reg) (imm20 : BitVec 20) (s : State) : Result := .next (s.writeReg rd (immU imm20))

/-- R301: the pc of the AUIPC itself. -/
def execAuipc (rd : Reg) (imm20 : BitVec 20) (s : State) : Result :=
  .next (s.writeReg rd (s.cur.pc + immU imm20))

end Sys2Proof.Machine
end

