-- ==== Sys2Proof/Machine/Cycle.lean ====
section
/-! DEFINITION. One cycle: STEP and its COMMIT (40_step.md R150 to R158). `step` of Machine/Step.lean
runs it when the run flag is set and no fault is recorded. -/

namespace Sys2Proof.Machine

/-- The word a step fetches, `MemRead(cur.pc, 4)` (R152). -/
def State.fetchWord (s : State) : Word := s.memRead32 s.cur.pc

/-- The state a step hands to execute: both diagnostics cleared, `mem_miss` set where the fetch touched
an unmapped byte, and the default next pc (R151, R153). -/
def State.begun (s : State) : State :=
  let t := s.clearDiagnostics
  (t.noteMemMiss (touchesUnmapped t.cfg .word t.cur.pc)).setPc t.nextPc

/-- `execute(decode(w), w)` (R156). -/
def executeWord (w : Word) (s : State) : Result :=
  match decode w with
  | .ok i => exec i s
  | .error _ => execUnrecognized w s

/-- What follows execute: the commit, unless the step raised a fault (R157, R163). -/
def afterExecute : Result → Result
  | .next t => .next t.commitUnlessFaulted
  | .fault f => .fault f
  | .refused r => .refused r

/-- STEP and COMMIT (R151, R157). It does not read `run` or `icount`. -/
def cycle (s : State) : Result :=
  match accessFault s.cfg .word s.cur.pc with
  | some f => .next (s.clearDiagnostics.raise f)
  | none => afterExecute (executeWord s.fetchWord s.begun)

end Sys2Proof.Machine
end

