-- ==== Sys2Proof/Machine/Step.lean ====
section
/-! DEFINITION. The machine's step: one turn of the driver's loop, RUN_N(1) (40_step.md R163, R164). -/

namespace Sys2Proof.Machine

/-- One cycle where `run` is set and no fault is recorded; otherwise no step is performed and the
state stays as it is (R163, R164, R431, R513; log entry 5). -/
def step (s : State) : Host.Outcome State Fault Refusal :=
  if s.mayStep then cycle s else .next s

/-- `s` with an `nbits`-bit instruction of the opcode table, whose bits are `w`, stored where the next
step fetches, and the machine running (log entry 11). -/
def State.withFetchWord (s : State) (nbits w : Nat) : State := s.placeWord (tableWord nbits w)

end Sys2Proof.Machine
end

