-- ==== Sys2Proof/Machine/Driver.lean ====
section
/-! DEFINITION. The host operations of 40_step.md section 5 and 70_reset_and_hazards.md: RESET and
program load, RUN_N, RUN, STOP, SET_REG and the read-only views. Each acts on a state between steps
(R169) and the host has no other move (R172; log entry 12). -/

namespace Sys2Proof.Machine

/-- RESET under a configuration, its program image loaded from TEXT_BASE (R600, R602); also the
power-on state (R601). -/
def State.boot (c : Config) : State := (State.cleared c).loadWords c.textBase c.image

/-- The host's RESET(image): "reinitializes memory and registers, reloads the program, clears the
instruction counter, resets PC to the text base, sets the run flag" (R168, R600; log entry 14). -/
def hostReset (image : List Word) (s : State) : State := State.boot { s.cfg with image := image }

/-- STOP: clears `run` and changes nothing else (R165). -/
def hostStop (s : State) : State := { s with run := false }

/-- SET_REG(i, v): writes register `i` of both snapshots; rejected for an index outside 0 to 31;
without effect on a hardwired x0 (R166). -/
def hostSetReg (i : Nat) (v : Word) (s : State) : Option State :=
  if h : i < 32 then
    if s.hardwired ⟨i, h⟩ then some s
    else some { s with cur := s.cur.setReg ⟨i, h⟩ v, nxt := s.nxt.setReg ⟨i, h⟩ v }
  else none

/-- RUN_N(n): at most `n` cycles, each only while `run and fault = none` (R164). -/
def runN : Nat → State → Result
  | 0, s => .next s
  | k + 1, s =>
    if s.mayStep then
      match cycle s with
      | .next t => runN k t
      | .fault f => .fault f
      | .refused r => .refused r
    else .next s

/-- RUN started in `s` returns in `t`: some number of cycles reaches a state where no step is
performed. A program that never halts has no such `t` (R163, R614). -/
def RunReturns (s t : State) : Prop := ∃ n, runN n s = .next t ∧ t.mayStep = false

/-- The run has ended normally: `run` clear and no fault recorded (R171). DESIGN CHOICE: a STOP issued
before any step has committed counts too (log entry 20). -/
def State.endedNormally (s : State) : Bool := !s.run && s.fault.isNone

/-- dump-registers: the current registers, a hardwired x0 reading 0, and the program counter (R167;
log entry 17). -/
def dumpRegisters (s : State) : Vector Word 32 × Word := (Vector.ofFn s.readReg, s.cur.pc)

/-- dump-memory(start, stop): the bytes at `start <= a <= stop`, 0x00 for an unmapped address;
`mem_miss` is not touched (R167, R88; empty where start > stop, log entry 18). -/
def dumpMemory (start stop : Word) (s : State) : List Byte :=
  (List.range (stop.toNat + 1 - start.toNat)).map (fun k => s.readByte (start + BitVec.ofNat 32 k))

/-- list-program: the words of the text region from TEXT_BASE for the loaded program's word count,
"derived from how many words were loaded" (R170, R602). DESIGN CHOICE: where the image runs past the
text region, the words listed are what memory reads there, in another region or in none (log entry 19). -/
def listProgram (s : State) : List Word :=
  (List.range s.cfg.image.length).map (fun i => s.memRead32 (s.cfg.textBase + BitVec.ofNat 32 (4 * i)))

/-- What the host reads beside registers and memory (R167; 10_state.md section 1 for `fault`). -/
structure Status where
  run : Bool
  icount : Nat
  decodeMiss : Bool
  memMiss : Bool
  fault : Option Fault
  deriving DecidableEq, Repr

def readStatus (s : State) : Status := ⟨s.run, s.icount, s.decodeMiss, s.memMiss, s.fault⟩

/-- The host operations (R150). RUN is RUN_N with a bound large enough (`RunReturns`). -/
inductive HostOp where
  | runN (n : Nat)
  | stop
  | setReg (i : Nat) (v : Word)
  | reset (image : List Word)
  | dumpRegisters
  | dumpMemory (start stop : Word)
  | listProgram
  | status
  deriving DecidableEq, Repr

/-- What the host gets back. -/
inductive HostReply where
  | done
  | rejected
  | registers (x : Vector Word 32) (pc : Word)
  | bytes (b : List Byte)
  | words (w : List Word)
  | status (st : Status)
  deriving DecidableEq, Repr

/-- One host operation on a state between steps: the state after it and the reply. -/
def hostApply (op : HostOp) (s : State) : Host.Outcome (State × HostReply) Fault Refusal :=
  match op with
  | .runN n =>
    match runN n s with
    | .next t => .next (t, .done)
    | .fault f => .fault f
    | .refused r => .refused r
  | .stop => .next (hostStop s, .done)
  | .setReg i v =>
    match hostSetReg i v s with
    | some t => .next (t, .done)
    | none => .next (s, .rejected)
  | .reset image => .next (hostReset image s, .done)
  | .dumpRegisters => .next (s, .registers (dumpRegisters s).1 (dumpRegisters s).2)
  | .dumpMemory start stop => .next (s, .bytes (dumpMemory start stop s))
  | .listProgram => .next (s, .words (listProgram s))
  | .status => .next (s, .status (readStatus s))

end Sys2Proof.Machine
end

