-- ==== Sys2Proof/Machine/Pseudo.lean ====
section
/-! DEFINITION. The pseudo-instructions of 30_encoding.md R122. The hardware never sees one; an
assembler expands each to the instructions given here. -/

namespace Sys2Proof.Machine

/-- The pseudo-instructions of R122. An offset of `call`, `tail` and `la` is measured from the AUIPC. -/
inductive Pseudo where
  | nop
  | li (rd : Reg) (imm : Word)
  | mv (rd rs : Reg)
  | not (rd rs : Reg)
  | neg (rd rs : Reg)
  | seqz (rd rs : Reg)
  | snez (rd rs : Reg)
  | sltz (rd rs : Reg)
  | sgtz (rd rs : Reg)
  | beqz (rs : Reg) (offset : BitVec 13)
  | bnez (rs : Reg) (offset : BitVec 13)
  | blez (rs : Reg) (offset : BitVec 13)
  | bgez (rs : Reg) (offset : BitVec 13)
  | bltz (rs : Reg) (offset : BitVec 13)
  | bgtz (rs : Reg) (offset : BitVec 13)
  | bgt (rs rt : Reg) (offset : BitVec 13)
  | ble (rs rt : Reg) (offset : BitVec 13)
  | bgtu (rs rt : Reg) (offset : BitVec 13)
  | bleu (rs rt : Reg) (offset : BitVec 13)
  | j (offset : BitVec 21)
  | jal (offset : BitVec 21)
  | jr (rs : Reg)
  | jalr (rs : Reg)
  | ret
  | call (offset : Word)
  | tail (offset : Word)
  | la (rd : Reg) (offset : Word)
  deriving DecidableEq, Repr

/-- `(imm + 0x800) >> 12`, the upper twenty bits that LUI or AUIPC takes (R122). -/
def splitHi (v : Word) : BitVec 20 := (v + 0x800).extractLsb' 12 20

/-- `imm - ((imm + 0x800) >> 12 << 12)`, the signed twelve bits left for ADDI or JALR (R122). -/
def splitLo (v : Word) : BitVec 12 := (v - (splitHi v ++ 0#12 : BitVec 32)).setWidth 12

/-- The expansion of each pseudo-instruction (R122). -/
def expandPseudo : Pseudo → List Instr
  | .nop => [.addi 0 0 0]
  | .li rd imm =>
    if -2048 ≤ imm.toInt ∧ imm.toInt ≤ 2047 then [.addi rd 0 (imm.setWidth 12)]
    else [.lui rd (splitHi imm), .addi rd rd (splitLo imm)]
  | .mv rd rs => [.addi rd rs 0]
  | .not rd rs => [.xori rd rs 0xFFF]
  | .neg rd rs => [.sub rd 0 rs]
  | .seqz rd rs => [.sltiu rd rs 1]
  | .snez rd rs => [.sltu rd 0 rs]
  | .sltz rd rs => [.slt rd rs 0]
  | .sgtz rd rs => [.slt rd 0 rs]
  | .beqz rs off => [.beq rs 0 off]
  | .bnez rs off => [.bne rs 0 off]
  | .blez rs off => [.bge 0 rs off]
  | .bgez rs off => [.bge rs 0 off]
  | .bltz rs off => [.blt rs 0 off]
  | .bgtz rs off => [.blt 0 rs off]
  | .bgt rs rt off => [.blt rt rs off]
  | .ble rs rt off => [.bge rt rs off]
  | .bgtu rs rt off => [.bltu rt rs off]
  | .bleu rs rt off => [.bgeu rt rs off]
  | .j off => [.jal 0 off]
  | .jal off => [.jal 1 off]
  | .jr rs => [.jalr 0 rs 0]
  | .jalr rs => [.jalr 1 rs 0]
  | .ret => [.jalr 0 1 0]
  | .call off => [.auipc 1 (splitHi off), .jalr 1 1 (splitLo off)]
  | .tail off => [.auipc 6 (splitHi off), .jalr 0 6 (splitLo off)]
  | .la rd off => [.auipc rd (splitHi off), .addi rd rd (splitLo off)]

end Sys2Proof.Machine
end

