-- ==== Sys2Proof/Safety.lean ====
section
/-! DEFINITION. The terms claims are stated in: the invariant of the machine, a state in which a step
runs a word, what an instruction's execute part and a whole step change and leave unchanged, and the
states that steps and host operations reach. -/

namespace Sys2Proof.Machine

/-! ## The invariant between steps -/

/-- A recorded fault is one that its policy enables (60_exceptions.md R513). -/
def FaultEnabled (c : Config) : Option Fault → Prop
  | none => True
  | some (.straddle _ _) => c.straddle = .fault
  | some (.memMiss _ _) => c.memMiss = .fault
  | some (.decode _ _) => c.decodeMiss = .fault
  | some (.divCorner _) => c.divCorner = .fault

/-- The invariant between steps: the snapshots agree (10_state.md R40); memory is in canonical form
and lists bytes of regions only (20_memory.md R61); a hardwired x0 holds 0 (R32); a recorded fault is
one that a non-default parameter enables (R513). -/
structure StepInvariant (s : State) : Prop where
  snapshots : s.cur = s.nxt
  canonical : s.mem.wf
  inRegions : ∀ c ∈ s.mem, c.1 < 2 ^ 32 ∧ mapped s.cfg (BitVec.ofNat 32 c.1) = true
  hardwiredZero : s.cfg.x0Hardwired = true → s.cur.reg 0 = 0
  faultEnabled : FaultEnabled s.cfg s.fault

/-! ## What the execute part of an instruction changes (`exec`) -/

/-- Only register `rd` of the next snapshot is written, with `v`, and `mem_miss` is set where the
access `missed`. A hardwired x0 discards the write (R32). -/
structure WritesOnly (s t : State) (rd : Reg) (v : Word) (missed : Bool) : Prop where
  result : s.hardwired rd = false → t.nxt.reg rd = v
  discarded : s.hardwired rd = true → t.nxt.reg rd = s.nxt.reg rd
  others : ∀ r, r ≠ rd → t.nxt.reg r = s.nxt.reg r
  nextPc : t.nxt.pc = s.nxt.pc
  cur : t.cur = s.cur
  mem : t.mem = s.mem
  run : t.run = s.run
  icount : t.icount = s.icount
  decodeMiss : t.decodeMiss = s.decodeMiss
  memMiss : t.memMiss = (s.memMiss || missed)
  fault : t.fault = s.fault
  cfg : t.cfg = s.cfg

/-- Register `rd` of the next snapshot is written with `v` and the next program counter with `pc`,
and nothing else changes. A hardwired x0 discards the register write (R32). -/
structure LinksAndJumps (s t : State) (rd : Reg) (v pc : Word) : Prop where
  result : s.hardwired rd = false → t.nxt.reg rd = v
  discarded : s.hardwired rd = true → t.nxt.reg rd = s.nxt.reg rd
  others : ∀ r, r ≠ rd → t.nxt.reg r = s.nxt.reg r
  nextPc : t.nxt.pc = pc
  cur : t.cur = s.cur
  mem : t.mem = s.mem
  run : t.run = s.run
  icount : t.icount = s.icount
  decodeMiss : t.decodeMiss = s.decodeMiss
  memMiss : t.memMiss = s.memMiss
  fault : t.fault = s.fault
  cfg : t.cfg = s.cfg

/-- Only the next program counter may change, to `pc`, and the run flag, to `run`. -/
structure SetsPcAndRun (s t : State) (pc : Word) (run : Bool) : Prop where
  regs : ∀ r, t.nxt.reg r = s.nxt.reg r
  nextPc : t.nxt.pc = pc
  cur : t.cur = s.cur
  mem : t.mem = s.mem
  run : t.run = run
  icount : t.icount = s.icount
  decodeMiss : t.decodeMiss = s.decodeMiss
  memMiss : t.memMiss = s.memMiss
  fault : t.fault = s.fault
  cfg : t.cfg = s.cfg

/-- Memory after a store of the low `n` bytes of `v` at `ea` (20_memory.md R68): byte `ea + k`, modulo
2^32, holds bits `8k+7 .. 8k` of `v` where it is mapped and still reads 0x00 where it is not, and
every other byte reads as before. -/
structure BytesStored (s t : State) (n : Nat) (ea v : Word) : Prop where
  stored : ∀ k, k < n → mapped s.cfg (ea + BitVec.ofNat 32 k) = true →
    t.readByte (ea + BitVec.ofNat 32 k) = v.extractLsb' (8 * k) 8
  dropped : ∀ k, k < n → mapped s.cfg (ea + BitVec.ofNat 32 k) = false →
    t.readByte (ea + BitVec.ofNat 32 k) = 0
  others : ∀ a, (∀ k, k < n → a ≠ ea + BitVec.ofNat 32 k) → t.readByte a = s.readByte a

/-- Only memory changes, by a store of the low `n` bytes of `v` at `ea`, and `mem_miss` is set where
the access `missed`. -/
structure StoresOnly (s t : State) (n : Nat) (ea v : Word) (missed : Bool) : Prop where
  bytes : BytesStored s t n ea v
  cur : t.cur = s.cur
  nxt : t.nxt = s.nxt
  run : t.run = s.run
  icount : t.icount = s.icount
  decodeMiss : t.decodeMiss = s.decodeMiss
  memMiss : t.memMiss = (s.memMiss || missed)
  fault : t.fault = s.fault
  cfg : t.cfg = s.cfg

/-- A model-level fault is recorded and the next snapshot discarded, and nothing else changes (R513).
The model's readings in it: `nxt` is then `cur` (log entry 16), and the diagnostics stay as they were
(log entry 8). -/
structure RaisesOnly (s t : State) (f : Fault) : Prop where
  fault : t.fault = some f
  nxt : t.nxt = s.cur
  cur : t.cur = s.cur
  mem : t.mem = s.mem
  run : t.run = s.run
  icount : t.icount = s.icount
  decodeMiss : t.decodeMiss = s.decodeMiss
  memMiss : t.memMiss = s.memMiss
  cfg : t.cfg = s.cfg

/-! ## What a whole step changes -/

/-- A state in which a step runs the word `w`: `run` set, no fault recorded, the snapshots in
agreement (R40), and `w` at the program counter, fetched without a fault (40_step.md R152). -/
structure Fetches (s : State) (w : Word) : Prop where
  running : s.run = true
  unfaulted : s.fault = none
  snapshots : s.cur = s.nxt
  fetchable : accessFault s.cfg .word s.cur.pc = none
  word : s.memRead32 s.cur.pc = w

/-- The step committed: the snapshots agree again, the counter rose by one (40_step.md R157, R158),
`decode_miss` is `unrecognized`, and `mem_miss` says whether the fetch or the data access (`missed`)
touched an unmapped byte (10_state.md R46). -/
structure Committed (s t : State) (unrecognized missed : Bool) : Prop where
  snapshots : t.cur = t.nxt
  icount : t.icount = s.icount + 1
  decodeMiss : t.decodeMiss = unrecognized
  memMiss : t.memMiss = (touchesUnmapped s.cfg .word s.cur.pc || missed)
  fault : t.fault = none
  cfg : t.cfg = s.cfg

/-- A committed step that wrote register `rd` with `v` and went on to `pc`: no other register, no
memory byte and not `run` changed. A hardwired x0 discards the write (R32). -/
structure StepWrites (s t : State) (rd : Reg) (v pc : Word) (missed : Bool) : Prop where
  committed : Committed s t false missed
  result : s.hardwired rd = false → t.cur.reg rd = v
  discarded : s.hardwired rd = true → t.cur.reg rd = s.cur.reg rd
  others : ∀ r, r ≠ rd → t.cur.reg r = s.cur.reg r
  pc : t.cur.pc = pc
  mem : t.mem = s.mem
  run : t.run = s.run

/-- A committed step that wrote no register and no memory, went on to `pc` and left the run flag
`run`; `unrecognized` says whether its word was. -/
structure StepGoesTo (s t : State) (pc : Word) (run unrecognized : Bool) : Prop where
  committed : Committed s t unrecognized false
  regs : ∀ r, t.cur.reg r = s.cur.reg r
  pc : t.cur.pc = pc
  mem : t.mem = s.mem
  run : t.run = run

/-- A committed step that stored the low `n` bytes of `v` at `ea` and went on to `pc + 4`: no register
and not `run` changed. -/
structure StepStores (s t : State) (n : Nat) (ea v : Word) (missed : Bool) : Prop where
  committed : Committed s t false missed
  bytes : BytesStored s t n ea v
  regs : ∀ r, t.cur.reg r = s.cur.reg r
  pc : t.cur.pc = s.cur.pc + 4
  run : t.run = s.run

/-- A step that raised the model-level fault `f`: the fault is recorded and nothing was committed;
registers, program counter, memory, `run` and the counter are unchanged (R513). That the discarded
`nxt` is then `cur` is the model's reading (log entry 16). -/
structure StepFaults (s t : State) (f : Fault) : Prop where
  fault : t.fault = some f
  cur : t.cur = s.cur
  nxt : t.nxt = s.cur
  mem : t.mem = s.mem
  run : t.run = s.run
  icount : t.icount = s.icount
  cfg : t.cfg = s.cfg

/-! ## Agreement and reachability -/

/-- Two states agree on all that a step may depend on: "The step is a function of `cur`, memory and
the parameters" (40_step.md R159). -/
structure AgreeForStep (s t : State) : Prop where
  cur : s.cur = t.cur
  mem : s.mem = t.mem
  cfg : s.cfg = t.cfg

/-- The states the machine can be in between steps: a boot state, and what a step or a host operation
makes of one (R172). -/
inductive Reachable : State → Prop where
  | boot (c : Config) : Reachable (State.boot c)
  | step {s t : State} : Reachable s → step s = .next t → Reachable t
  | host {s t : State} {op : HostOp} {r : HostReply} :
      Reachable s → hostApply op s = .next (t, r) → Reachable t

end Sys2Proof.Machine
end

