-- ==== Sys2Proof/Certificates/Slice0/Obligations.lean ====
section
/-! DEFINITION. The statements for the provers. Each docstring names the rules of spec/ it formalises.
Values are said in plain arithmetic on `toNat` and `toInt`, not in the model's own ALU functions. -/

open Sys2Proof Sys2Proof.Machine

namespace Sys2Proof.Claims

/-! ## The shapes shared by instructions of one form -/

/-- The execute part of `i rd rs1 rs2` answers a next state in which only `x[rd]` is written, with `f`
of the two operands read from the current snapshot. -/
def RegRegExec (i : Reg → Reg → Reg → Instr) (f : Word → Word → Word) : Prop :=
  ∀ (s : State) (rd rs1 rs2 : Reg), ∃ t, exec (i rd rs1 rs2) s = .next t ∧
    WritesOnly s t rd (f (s.readReg rs1) (s.readReg rs2)) false

/-- A step on an OP word with these fixed bits writes `x[rd]` with `f` of its operands and goes on to
`pc + 4`, changing nothing else. -/
def RegRegWord (fixed : Word) (f : Word → Word → Word) : Prop :=
  ∀ (s : State) (w : Word), Fetches s w → w &&& 0xFE00707F = fixed → ∃ t, step s = .next t ∧
    StepWrites s t (rdField w) (f (s.readReg (rs1Field w)) (s.readReg (rs2Field w))) (s.cur.pc + 4) false

/-- As `RegRegExec`, for a register and a sign-extended 12-bit immediate. -/
def RegImmExec (i : Reg → Reg → BitVec 12 → Instr) (f : Word → Word → Word) : Prop :=
  ∀ (s : State) (rd rs1 : Reg) (imm : BitVec 12), ∃ t, exec (i rd rs1 imm) s = .next t ∧
    WritesOnly s t rd (f (s.readReg rs1) (BitVec.ofInt 32 imm.toInt)) false

/-- As `RegRegWord`, for an OP-IMM word. -/
def RegImmWord (fixed : Word) (f : Word → Word → Word) : Prop :=
  ∀ (s : State) (w : Word), Fetches s w → w &&& 0x0000707F = fixed → ∃ t, step s = .next t ∧
    StepWrites s t (rdField w) (f (s.readReg (rs1Field w)) (BitVec.ofInt 32 (immIField w).toInt))
      (s.cur.pc + 4) false

/-- As `RegRegExec`, for a register and a shift amount. -/
def ShiftImmExec (i : Reg → Reg → BitVec 5 → Instr) (f : Word → Nat → Word) : Prop :=
  ∀ (s : State) (rd rs1 : Reg) (shamt : BitVec 5), ∃ t, exec (i rd rs1 shamt) s = .next t ∧
    WritesOnly s t rd (f (s.readReg rs1) shamt.toNat) false

/-- As `RegRegWord`, for an OP-IMM shift word. -/
def ShiftImmWord (fixed : Word) (f : Word → Nat → Word) : Prop :=
  ∀ (s : State) (w : Word), Fetches s w → w &&& 0xFE00707F = fixed → ∃ t, step s = .next t ∧
    StepWrites s t (rdField w) (f (s.readReg (rs1Field w)) (shamtField w).toNat) (s.cur.pc + 4) false

/-- A left shift by `k`: the product with a power of two, modulo 2^32 (R10). -/
def shl (a : Word) (k : Nat) : Word := BitVec.ofNat 32 (a.toNat * 2 ^ k)

/-- A logical right shift by `k`: the unsigned value divided by a power of two (R10). -/
def shr (a : Word) (k : Nat) : Word := BitVec.ofNat 32 (a.toNat / 2 ^ k)

/-- An arithmetic right shift by `k`: the signed value divided by a power of two, rounded down (R10). -/
def sar (a : Word) (k : Nat) : Word := BitVec.ofInt 32 (a.toInt / 2 ^ k)

/-- 1 where the signed value of `a` is below that of `b`, else 0. -/
def setLtS (a b : Word) : Word := if a.toInt < b.toInt then 1 else 0

/-- 1 where the unsigned value of `a` is below that of `b`, else 0. -/
def setLtU (a b : Word) : Word := if a.toNat < b.toNat then 1 else 0

/-- The operands of DIV's corner with a result (41_alu_reg.md R214): -2^31 divided by -1. -/
def DivOverflows (a b : Word) : Prop := a.toInt = -2 ^ 31 ∧ b.toInt = -1

/-- The execute part of a division on operands that are a corner with the RISC-V result `v`: it writes
`v`, or raises DivCornerFault, as DIV_CORNER_POLICY says (R212). -/
def DivCornerExec (s : State) (r : Result) (rd : Reg) (v : Word) : Prop :=
  (s.cfg.divCorner = .riscv → ∃ t, r = .next t ∧ WritesOnly s t rd v false) ∧
  (s.cfg.divCorner = .fault → ∃ t, r = .next t ∧ RaisesOnly s t (.divCorner s.cur.pc))

/-- The same of a whole step on a division word that is a corner. -/
def DivCornerStep (s : State) (rd : Reg) (v : Word) : Prop :=
  (s.cfg.divCorner = .riscv → ∃ t, step s = .next t ∧ StepWrites s t rd v (s.cur.pc + 4) false) ∧
  (s.cfg.divCorner = .fault → ∃ t, step s = .next t ∧ StepFaults s t (.divCorner s.cur.pc))

/-- The execute part of a load of `w` bytes: `x[rd] <- value` of the bytes at `ea`, or the fault that
the access raises under a fault policy. -/
def LoadExec (i : Reg → Reg → BitVec 12 → Instr) (w : Width) (value : State → Word → Word) : Prop :=
  ∀ (s : State) (rd rs1 : Reg) (imm : BitVec 12) (ea : Word),
    ea = s.readReg rs1 + BitVec.ofInt 32 imm.toInt →
    (accessFault s.cfg w ea = none → ∃ t, exec (i rd rs1 imm) s = .next t ∧
      WritesOnly s t rd (value s ea) (touchesUnmapped s.cfg w ea)) ∧
    (∀ f, accessFault s.cfg w ea = some f → ∃ t, exec (i rd rs1 imm) s = .next t ∧ RaisesOnly s t f)

/-- The same of a whole step on a LOAD word with these fixed bits. -/
def LoadWord (fixed : Word) (n : Width) (value : State → Word → Word) : Prop :=
  ∀ (s : State) (w ea : Word), Fetches s w → w &&& 0x0000707F = fixed →
    ea = s.readReg (rs1Field w) + BitVec.ofInt 32 (immIField w).toInt →
    (accessFault s.cfg n ea = none → ∃ t, step s = .next t ∧
      StepWrites s t (rdField w) (value s ea) (s.cur.pc + 4) (touchesUnmapped s.cfg n ea)) ∧
    (∀ f, accessFault s.cfg n ea = some f → ∃ t, step s = .next t ∧ StepFaults s t f)

/-- The byte at `ea` as a number; the two bytes; the four bytes, least significant first (R67, R72). -/
def num8 (s : State) (ea : Word) : Nat := (s.readByte ea).toNat
def num16 (s : State) (ea : Word) : Nat := num8 s ea + 256 * num8 s (ea + 1)
def num32 (s : State) (ea : Word) : Nat :=
  num8 s ea + 256 * num8 s (ea + 1) + 65536 * num8 s (ea + 2) + 16777216 * num8 s (ea + 3)

/-- The signed value of `n` bits that hold the number `v`, as a word. -/
def signedWord (n v : Nat) : Word :=
  if v < 2 ^ (n - 1) then BitVec.ofNat 32 v else BitVec.ofInt 32 ((v : Int) - 2 ^ n)

/-- The execute part of a store of `n` bytes of `x[rs2]` at `ea`, or the fault that the access raises
under a fault policy. -/
def StoreExec (i : Reg → Reg → BitVec 12 → Instr) (w : Width) : Prop :=
  ∀ (s : State) (rs2 rs1 : Reg) (imm : BitVec 12) (ea : Word), s.mem.wf →
    ea = s.readReg rs1 + BitVec.ofInt 32 imm.toInt →
    (accessFault s.cfg w ea = none → ∃ t, exec (i rs2 rs1 imm) s = .next t ∧
      StoresOnly s t w.bytes ea (s.readReg rs2) (touchesUnmapped s.cfg w ea)) ∧
    (∀ f, accessFault s.cfg w ea = some f → ∃ t, exec (i rs2 rs1 imm) s = .next t ∧ RaisesOnly s t f)

/-- The same of a whole step on a STORE word with these fixed bits. -/
def StoreWord (fixed : Word) (n : Width) : Prop :=
  ∀ (s : State) (w ea : Word), Fetches s w → s.mem.wf → w &&& 0x0000707F = fixed →
    ea = s.readReg (rs1Field w) + BitVec.ofInt 32 (immSField w).toInt →
    (accessFault s.cfg n ea = none → ∃ t, step s = .next t ∧
      StepStores s t n.bytes ea (s.readReg (rs2Field w)) (touchesUnmapped s.cfg n ea)) ∧
    (∀ f, accessFault s.cfg n ea = some f → ∃ t, step s = .next t ∧ StepFaults s t f)

/-- The execute part of a branch: the next pc becomes `pc + offset` where the predicate holds, and the
default next pc stands where it does not; nothing else changes. -/
def BranchExec (i : Reg → Reg → BitVec 13 → Instr) (cond : Word → Word → Prop) : Prop :=
  ∀ (s : State) (rs1 rs2 : Reg) (off : BitVec 13),
    (cond (s.readReg rs1) (s.readReg rs2) → ∃ t, exec (i rs1 rs2 off) s = .next t ∧
      SetsPcAndRun s t (s.cur.pc + BitVec.ofInt 32 off.toInt) s.run) ∧
    (¬ cond (s.readReg rs1) (s.readReg rs2) → ∃ t, exec (i rs1 rs2 off) s = .next t ∧
      SetsPcAndRun s t s.nxt.pc s.run)

/-- The same of a whole step on a BRANCH word with these fixed bits. -/
def BranchWord (fixed : Word) (cond : Word → Word → Prop) : Prop :=
  ∀ (s : State) (w : Word), Fetches s w → w &&& 0x0000707F = fixed →
    (cond (s.readReg (rs1Field w)) (s.readReg (rs2Field w)) → ∃ t, step s = .next t ∧
      StepGoesTo s t (s.cur.pc + BitVec.ofInt 32 (immBField w).toInt) s.run false) ∧
    (¬ cond (s.readReg (rs1Field w)) (s.readReg (rs2Field w)) → ∃ t, step s = .next t ∧
      StepGoesTo s t (s.cur.pc + 4) s.run false)

/-- A running state between steps that holds the words of `is` from the program counter on, each
fetched without a fault. -/
structure HoldsProgram (s : State) (is : List Instr) : Prop where
  running : s.run = true
  unfaulted : s.fault = none
  snapshots : s.cur = s.nxt
  fetchable : ∀ k, k < is.length → accessFault s.cfg .word (s.cur.pc + BitVec.ofNat 32 (4 * k)) = none
  words : ∀ (k : Nat) (h : k < is.length),
    s.memRead32 (s.cur.pc + BitVec.ofNat 32 (4 * k)) = encode is[k]

/-- Bits `lo + n - 1 .. lo` of a word as a number (R9). -/
def bitsOf (w : Word) (lo n : Nat) : Nat := w.toNat / 2 ^ lo % 2 ^ n

/-- The opcodes of the families that store, halt and transfer control (R110). -/
def isStoreOpcode (w : Word) : Prop := opcodeField w = 0b0100011
def isSystemOpcode (w : Word) : Prop := opcodeField w = 0b1110011
def isBranchOpcode (w : Word) : Prop := opcodeField w = 0b1100011
def isJumpOpcode (w : Word) : Prop := opcodeField w = 0b1101111 ∨ opcodeField w = 0b1100111

end Sys2Proof.Claims

open Sys2Proof.Claims

/-! ## Decoding and encoding (30_encoding.md) -/

/-- Decode and encode agree on every well-formed instruction (R103 to R118). -/
def Obligations.DecodeOfEncode : Prop :=
  ∀ i : Instr, i.wellFormed = true → decode (encode i) = .ok i

/-- Whatever a word decodes to is well formed, its fixed bits are those of its table row, and where
the decoder examines every bit (all but JALR's funct3 and the bits of a SYSTEM word above its opcode)
encoding gives the word back; for JALR it gives the word with funct3 000 (R116; the encoder's choice of the ignored bits is the
model's, log entry 15). -/
def Obligations.EncodeOfDecode : Prop :=
  ∀ (w : Word) (i : Instr), decode w = .ok i →
    i.wellFormed = true ∧ w &&& i.rowMask = i.rowMatch ∧
    (opcodeField w ≠ 0b1100111 → opcodeField w ≠ 0b1110011 → encode i = w) ∧
    (opcodeField w = 0b1100111 → encode i = w &&& 0xFFFF8FFF)

/-- "exactly one row matches each recognized word, and no row matches an unrecognized word" (R118,
last sentence). -/
def Obligations.TableRowsAreExact : Prop :=
  ∀ w : Word,
    (∀ i, decode w = .ok i → rowsMatching w = [(i.rowMatch, i.rowMask)]) ∧
    (∀ e, decode w = .error e → rowsMatching w = [])

/-- The opcode map: a word whose fixed bits are those of a row decodes to that row's instruction with
the operands at the fixed places, and a word that matches no row is unrecognized (R101, R110 to R118). -/
def Obligations.DecodeFollowsOpcodeMap : Prop :=
  ∀ w : Word,
    (w &&& 0xFE00707F = 0x00000033 → decode w = .ok (.add (rdField w) (rs1Field w) (rs2Field w))) ∧
    (w &&& 0xFE00707F = 0x40000033 → decode w = .ok (.sub (rdField w) (rs1Field w) (rs2Field w))) ∧
    (w &&& 0xFE00707F = 0x00001033 → decode w = .ok (.sll (rdField w) (rs1Field w) (rs2Field w))) ∧
    (w &&& 0xFE00707F = 0x00002033 → decode w = .ok (.slt (rdField w) (rs1Field w) (rs2Field w))) ∧
    (w &&& 0xFE00707F = 0x00003033 → decode w = .ok (.sltu (rdField w) (rs1Field w) (rs2Field w))) ∧
    (w &&& 0xFE00707F = 0x00004033 → decode w = .ok (.xor (rdField w) (rs1Field w) (rs2Field w))) ∧
    (w &&& 0xFE00707F = 0x00005033 → decode w = .ok (.srl (rdField w) (rs1Field w) (rs2Field w))) ∧
    (w &&& 0xFE00707F = 0x40005033 → decode w = .ok (.sra (rdField w) (rs1Field w) (rs2Field w))) ∧
    (w &&& 0xFE00707F = 0x00006033 → decode w = .ok (.or (rdField w) (rs1Field w) (rs2Field w))) ∧
    (w &&& 0xFE00707F = 0x00007033 → decode w = .ok (.and (rdField w) (rs1Field w) (rs2Field w))) ∧
    (w &&& 0xFE00707F = 0x02000033 → decode w = .ok (.mul (rdField w) (rs1Field w) (rs2Field w))) ∧
    (w &&& 0xFE00707F = 0x02004033 → decode w = .ok (.div (rdField w) (rs1Field w) (rs2Field w))) ∧
    (w &&& 0xFE00707F = 0x02005033 → decode w = .ok (.divu (rdField w) (rs1Field w) (rs2Field w))) ∧
    (w &&& 0x0000707F = 0x00000013 → decode w = .ok (.addi (rdField w) (rs1Field w) (immIField w))) ∧
    (w &&& 0x0000707F = 0x00002013 → decode w = .ok (.slti (rdField w) (rs1Field w) (immIField w))) ∧
    (w &&& 0x0000707F = 0x00003013 → decode w = .ok (.sltiu (rdField w) (rs1Field w) (immIField w))) ∧
    (w &&& 0x0000707F = 0x00004013 → decode w = .ok (.xori (rdField w) (rs1Field w) (immIField w))) ∧
    (w &&& 0x0000707F = 0x00006013 → decode w = .ok (.ori (rdField w) (rs1Field w) (immIField w))) ∧
    (w &&& 0x0000707F = 0x00007013 → decode w = .ok (.andi (rdField w) (rs1Field w) (immIField w))) ∧
    (w &&& 0xFE00707F = 0x00001013 → decode w = .ok (.slli (rdField w) (rs1Field w) (shamtField w))) ∧
    (w &&& 0xFE00707F = 0x00005013 → decode w = .ok (.srli (rdField w) (rs1Field w) (shamtField w))) ∧
    (w &&& 0xFE00707F = 0x40005013 → decode w = .ok (.srai (rdField w) (rs1Field w) (shamtField w))) ∧
    (w &&& 0x0000007F = 0x00000037 → decode w = .ok (.lui (rdField w) (immUField w))) ∧
    (w &&& 0x0000007F = 0x00000017 → decode w = .ok (.auipc (rdField w) (immUField w))) ∧
    (w &&& 0x0000707F = 0x00000003 → decode w = .ok (.lb (rdField w) (rs1Field w) (immIField w))) ∧
    (w &&& 0x0000707F = 0x00001003 → decode w = .ok (.lh (rdField w) (rs1Field w) (immIField w))) ∧
    (w &&& 0x0000707F = 0x00002003 → decode w = .ok (.lw (rdField w) (rs1Field w) (immIField w))) ∧
    (w &&& 0x0000707F = 0x00004003 → decode w = .ok (.lbu (rdField w) (rs1Field w) (immIField w))) ∧
    (w &&& 0x0000707F = 0x00005003 → decode w = .ok (.lhu (rdField w) (rs1Field w) (immIField w))) ∧
    (w &&& 0x0000707F = 0x00000023 → decode w = .ok (.sb (rs2Field w) (rs1Field w) (immSField w))) ∧
    (w &&& 0x0000707F = 0x00001023 → decode w = .ok (.sh (rs2Field w) (rs1Field w) (immSField w))) ∧
    (w &&& 0x0000707F = 0x00002023 → decode w = .ok (.sw (rs2Field w) (rs1Field w) (immSField w))) ∧
    (w &&& 0x0000707F = 0x00000063 → decode w = .ok (.beq (rs1Field w) (rs2Field w) (immBField w))) ∧
    (w &&& 0x0000707F = 0x00001063 → decode w = .ok (.bne (rs1Field w) (rs2Field w) (immBField w))) ∧
    (w &&& 0x0000707F = 0x00004063 → decode w = .ok (.blt (rs1Field w) (rs2Field w) (immBField w))) ∧
    (w &&& 0x0000707F = 0x00005063 → decode w = .ok (.bge (rs1Field w) (rs2Field w) (immBField w))) ∧
    (w &&& 0x0000707F = 0x00006063 → decode w = .ok (.bltu (rs1Field w) (rs2Field w) (immBField w))) ∧
    (w &&& 0x0000707F = 0x00007063 → decode w = .ok (.bgeu (rs1Field w) (rs2Field w) (immBField w))) ∧
    (w &&& 0x0000007F = 0x0000006F → decode w = .ok (.jal (rdField w) (immJField w))) ∧
    (w &&& 0x0000007F = 0x00000067 → decode w = .ok (.jalr (rdField w) (rs1Field w) (immIField w))) ∧
    (w &&& 0x0000007F = 0x00000073 → decode w = .ok .ecall) ∧
    (rowsMatching w = [] → ∃ e, decode w = .error e)

/-- The register fields and the immediates as numbers, bit by bit of the word (R101, R104 to R109). -/
def Obligations.FieldsAndImmediatesAreArithmetic : Prop :=
  ∀ w : Word,
    (rdField w).val = bitsOf w 7 5 ∧ (rs1Field w).val = bitsOf w 15 5 ∧ (rs2Field w).val = bitsOf w 20 5 ∧
    (opcodeField w).toNat = bitsOf w 0 7 ∧ (funct3Field w).toNat = bitsOf w 12 3 ∧
    (funct7Field w).toNat = bitsOf w 25 7 ∧
    (imm12 (immIField w)).toInt = (bitsOf w 20 11 : Int) - 2048 * bitsOf w 31 1 ∧
    (imm12 (immSField w)).toInt = (bitsOf w 7 5 : Int) + 32 * bitsOf w 25 6 - 2048 * bitsOf w 31 1 ∧
    (immB (immBField w)).toInt =
      2 * (bitsOf w 8 4 : Int) + 32 * bitsOf w 25 6 + 2048 * bitsOf w 7 1 - 4096 * bitsOf w 31 1 ∧
    (immU (immUField w)).toNat = 4096 * bitsOf w 12 20 ∧
    (immJ (immJField w)).toInt =
      2 * (bitsOf w 21 10 : Int) + 2048 * bitsOf w 20 1 + 4096 * bitsOf w 12 8 - 1048576 * bitsOf w 31 1 ∧
    (shamtField w).toNat = bitsOf w 20 5

/-- `sext_N` copies bit N-1 of an N-bit value into every bit above, `zext_N` puts zeros there, for
every N from 1 to 32 (00_scope.md R12, R13). -/
def Obligations.ExtensionBits : Prop :=
  ∀ (n : Nat), 1 ≤ n → n ≤ 32 → ∀ (v : BitVec n) (i : Nat), i < 32 →
    (sext v).getLsbD i = (if i < n then v.getLsbD i else v.getLsbD (n - 1)) ∧
    (zext v).getLsbD i = (if i < n then v.getLsbD i else false)

/-- Words written out in the spec decode to the instructions they stand for: one of each family (the
examples of R202, R214, R259, R301, R323, R352, R384, R410, R411 and R430). -/
def Obligations.SampleWordsDecode : Prop :=
  decode 0x002081B3 = .ok (.add 3 1 2) ∧ decode 0x0220C1B3 = .ok (.div 3 1 2) ∧
  decode 0x41F0D193 = .ok (.srai 3 1 31) ∧ decode 0x00001197 = .ok (.auipc 3 1) ∧
  decode 0x00209183 = .ok (.lh 3 1 2) ∧ decode 0xFE208FA3 = .ok (.sb 2 1 (-1)) ∧
  decode 0xFE20CCE3 = .ok (.blt 1 2 (-8)) ∧ decode 0x010000EF = .ok (.jal 1 16) ∧
  decode 0x004100E7 = .ok (.jalr 1 2 4) ∧ decode 0x00000073 = .ok .ecall

/-- A word whose low two bits are not 11, a word under a reserved, floating-point, atomic, fence, 64-bit
or custom opcode, the all-zero and the all-ones word are unrecognized (R100, R117, R120). -/
def Obligations.OtherOpcodesAreUnrecognized : Prop :=
  ∀ w : Word,
    (w.extractLsb' 0 2 ≠ 0b11 → decode w = .error .opcode) ∧
    (opcodeField w ∈ [0b0001111#7, 0b0101111, 0b0000111, 0b0100111, 0b1000011, 0b1000111, 0b1001011,
      0b1001111, 0b1010011, 0b0011011, 0b0111011, 0b0001011, 0b0101011, 0b1011011, 0b1111011, 0, 0b1111111] →
      decode w = .error .opcode)

/-! ## The execute part of every instruction -/

/-- The ten base OP operations and MUL complete in every state: result and frame (R200 to R211, R213). -/
def Obligations.RegisterOperationsComplete : Prop :=
  RegRegExec .add (fun a b => a + b) ∧
  RegRegExec .sub (fun a b => a - b) ∧
  RegRegExec .sll (fun a b => shl a (b.toNat % 32)) ∧
  RegRegExec .slt setLtS ∧
  RegRegExec .sltu setLtU ∧
  RegRegExec .xor (fun a b => a ^^^ b) ∧
  RegRegExec .srl (fun a b => shr a (b.toNat % 32)) ∧
  RegRegExec .sra (fun a b => sar a (b.toNat % 32)) ∧
  RegRegExec .or (fun a b => a ||| b) ∧
  RegRegExec .and (fun a b => a &&& b) ∧
  RegRegExec .mul (fun a b => BitVec.ofInt 32 (a.toInt * b.toInt))

/-- DIV and DIVU: the quotient outside the corners in every state, and in a corner the RISC-V value or
DivCornerFault as the policy says (R212, R214, R215, R513). In the fault clause, that `nxt` is then `cur`
(log entry 16) and that `mem_miss` stays as it was (log entry 8) are the model's readings. -/
def Obligations.DivisionsComplete : Prop :=
  ∀ (s : State) (rd rs1 rs2 : Reg) (a b : Word), a = s.readReg rs1 → b = s.readReg rs2 →
    (b = 0 → DivCornerExec s (exec (.div rd rs1 rs2) s) rd 0xFFFFFFFF) ∧
    (DivOverflows a b → DivCornerExec s (exec (.div rd rs1 rs2) s) rd 0x80000000) ∧
    (b ≠ 0 → ¬ DivOverflows a b → ∃ t v, exec (.div rd rs1 rs2) s = .next t ∧
      v.toInt = a.toInt.tdiv b.toInt ∧ WritesOnly s t rd v false) ∧
    (b = 0 → DivCornerExec s (exec (.divu rd rs1 rs2) s) rd 0xFFFFFFFF) ∧
    (b ≠ 0 → ∃ t v, exec (.divu rd rs1 rs2) s = .next t ∧
      v.toNat = a.toNat / b.toNat ∧ WritesOnly s t rd v false)

/-- The OP-IMM instructions complete in every state: result and frame (R250 to R259). -/
def Obligations.ImmediateOperationsComplete : Prop :=
  RegImmExec .addi (fun a b => a + b) ∧
  RegImmExec .slti setLtS ∧
  RegImmExec .sltiu setLtU ∧
  RegImmExec .xori (fun a b => a ^^^ b) ∧
  RegImmExec .ori (fun a b => a ||| b) ∧
  RegImmExec .andi (fun a b => a &&& b) ∧
  ShiftImmExec .slli shl ∧
  ShiftImmExec .srli shr ∧
  ShiftImmExec .srai sar

/-- LUI and AUIPC complete in every state: result and frame (R300, R301). -/
def Obligations.UpperImmediatesComplete : Prop :=
  ∀ (s : State) (rd : Reg) (imm20 : BitVec 20),
    (∃ t, exec (.lui rd imm20) s = .next t ∧
      WritesOnly s t rd (BitVec.ofNat 32 (imm20.toNat * 4096)) false) ∧
    (∃ t, exec (.auipc rd imm20) s = .next t ∧
      WritesOnly s t rd (s.cur.pc + BitVec.ofNat 32 (imm20.toNat * 4096)) false)

/-- The loads complete wherever no fault policy stops the access, at any alignment, and raise that
policy's fault otherwise (R71, R79, R513): value, extension and frame (R320 to R326). In the fault clause,
that `nxt` is then `cur` (log entry 16) and that `mem_miss` stays as it was (log entry 8) are the model's
readings. -/
def Obligations.LoadsComplete : Prop :=
  LoadExec .lb .byte (fun s ea => signedWord 8 (num8 s ea)) ∧
  LoadExec .lh .half (fun s ea => signedWord 16 (num16 s ea)) ∧
  LoadExec .lw .word (fun s ea => BitVec.ofNat 32 (num32 s ea)) ∧
  LoadExec .lbu .byte (fun s ea => BitVec.ofNat 32 (num8 s ea)) ∧
  LoadExec .lhu .half (fun s ea => BitVec.ofNat 32 (num16 s ea))

/-- The stores complete wherever no fault policy stops the access, at any alignment, and raise that
policy's fault otherwise (R71, R79, R513): the stored bytes and the frame (R350 to R354). Memory is in
canonical form (an invariant, `StepKeepsInvariant`). In the fault clause, that `nxt` is then `cur` (log
entry 16) and that `mem_miss` stays as it was (log entry 8) are the model's readings. -/
def Obligations.StoresComplete : Prop :=
  StoreExec .sb .byte ∧ StoreExec .sh .half ∧ StoreExec .sw .word

/-- The branches complete in every state, taken and not taken (R380, R382 to R387). -/
def Obligations.BranchesComplete : Prop :=
  BranchExec .beq (fun a b => a = b) ∧
  BranchExec .bne (fun a b => a ≠ b) ∧
  BranchExec .blt (fun a b => a.toInt < b.toInt) ∧
  BranchExec .bge (fun a b => b.toInt ≤ a.toInt) ∧
  BranchExec .bltu (fun a b => a.toNat < b.toNat) ∧
  BranchExec .bgeu (fun a b => b.toNat ≤ a.toNat)

/-- JAL and JALR complete in every state: link `pc + 4`, target, frame; JALR's target uses the old
`x[rs1]` and keeps bit 0 (R410 to R412). -/
def Obligations.JumpsComplete : Prop :=
  ∀ (s : State) (rd rs1 : Reg) (off : BitVec 21) (imm : BitVec 12),
    (∃ t, exec (.jal rd off) s = .next t ∧
      LinksAndJumps s t rd (s.cur.pc + 4) (s.cur.pc + BitVec.ofInt 32 off.toInt)) ∧
    (∃ t, exec (.jalr rd rs1 imm) s = .next t ∧
      LinksAndJumps s t rd (s.cur.pc + 4) (s.readReg rs1 + BitVec.ofInt 32 imm.toInt))

/-- ECALL completes in every state: it clears `run` and changes nothing else (R430). -/
def Obligations.EcallCompletes : Prop :=
  ∀ s : State, ∃ t, exec .ecall s = .next t ∧ SetsPcAndRun s t s.nxt.pc false

/-! ## A step on every kind of word -/

/-- A step runs the decoded instruction: where the fetched word decodes to `i`, the step is `exec i` on
the begun state (diagnostics of the fetch, default next pc), followed by the commit (R151 to R158). -/
def Obligations.StepRunsDecodedInstruction : Prop :=
  ∀ (s : State) (w : Word) (i : Instr), Fetches s w → decode w = .ok i →
    step s = (match exec i { s with decodeMiss := false, memMiss := touchesUnmapped s.cfg .word s.cur.pc,
                                     nxt := { s.nxt with pc := s.cur.pc + 4 } } with
      | .next t => .next (if t.fault = none then { t with cur := t.nxt, icount := t.icount + 1 } else t)
      | .fault f => .fault f
      | .refused r => .refused r)

/-- A step on each base OP word and on MUL (R200, R202 to R211, R213). -/
def Obligations.RegisterWordsStep : Prop :=
  RegRegWord 0x00000033 (fun a b => a + b) ∧
  RegRegWord 0x40000033 (fun a b => a - b) ∧
  RegRegWord 0x00001033 (fun a b => shl a (b.toNat % 32)) ∧
  RegRegWord 0x00002033 setLtS ∧
  RegRegWord 0x00003033 setLtU ∧
  RegRegWord 0x00004033 (fun a b => a ^^^ b) ∧
  RegRegWord 0x00005033 (fun a b => shr a (b.toNat % 32)) ∧
  RegRegWord 0x40005033 (fun a b => sar a (b.toNat % 32)) ∧
  RegRegWord 0x00006033 (fun a b => a ||| b) ∧
  RegRegWord 0x00007033 (fun a b => a &&& b) ∧
  RegRegWord 0x02000033 (fun a b => BitVec.ofInt 32 (a.toInt * b.toInt))

/-- A step on a DIV and on a DIVU word (R212, R214, R215, R513). In the fault clause, that `nxt` is then
`cur` is the model's reading of R513 and R40 (log entry 16). -/
def Obligations.DivisionWordsStep : Prop :=
  ∀ (s : State) (w a b : Word), Fetches s w → a = s.readReg (rs1Field w) → b = s.readReg (rs2Field w) →
    (w &&& 0xFE00707F = 0x02004033 →
      (b = 0 → DivCornerStep s (rdField w) 0xFFFFFFFF) ∧
      (DivOverflows a b → DivCornerStep s (rdField w) 0x80000000) ∧
      (b ≠ 0 → ¬ DivOverflows a b → ∃ t v, step s = .next t ∧ v.toInt = a.toInt.tdiv b.toInt ∧
        StepWrites s t (rdField w) v (s.cur.pc + 4) false)) ∧
    (w &&& 0xFE00707F = 0x02005033 →
      (b = 0 → DivCornerStep s (rdField w) 0xFFFFFFFF) ∧
      (b ≠ 0 → ∃ t v, step s = .next t ∧ v.toNat = a.toNat / b.toNat ∧
        StepWrites s t (rdField w) v (s.cur.pc + 4) false))

/-- A step on each OP-IMM word (R250 to R259). -/
def Obligations.ImmediateWordsStep : Prop :=
  RegImmWord 0x00000013 (fun a b => a + b) ∧
  RegImmWord 0x00002013 setLtS ∧
  RegImmWord 0x00003013 setLtU ∧
  RegImmWord 0x00004013 (fun a b => a ^^^ b) ∧
  RegImmWord 0x00006013 (fun a b => a ||| b) ∧
  RegImmWord 0x00007013 (fun a b => a &&& b) ∧
  ShiftImmWord 0x00001013 shl ∧
  ShiftImmWord 0x00005013 shr ∧
  ShiftImmWord 0x40005013 sar

/-- A step on a LUI and on an AUIPC word, whatever bits [14:12] hold (R116, R300, R301). -/
def Obligations.UpperImmediateWordsStep : Prop :=
  ∀ (s : State) (w : Word), Fetches s w →
    (w &&& 0x0000007F = 0x00000037 → ∃ t, step s = .next t ∧
      StepWrites s t (rdField w) (BitVec.ofNat 32 (bitsOf w 12 20 * 4096)) (s.cur.pc + 4) false) ∧
    (w &&& 0x0000007F = 0x00000017 → ∃ t, step s = .next t ∧
      StepWrites s t (rdField w) (s.cur.pc + BitVec.ofNat 32 (bitsOf w 12 20 * 4096)) (s.cur.pc + 4) false)

/-- A step on each LOAD word: the load (R320 to R326), or the fault of its access (R71, R79, R513). In
the fault clause, that `nxt` is then `cur` is the model's reading of R513 and R40 (log entry 16). -/
def Obligations.LoadWordsStep : Prop :=
  LoadWord 0x00000003 .byte (fun s ea => signedWord 8 (num8 s ea)) ∧
  LoadWord 0x00001003 .half (fun s ea => signedWord 16 (num16 s ea)) ∧
  LoadWord 0x00002003 .word (fun s ea => BitVec.ofNat 32 (num32 s ea)) ∧
  LoadWord 0x00004003 .byte (fun s ea => BitVec.ofNat 32 (num8 s ea)) ∧
  LoadWord 0x00005003 .half (fun s ea => BitVec.ofNat 32 (num16 s ea))

/-- A step on each STORE word: the store (R350 to R354), or the fault of its access (R71, R79, R513). In
the fault clause, that `nxt` is then `cur` is the model's reading of R513 and R40 (log entry 16). -/
def Obligations.StoreWordsStep : Prop :=
  StoreWord 0x00000023 .byte ∧ StoreWord 0x00001023 .half ∧ StoreWord 0x00002023 .word

/-- A step on each BRANCH word (R380, R382 to R387). -/
def Obligations.BranchWordsStep : Prop :=
  BranchWord 0x00000063 (fun a b => a = b) ∧
  BranchWord 0x00001063 (fun a b => a ≠ b) ∧
  BranchWord 0x00004063 (fun a b => a.toInt < b.toInt) ∧
  BranchWord 0x00005063 (fun a b => b.toInt ≤ a.toInt) ∧
  BranchWord 0x00006063 (fun a b => a.toNat < b.toNat) ∧
  BranchWord 0x00007063 (fun a b => b.toNat ≤ a.toNat)

/-- A step on a JAL and on a JALR word; JALR whatever funct3 holds, and with an odd target kept
(R410 to R412). -/
def Obligations.JumpWordsStep : Prop :=
  ∀ (s : State) (w : Word), Fetches s w →
    (w &&& 0x0000007F = 0x0000006F → ∃ t, step s = .next t ∧
      StepWrites s t (rdField w) (s.cur.pc + 4) (s.cur.pc + BitVec.ofInt 32 (immJField w).toInt) false) ∧
    (w &&& 0x0000007F = 0x00000067 → ∃ t, step s = .next t ∧
      StepWrites s t (rdField w) (s.cur.pc + 4)
        (s.readReg (rs1Field w) + BitVec.ofInt 32 (immIField w).toInt) false)

/-- A step on any SYSTEM word (ECALL, EBREAK, MRET, WFI, the CSR instructions): the run flag is
cleared, the step commits and goes on to `pc + 4`, no register and no memory byte changes, and a
following run performs no step (R430). -/
def Obligations.SystemWordsHalt : Prop :=
  ∀ (s : State) (w : Word), Fetches s w → w &&& 0x0000007F = 0x00000073 → ∃ t, step s = .next t ∧
    StepGoesTo s t (s.cur.pc + 4) false false ∧ ∀ n, runN n t = .next t

/-- A step on a word that matches no table row, under DECODE_MISS_POLICY = nop: registers, memory and
`run` unchanged, `pc + 4`, `decode_miss` set, committed and counted (R432; R216, R260, R327, R355 and
R388 say it of the words under their opcodes). -/
def Obligations.UnrecognizedWordsAreNops : Prop :=
  ∀ (s : State) (w : Word), Fetches s w → rowsMatching w = [] → s.cfg.decodeMiss = .nop →
    ∃ t, step s = .next t ∧ StepGoesTo s t (s.cur.pc + 4) s.run true

/-- The same word under DECODE_MISS_POLICY = fault raises DecodeFault(pc, w), and the step is not
committed (R433, R513). That `nxt` is then `cur` is the model's reading of R513 and R40 (log entry 16). -/
def Obligations.UnrecognizedWordsFault : Prop :=
  ∀ (s : State) (w : Word), Fetches s w → rowsMatching w = [] → s.cfg.decodeMiss = .fault →
    ∃ t, step s = .next t ∧ StepFaults s t (.decode s.cur.pc w)

/-! ## Rules of the whole machine -/

/-- Between steps of a running machine every step either commits, counting one, or raises a fault that
a non-default parameter enables and commits nothing (R157, R158, R500, R513). No step stops the model.
That `nxt` is `cur` after a fault is the model's reading of R513 and R40 (log entry 16). -/
def Obligations.StepCommitsOrFaults : Prop :=
  ∀ s : State, s.run = true → s.fault = none → s.cur = s.nxt →
    (∃ t unrecognized missed, step s = .next t ∧ Committed s t unrecognized missed) ∨
    (∃ t f, step s = .next t ∧ StepFaults s t f ∧ FaultEnabled s.cfg (some f))

/-- With every parameter at its hardware value a step raises nothing: it commits (R15, R163, R502). -/
def Obligations.HardwarePoliciesNeverFault : Prop :=
  ∀ s : State, s.cfg.AtHardwarePolicies → s.run = true → s.fault = none → s.cur = s.nxt →
    ∃ t unrecognized missed, step s = .next t ∧ Committed s t unrecognized missed

/-- Every step keeps the invariant: snapshots equal, memory canonical and inside the regions, hardwired
x0 zero, recorded fault enabled (R40, R61, R32, R513). That the snapshots agree after a fault too is the
model's reading of R513 and R40 (log entry 16). -/
def Obligations.StepKeepsInvariant : Prop :=
  ∀ s t : State, StepInvariant s → step s = .next t → StepInvariant t

/-- The invariant holds right after reset. -/
def Obligations.ResetMeetsInvariant : Prop := StepInvariant State.reset

/-- The invariant holds in the boot state of every configuration and image: snapshots equal (R40: reset
sets both), memory canonical and inside the regions (R602: a word outside every region is dropped), a
hardwired x0 zero, a recorded fault enabled. What registers and the fault record hold is `BootState`'s. -/
def Obligations.BootMeetsInvariant : Prop := ∀ c : Config, StepInvariant (State.boot c)

/-- Every host operation keeps the invariant (R40: "commit, reset, host SET_REG"; after a fault in RUN_N
as log entry 16 reads R513). -/
def Obligations.HostOperationsKeepInvariant : Prop :=
  ∀ (s t : State) (op : HostOp) (r : HostReply), StepInvariant s → hostApply op s = .next (t, r) → StepInvariant t

/-- The invariant holds in every state the machine can be in between steps, whatever the
configuration, the program and the host operations between the steps (log entries 12 and 16). -/
def Obligations.ReachableStatesMeetInvariant : Prop := ∀ s : State, Reachable s → StepInvariant s

/-- What one step may change at most (R162): no register but the one its rd field names, and none at all
on a STORE, BRANCH or SYSTEM word; memory only on a STORE word, and there no byte outside the four at
`x[rs1] + immS`; a next pc other than `pc + 4` only on a branch or jump word; `run` only on a SYSTEM
word, and only to clear it. -/
def Obligations.StepChangesAtMost : Prop :=
  ∀ (s t : State) (w ea : Word), Fetches s w → step s = .next t →
    ea = s.readReg (rs1Field w) + BitVec.ofInt 32 (immSField w).toInt →
    (∀ r, r ≠ rdField w → t.cur.reg r = s.cur.reg r) ∧
    (isStoreOpcode w ∨ isBranchOpcode w ∨ isSystemOpcode w → ∀ r, t.cur.reg r = s.cur.reg r) ∧
    (¬ isStoreOpcode w → t.mem = s.mem) ∧
    (∀ a, (∀ k, k < 4 → a ≠ ea + BitVec.ofNat 32 k) → t.readByte a = s.readByte a) ∧
    (¬ isBranchOpcode w → ¬ isJumpOpcode w → t.fault = none → t.cur.pc = s.cur.pc + 4) ∧
    (¬ isSystemOpcode w → t.run = s.run) ∧
    (isSystemOpcode w → t.run = false)

/-- "No instruction reads it and no instruction sets it": a step never sets `run`, and where it clears
`run` the word it ran was a SYSTEM word and the step committed (R41, R431; `step` is RUN_N(1), log
entry 5). -/
def Obligations.OnlySystemClearsRun : Prop :=
  ∀ s t : State, step s = .next t →
    (s.run = false → t.run = false) ∧
    (s.run = true → t.run = false →
      opcodeField (s.memRead32 s.cur.pc) = 0b1110011 ∧ t.fault = none ∧ t.icount = s.icount + 1)

/-- A machine whose `run` is clear, or that has a fault recorded, performs no step: `step` and RUN_N of
any length leave the whole state as it is (R163, R164, R431, R513; that `step` is then the unchanged
state, and no stop, is the model's choice, log entry 5). -/
def Obligations.StoppedMachinePerformsNoStep : Prop :=
  ∀ s : State, s.run = false ∨ s.fault ≠ none →
    step s = .next s ∧ ∀ n, runN n s = .next s

/-- A recorded fault stays through every host operation but RESET, which clears it (R513). -/
def Obligations.FaultStaysUntilReset : Prop :=
  ∀ (s t : State) (op : HostOp) (r : HostReply), s.fault ≠ none → hostApply op s = .next (t, r) →
    (∃ image, op = .reset image ∧ t.fault = none) ∨
    ((∀ image, op ≠ .reset image) ∧ t.fault = s.fault)

/-- The order in which a step reaches the faults: the fetch's fault before any other, then DecodeFault;
a division corner or the fault of a data access only where neither applies; and of one access the
straddle before the miss (R505). The model's readings in it: a fetch too raises the straddle before the
miss (log entry 21), and `nxt` is `cur` after a fault (log entry 16). -/
def Obligations.FaultsFollowPriority : Prop :=
  ∀ s : State, s.run = true → s.fault = none →
    (∀ f, accessFault s.cfg .word s.cur.pc = some f → ∃ t, step s = .next t ∧ StepFaults s t f) ∧
    (accessFault s.cfg .word s.cur.pc = none → s.cfg.decodeMiss = .fault →
      rowsMatching (s.memRead32 s.cur.pc) = [] →
      ∃ t, step s = .next t ∧ StepFaults s t (.decode s.cur.pc (s.memRead32 s.cur.pc))) ∧
    (∀ t f, step s = .next t → t.fault = some f →
      accessFault s.cfg .word s.cur.pc = some f ∨
      (accessFault s.cfg .word s.cur.pc = none ∧ rowsMatching (s.memRead32 s.cur.pc) = [] ∧
        f = .decode s.cur.pc (s.memRead32 s.cur.pc)) ∨
      (accessFault s.cfg .word s.cur.pc = none ∧ rowsMatching (s.memRead32 s.cur.pc) ≠ [] ∧
        (f = .divCorner s.cur.pc ∨ ∃ n a, accessFault s.cfg n a = some f))) ∧
    (∀ (c : Config) (n : Width) (a : Word), c.straddle = .fault → straddles c n a = true →
      accessFault c n a = some (.straddle a n)) ∧
    (∀ (c : Config) (n : Width) (a : Word), c.straddle = .perByte ∨ straddles c n a = false →
      c.memMiss = .fault → touchesUnmapped c n a = true → accessFault c n a = some (.memMiss a n)) ∧
    (∀ (c : Config) (n : Width) (a : Word), c.straddle = .perByte ∨ straddles c n a = false →
      c.memMiss = .silent ∨ touchesUnmapped c n a = false → accessFault c n a = none)

/-- "The step is a function of `cur`, memory and the parameters": two running states that agree on
these, whatever their counters and diagnostics, step to states that agree on both snapshots, memory,
`run`, the fault record and both diagnostics, with counters that moved alike (R159). -/
def Obligations.StepDependsOnCurMemoryParameters : Prop :=
  ∀ s₁ s₂ t₁ t₂ : State, AgreeForStep s₁ s₂ → s₁.cur = s₁.nxt → s₂.cur = s₂.nxt →
    s₁.mayStep = true → s₂.mayStep = true → step s₁ = .next t₁ → step s₂ = .next t₂ →
    t₁.cur = t₂.cur ∧ t₁.nxt = t₂.nxt ∧ t₁.mem = t₂.mem ∧ t₁.run = t₂.run ∧ t₁.fault = t₂.fault ∧
      t₁.decodeMiss = t₂.decodeMiss ∧ t₁.memMiss = t₂.memMiss ∧ t₁.cfg = t₂.cfg ∧
      t₁.icount + s₂.icount = t₂.icount + s₁.icount

/-- The configuration is fixed: no step changes it, and of the host operations only RESET replaces the
program image and nothing else of it (R49; the field is the model's own, log entries 1 and 14). -/
def Obligations.ConfigurationIsFixed : Prop :=
  (∀ s t : State, step s = .next t → t.cfg = s.cfg) ∧
  (∀ (s t : State) (op : HostOp) (r : HostReply), hostApply op s = .next (t, r) →
    t.cfg = s.cfg ∨ ∃ image, op = .reset image ∧ t.cfg = { s.cfg with image := image })

/-! ## Memory (20_memory.md) -/

/-- A word written where all four bytes are mapped reads back, at any alignment (R78). -/
def Obligations.WordRoundTrip : Prop :=
  ∀ (s : State) (a v : Word), s.mem.wf → touchesUnmapped s.cfg .word a = false →
    (s.memWrite32 a v).memRead32 a = v

/-- One byte array under mixed widths: after a word is written, a byte read and a half-word read see
its bits, and a byte written changes only its own bits of a later word read (R73), wherever the bytes
they name are mapped. -/
def Obligations.MixedWidthsShareBytes : Prop :=
  ∀ (s : State) (a v b : Word), s.mem.wf →
    (∀ k, k < 4 → mapped s.cfg (a + BitVec.ofNat 32 k) = true →
      (s.memWrite32 a v).memRead8 (a + BitVec.ofNat 32 k) = v.extractLsb' (8 * k) 8) ∧
    (mapped s.cfg a = true → mapped s.cfg (a + 1) = true →
      (s.memWrite32 a v).memRead16 a = v.extractLsb' 0 16) ∧
    (∀ k, k < 4 → mapped s.cfg (a + BitVec.ofNat 32 k) = true → ∀ i, i < 32 →
      ((s.memWrite8 (a + BitVec.ofNat 32 k) b).memRead32 a).getLsbD i =
        if 8 * k ≤ i ∧ i < 8 * k + 8 then b.getLsbD (i - 8 * k) else (s.memRead32 a).getLsbD i)

/-- An address is mapped exactly where some region contains it (R64); an unmapped one reads 0x00, and a
write there changes nothing (R65, R66); and an access counts as a miss exactly where one of its bytes is
unmapped (R46). -/
def Obligations.UnmappedBytes : Prop :=
  (∀ (c : Config) (a : Word), mapped c a = true ↔ ∃ r ∈ c.regions, r.base ≤ a ∧ a ≤ r.last) ∧
  (∀ (s : State) (a : Word) (b : Byte), (∀ r ∈ s.cfg.regions, ¬ (r.base ≤ a ∧ a ≤ r.last)) →
    s.readByte a = 0 ∧ s.writeByte a b = s) ∧
  (∀ (c : Config) (n : Width) (a : Word), touchesUnmapped c n a = true ↔
    ∃ k, k < n.bytes ∧ mapped c (a + BitVec.ofNat 32 k) = false)

/-- A fetch wholly outside every region, under the hardware policies: it reads 0x00000000, sets both
diagnostics, and the step goes on to `pc + 4` with nothing else changed (R152, R504). -/
def Obligations.UnmappedFetchIsNop : Prop :=
  ∀ s : State, s.cfg.AtHardwarePolicies → s.mayStep = true → s.cur = s.nxt →
    (∀ k, k < 4 → mapped s.cfg (s.cur.pc + BitVec.ofNat 32 k) = false) →
    s.memRead32 s.cur.pc = 0 ∧ ∃ t, step s = .next t ∧ StepGoesTo s t (s.cur.pc + 4) true true ∧
      t.memMiss = true

/-- What a straddling access is: its bytes do not all lie in one region and are not all unmapped (R70). -/
def Obligations.StraddlingAccess : Prop :=
  ∀ (c : Config) (n : Width) (a : Word), straddles c n a = true ↔
    (¬ ∃ r ∈ c.regions, ∀ k, k < n.bytes → r.base ≤ a + BitVec.ofNat 32 k ∧ a + BitVec.ofNat 32 k ≤ r.last) ∧
    (∃ k, k < n.bytes ∧ ∃ r ∈ c.regions, r.base ≤ a + BitVec.ofNat 32 k ∧ a + BitVec.ofNat 32 k ≤ r.last)

/-- A store in one step to the bytes the next step fetches is the word the next step runs: no fence, no
delay (R86). The store is an SW word whose address is the next pc. -/
def Obligations.StoreIsFetchedNext : Prop :=
  ∀ (s : State) (w : Word), Fetches s w → s.mem.wf → w &&& 0x0000707F = 0x00002023 →
    s.readReg (rs1Field w) + BitVec.ofInt 32 (immSField w).toInt = s.cur.pc + 4 →
    accessFault s.cfg .word (s.cur.pc + 4) = none → touchesUnmapped s.cfg .word (s.cur.pc + 4) = false →
    ∃ t, step s = .next t ∧ Fetches t (s.readReg (rs2Field w))

/-- The host's placed word is what the next step fetches, wherever the program counter's four bytes
are mapped and a fetch there raises nothing (the model's interface, log entry 11). -/
def Obligations.PlacedWordIsFetched : Prop :=
  ∀ (s : State) (nbits w : Nat), s.cur = s.nxt → s.mem.wf →
    touchesUnmapped s.cfg .word s.cur.pc = false → accessFault s.cfg .word s.cur.pc = none →
    Fetches (s.withFetchWord nbits w) (BitVec.ofNat 32 (w % 2 ^ nbits))

/-- Memory with no byte listed is a field of NOPs: under the hardware policies the program counter
walks on by 4 for as many steps as one likes, and the run never stops by itself (R434, R614). -/
def Obligations.EmptyMemoryRunsOn : Prop :=
  ∀ (n : Nat) (s : State), s.cfg.AtHardwarePolicies → s.run = true → s.fault = none → s.cur = s.nxt →
    s.mem = [] → ∃ t, runN n s = .next t ∧ t.cur.pc = s.cur.pc + BitVec.ofNat 32 (4 * n) ∧
      (∀ r, t.cur.reg r = s.cur.reg r) ∧ t.run = true ∧ t.icount = s.icount + n ∧ t.mem = []

/-! ## Reset and the host (70_reset_and_hazards.md; 40_step.md section 5) -/

/-- The host's RESET is the boot of the same configuration with the new image (that the configuration
holds the image is the model's choice, log entry 14), and every piece of state after it: registers 0 and pc TEXT_BASE in both snapshots, `run` set, counter 0, diagnostics and fault
clear; memory holds the image's bytes where they are mapped and 0x00 everywhere else, under every policy (R600,
R602, R604; that the load raises nothing under the fault policies is log entry 9). The two clauses about
memory leave out images longer than the address space. -/
def Obligations.BootState : Prop :=
  (∀ (s : State) (image : List Word),
    hostApply (.reset image) s = .next (State.boot { s.cfg with image := image }, .done)) ∧
  ∀ c : Config,
    (∀ r, (State.boot c).cur.reg r = 0 ∧ (State.boot c).nxt.reg r = 0) ∧
    (State.boot c).cur.pc = c.textBase ∧ (State.boot c).nxt.pc = c.textBase ∧
    (State.boot c).run = true ∧ (State.boot c).icount = 0 ∧ (State.boot c).decodeMiss = false ∧
    (State.boot c).memMiss = false ∧ (State.boot c).fault = none ∧ (State.boot c).cfg = c ∧
    (4 * c.image.length ≤ 2 ^ 32 →
      (∀ (i : Nat) (h : i < c.image.length) (k : Nat), k < 4 →
        (State.boot c).readByte (c.textBase + BitVec.ofNat 32 (4 * i + k)) =
          if mapped c (c.textBase + BitVec.ofNat 32 (4 * i + k)) then (c.image[i]).extractLsb' (8 * k) 8
          else 0) ∧
      (∀ a, (∀ j, j < 4 * c.image.length → a ≠ c.textBase + BitVec.ofNat 32 j) →
        (State.boot c).readByte a = 0))

/-- The machine of `State.reset` is the boot state of the hardware configuration, its program counter at
the base of the text region (R35, R603; the map is D4's test configuration, the model's choice, log
entry 2). -/
def Obligations.ResetIsBootOfHardware : Prop :=
  State.reset = State.boot Config.hardware ∧ State.reset.cur.pc = 0x1000 ∧
    Config.hardware.RegionsValid ∧ Config.hardware.AtHardwarePolicies

/-- SET_REG writes both snapshots of the register and nothing else, rejects an index outside 0 to 31, and
leaves a hardwired x0 alone; and no host operation but RESET, and the steps the host issues, sets the
program counter (R166). -/
def Obligations.SetRegWritesBothSnapshots : Prop :=
  ∀ (s : State) (i : Nat) (v : Word),
    (32 ≤ i → hostApply (.setReg i v) s = .next (s, .rejected)) ∧
    (∀ h : i < 32, s.hardwired ⟨i, h⟩ = true → hostApply (.setReg i v) s = .next (s, .done)) ∧
    (∀ h : i < 32, s.hardwired ⟨i, h⟩ = false → ∃ t, hostApply (.setReg i v) s = .next (t, .done) ∧
      t.cur.reg ⟨i, h⟩ = v ∧ t.nxt.reg ⟨i, h⟩ = v ∧
      (∀ r, r ≠ ⟨i, h⟩ → t.cur.reg r = s.cur.reg r ∧ t.nxt.reg r = s.nxt.reg r) ∧
      t.cur.pc = s.cur.pc ∧ t.nxt.pc = s.nxt.pc ∧ t.run = s.run ∧ t.icount = s.icount ∧
      t.mem = s.mem ∧ t.decodeMiss = s.decodeMiss ∧ t.memMiss = s.memMiss ∧ t.fault = s.fault ∧ t.cfg = s.cfg) ∧
    (∀ (op : HostOp) (t : State) (r : HostReply), hostApply op s = .next (t, r) →
      (∀ n, op ≠ .runN n) → (∀ image, op ≠ .reset image) → t.cur.pc = s.cur.pc ∧ t.nxt.pc = s.nxt.pc)

/-- STOP clears `run` and changes nothing else, and no step follows it (R165). -/
def Obligations.StopClearsRun : Prop :=
  ∀ s : State, ∃ t, hostApply .stop s = .next (t, .done) ∧ t = { s with run := false } ∧
    ∀ n, runN n t = .next t

/-- The host never writes memory, changes the program counter or sets `run` except through RESET and
the steps it issues (R172). -/
def Obligations.HostMovesAreLimited : Prop :=
  ∀ (s t : State) (op : HostOp) (r : HostReply), hostApply op s = .next (t, r) →
    (∀ n, op ≠ .runN n) → (∀ image, op ≠ .reset image) →
    t.mem = s.mem ∧ t.cur.pc = s.cur.pc ∧ t.nxt.pc = s.nxt.pc ∧ (t.run = true → s.run = true)

/-- The dumps, the status view and list-program change nothing; dump-registers shows the current
registers and pc; dump-memory shows the byte at each address from start to stop, 0x00 where no region
contains it; list-program shows the word at TEXT_BASE + 4i for each i below the loaded word count (R167,
R170). The model's own in it: a hardwired x0 shows 0 (log entry 17), start above stop shows no byte (log
entry 18), the count is that of the image in the configuration (log entry 14), and words past the text
region read as memory does there (log entry 19). -/
def Obligations.ViewsChangeNothing : Prop :=
  ∀ (s : State) (start stop : Word),
    (∃ x, hostApply .dumpRegisters s = .next (s, .registers x s.cur.pc) ∧
      ∀ r : Reg, x.get r = if s.hardwired r then 0 else s.cur.reg r) ∧
    (∃ bytes, hostApply (.dumpMemory start stop) s = .next (s, .bytes bytes) ∧
      bytes.length = stop.toNat + 1 - start.toNat ∧
      ∀ (k : Nat) (h : k < bytes.length), bytes[k] = s.readByte (start + BitVec.ofNat 32 k)) ∧
    hostApply .status s = .next (s, .status ⟨s.run, s.icount, s.decodeMiss, s.memMiss, s.fault⟩) ∧
    (∃ words, hostApply .listProgram s = .next (s, .words words) ∧ words.length = s.cfg.image.length ∧
      ∀ (i : Nat) (h : i < words.length), words[i] = s.memRead32 (s.cfg.textBase + BitVec.ofNat 32 (4 * i)))

/-- RUN_N(n) is `n` turns of the machine's step: stopping early and stepping a stopped machine come to
the same (R164; Host.Core.run of the model). -/
def Obligations.RunNIsRepeatedStep : Prop :=
  ∀ (n : Nat) (s : State), Sys2Proof.core.run n s = runN n s

/-- A suspended run continues from where it was: RUN_N(m) then RUN_N(n) is RUN_N(m + n); and RUN, where
it returns, returns in one state only (R159, R163, R171). -/
def Obligations.RunsContinueAndAreDeterminate : Prop :=
  (∀ (m n : Nat) (s t : State), runN m s = .next t → runN (m + n) s = runN n t) ∧
  (∀ s t u : State, RunReturns s t → RunReturns s u → t = u)

/-! ## The pseudo-instructions -/

/-- The two halves into which R122 splits a constant or an offset add up to it; and the expansion of
`li rd, imm`, run from any state that holds its words at the program counter, loads the constant: `imm`
in the two-instruction form, `x0 + imm` in the one-ADDI form (R33, R122, R251), so `imm` while x0 holds 0.
A hardwired x0 discards both writes (R32). No other register, no memory byte and not `run` changes. -/
def Obligations.PseudoHalvesAddUp : Prop :=
  (∀ v : Word, BitVec.ofNat 32 ((splitHi v).toNat * 4096) + BitVec.ofInt 32 (splitLo v).toInt = v) ∧
  (∀ (rd : Reg) (imm : Word),
    (∃ j, expandPseudo (.li rd imm) = [.addi rd 0 j] ∧ BitVec.ofInt 32 j.toInt = imm) ∨
    (∃ h l, expandPseudo (.li rd imm) = [.lui rd h, .addi rd rd l] ∧
      BitVec.ofNat 32 (h.toNat * 4096) + BitVec.ofInt 32 l.toInt = imm)) ∧
  (∀ (s : State) (rd : Reg) (imm : Word), HoldsProgram s (expandPseudo (.li rd imm)) →
    ∃ t, runN (expandPseudo (.li rd imm)).length s = .next t ∧
      (s.hardwired rd = false →
        ((expandPseudo (.li rd imm)).length = 1 → t.cur.reg rd = s.readReg 0 + imm) ∧
        ((expandPseudo (.li rd imm)).length = 2 → t.cur.reg rd = imm)) ∧
      (s.hardwired rd = true → t.cur.reg rd = s.cur.reg rd) ∧
      (∀ r, r ≠ rd → t.cur.reg r = s.cur.reg r) ∧
      t.cur.pc = s.cur.pc + BitVec.ofNat 32 (4 * (expandPseudo (.li rd imm)).length) ∧
      t.mem = s.mem ∧ t.run = true ∧ t.fault = none ∧
      t.icount = s.icount + (expandPseudo (.li rd imm)).length)
end

