-- ==== Sys2Proof/Laws/Alu.lean ====
section
/-! SUPPORT. The ALU results and the operand forms as arithmetic on `toNat` and `toInt`. -/

namespace Sys2Proof.Machine

/-! ## Operands -/

theorem sext_eq_ofInt {n : Nat} (v : BitVec n) : sext v = BitVec.ofInt 32 v.toInt := by
  rw [sext, BitVec.signExtend]

theorem imm12_eq (imm : BitVec 12) : imm12 imm = BitVec.ofInt 32 imm.toInt := sext_eq_ofInt imm
theorem immB_eq (off : BitVec 13) : immB off = BitVec.ofInt 32 off.toInt := sext_eq_ofInt off
theorem immJ_eq (off : BitVec 21) : immJ off = BitVec.ofInt 32 off.toInt := sext_eq_ofInt off

theorem immU_eq (imm20 : BitVec 20) : immU imm20 = BitVec.ofNat 32 (imm20.toNat * 4096) := by
  apply BitVec.eq_of_toNat_eq
  rw [immU, BitVec.toNat_append, ← Nat.shiftLeft_add_eq_or_of_lt (by simp), Nat.shiftLeft_eq]
  simp; omega

theorem shiftAmount_eq (v : Word) : shiftAmount v = v.toNat % 32 := by simp [shiftAmount]

theorem shiftAmount_lt (v : Word) : shiftAmount v < 32 := by rw [shiftAmount_eq]; omega

/-! ## Results -/

theorem shiftLeft_eq (a : Word) (k : Nat) : shiftLeft a k = BitVec.ofNat 32 (a.toNat * 2 ^ k) := by
  apply BitVec.eq_of_toNat_eq
  simp [shiftLeft, Nat.shiftLeft_eq]

theorem shiftRightLogical_eq (a : Word) (k : Nat) :
    shiftRightLogical a k = BitVec.ofNat 32 (a.toNat / 2 ^ k) := by
  apply BitVec.eq_of_toNat_eq
  have : a.toNat / 2 ^ k < 2 ^ 32 := Nat.lt_of_le_of_lt (Nat.div_le_self _ _) a.isLt
  simp only [shiftRightLogical, BitVec.toNat_ushiftRight, Nat.shiftRight_eq_div_pow, BitVec.toNat_ofNat]
  exact (Nat.mod_eq_of_lt this).symm

theorem shiftRightArith_eq (a : Word) (k : Nat) :
    shiftRightArith a k = BitVec.ofInt 32 (a.toInt / 2 ^ k) := by
  rw [shiftRightArith, BitVec.sshiftRight, Int.shiftRight_eq_div_pow]
  norm_cast

theorem aluSlt_eq (a b : Word) : aluSlt a b = if a.toInt < b.toInt then 1 else 0 := by
  simp [aluSlt, boolWord, ltSigned]

theorem aluSltu_eq (a b : Word) : aluSltu a b = if a.toNat < b.toNat then 1 else 0 := by
  simp [aluSltu, boolWord, ltUnsigned]

/-- MUL gives the same pattern whether its operands are read signed or unsigned (R201, R213). -/
theorem aluMul_eq (a b : Word) : aluMul a b = BitVec.ofInt 32 (a.toInt * b.toInt) := by
  rw [aluMul]
  apply BitVec.eq_of_toInt_eq
  rw [BitVec.toInt_eq_toNat_bmod, BitVec.toNat_ofNat, BitVec.toInt_ofInt, BitVec.toInt_eq_toNat_bmod,
    BitVec.toInt_eq_toNat_bmod]
  simp
  exact Int.emod_bmod _ 4294967296

/-! ## Division -/

theorem toInt_bounds (a : Word) : -2 ^ 31 ≤ a.toInt ∧ a.toInt < 2 ^ 31 := by
  have h1 := BitVec.le_toInt a
  have h2 := @BitVec.toInt_lt 32 a
  simpa using And.intro h1 h2

theorem toInt_eq_zero {b : Word} : b.toInt = 0 ↔ b = 0 := by
  constructor
  · intro h; exact BitVec.eq_of_toInt_eq (by simpa using h)
  · rintro rfl; simp

theorem toInt_intMin {a : Word} : a.toInt = -2 ^ 31 ↔ a = 0x80000000 := by
  constructor
  · intro h; exact BitVec.eq_of_toInt_eq (by rw [h]; decide)
  · rintro rfl; decide

theorem toInt_negOne {b : Word} : b.toInt = -1 ↔ b = 0xFFFFFFFF := by
  constructor
  · intro h; exact BitVec.eq_of_toInt_eq (by rw [h]; decide)
  · rintro rfl; decide

/-- Outside -2^31 / -1 the quotient fits in a register. -/
theorem tdiv_bounds {a b : Int} (ha : -2 ^ 31 ≤ a ∧ a < 2 ^ 31) (h : ¬ (a = -2 ^ 31 ∧ b = -1)) :
    -2 ^ 31 ≤ a.tdiv b ∧ a.tdiv b < 2 ^ 31 := by
  have hn : (a.tdiv b).natAbs = a.natAbs / b.natAbs := Int.natAbs_tdiv a b
  have hle : a.natAbs / b.natAbs ≤ a.natAbs := Nat.div_le_self _ _
  by_cases hm : a = -2 ^ 31
  · by_cases hb : b.natAbs ≤ 1
    · have : b = 0 ∨ b = 1 ∨ b = -1 := by omega
      rcases this with rfl | rfl | rfl
      · simp
      · simp; omega
      · exact absurd ⟨hm, rfl⟩ h
    · have : a.natAbs / b.natAbs ≤ a.natAbs / 2 := Nat.div_le_div_left (by omega) (by omega)
      omega
  · omega

theorem quotSigned_toInt {a b : Word} (h : ¬ (a.toInt = -2 ^ 31 ∧ b.toInt = -1)) :
    (quotSigned a b).toInt = a.toInt.tdiv b.toInt := by
  have hq := tdiv_bounds (toInt_bounds a) h
  rw [quotSigned, BitVec.toInt_ofInt, Int.bmod_eq_of_le] <;> norm_num at hq ⊢ <;> omega

theorem quotUnsigned_toNat (a b : Word) : (quotUnsigned a b).toNat = a.toNat / b.toNat := by
  have : a.toNat / b.toNat < 2 ^ 32 := Nat.lt_of_le_of_lt (Nat.div_le_self _ _) a.isLt
  rw [quotUnsigned, BitVec.toNat_ofNat]
  exact Nat.mod_eq_of_lt this

theorem divCorner_zero (a : Word) : divCorner a 0 = some 0xFFFFFFFF := by simp [divCorner]

theorem divCorner_overflow : divCorner 0x80000000 0xFFFFFFFF = some 0x80000000 := by decide

theorem divCorner_none {a b : Word} (h0 : b ≠ 0) (h : ¬ (a.toInt = -2 ^ 31 ∧ b.toInt = -1)) :
    divCorner a b = none := by
  rw [toInt_intMin, toInt_negOne] at h
  rw [divCorner, if_neg h0, if_neg h]

theorem divuCorner_zero (a : Word) : divuCorner a 0 = some 0xFFFFFFFF := by simp [divuCorner]

theorem divuCorner_none (a : Word) {b : Word} (h : b ≠ 0) : divuCorner a b = none := if_neg h

end Sys2Proof.Machine
end

