-- ==== Sys2Proof/Laws/State.lean ====
section
/-! SUPPORT. One lemma for each field and each update of State, so that no proof unfolds a record
update; the field lemmas of the two snapshots stand first. -/

namespace Sys2Proof.Machine

/-! ## Snapshots -/

@[simp] theorem Snapshot.setReg_pc (p : Snapshot) (r : Reg) (v : Word) : (p.setReg r v).pc = p.pc := rfl
@[simp] theorem Snapshot.setPc_pc (p : Snapshot) (t : Word) : (p.setPc t).pc = t := rfl
@[simp] theorem Snapshot.setPc_x (p : Snapshot) (t : Word) : (p.setPc t).x = p.x := rfl
@[simp] theorem Snapshot.setPc_reg (p : Snapshot) (t : Word) (r : Reg) : (p.setPc t).reg r = p.reg r := rfl

@[simp] theorem Snapshot.setReg_reg_self (p : Snapshot) (r : Reg) (v : Word) : (p.setReg r v).reg r = v := by
  simp [Snapshot.setReg, Snapshot.reg, Vector.get_eq_getElem]

theorem Snapshot.setReg_reg_of_ne (p : Snapshot) {r q : Reg} (v : Word) (h : q ≠ r) :
    (p.setReg r v).reg q = p.reg q := by
  have : (r : Nat) ≠ q := fun e => h (Fin.ext e.symm)
  simp [Snapshot.setReg, Snapshot.reg, Vector.get_eq_getElem, this]

/-- Two snapshots with the same registers and the same program counter are equal. -/
theorem Snapshot.ext_reg {p q : Snapshot} (hx : ∀ r, p.reg r = q.reg r) (hpc : p.pc = q.pc) : p = q := by
  obtain ⟨px, ppc⟩ := p
  obtain ⟨qx, qpc⟩ := q
  have hv : px = qx := by
    apply Vector.ext
    intro i hi
    simpa [Snapshot.reg, Vector.get_eq_getElem] using hx ⟨i, hi⟩
  simp_all

@[simp] theorem Snapshot.reset_reg (c : Config) (r : Reg) : (Snapshot.reset c).reg r = 0 := by
  simp [Snapshot.reset, Snapshot.reg, Vector.get_eq_getElem]

@[simp] theorem Snapshot.reset_pc (c : Config) : (Snapshot.reset c).pc = c.textBase := rfl

/-! ## halt -/

@[simp] theorem State.halt_cur (s : State) : s.halt.cur = s.cur := rfl
@[simp] theorem State.halt_nxt (s : State) : s.halt.nxt = s.nxt := rfl
@[simp] theorem State.halt_mem (s : State) : s.halt.mem = s.mem := rfl
@[simp] theorem State.halt_run (s : State) : s.halt.run = false := rfl
@[simp] theorem State.halt_icount (s : State) : s.halt.icount = s.icount := rfl
@[simp] theorem State.halt_decodeMiss (s : State) : s.halt.decodeMiss = s.decodeMiss := rfl
@[simp] theorem State.halt_memMiss (s : State) : s.halt.memMiss = s.memMiss := rfl
@[simp] theorem State.halt_fault (s : State) : s.halt.fault = s.fault := rfl
@[simp] theorem State.halt_cfg (s : State) : s.halt.cfg = s.cfg := rfl

/-! ## clearDiagnostics -/

@[simp] theorem State.clearDiagnostics_cur (s : State) : s.clearDiagnostics.cur = s.cur := rfl
@[simp] theorem State.clearDiagnostics_nxt (s : State) : s.clearDiagnostics.nxt = s.nxt := rfl
@[simp] theorem State.clearDiagnostics_mem (s : State) : s.clearDiagnostics.mem = s.mem := rfl
@[simp] theorem State.clearDiagnostics_run (s : State) : s.clearDiagnostics.run = s.run := rfl
@[simp] theorem State.clearDiagnostics_icount (s : State) : s.clearDiagnostics.icount = s.icount := rfl
@[simp] theorem State.clearDiagnostics_decodeMiss (s : State) : s.clearDiagnostics.decodeMiss = false := rfl
@[simp] theorem State.clearDiagnostics_memMiss (s : State) : s.clearDiagnostics.memMiss = false := rfl
@[simp] theorem State.clearDiagnostics_fault (s : State) : s.clearDiagnostics.fault = s.fault := rfl
@[simp] theorem State.clearDiagnostics_cfg (s : State) : s.clearDiagnostics.cfg = s.cfg := rfl

/-! ## noteDecodeMiss -/

@[simp] theorem State.noteDecodeMiss_cur (s : State) : s.noteDecodeMiss.cur = s.cur := rfl
@[simp] theorem State.noteDecodeMiss_nxt (s : State) : s.noteDecodeMiss.nxt = s.nxt := rfl
@[simp] theorem State.noteDecodeMiss_mem (s : State) : s.noteDecodeMiss.mem = s.mem := rfl
@[simp] theorem State.noteDecodeMiss_run (s : State) : s.noteDecodeMiss.run = s.run := rfl
@[simp] theorem State.noteDecodeMiss_icount (s : State) : s.noteDecodeMiss.icount = s.icount := rfl
@[simp] theorem State.noteDecodeMiss_decodeMiss (s : State) : s.noteDecodeMiss.decodeMiss = true := rfl
@[simp] theorem State.noteDecodeMiss_memMiss (s : State) : s.noteDecodeMiss.memMiss = s.memMiss := rfl
@[simp] theorem State.noteDecodeMiss_fault (s : State) : s.noteDecodeMiss.fault = s.fault := rfl
@[simp] theorem State.noteDecodeMiss_cfg (s : State) : s.noteDecodeMiss.cfg = s.cfg := rfl

/-! ## noteMemMiss -/

@[simp] theorem State.noteMemMiss_cur (s : State) (b : Bool) : (s.noteMemMiss b).cur = s.cur := rfl
@[simp] theorem State.noteMemMiss_nxt (s : State) (b : Bool) : (s.noteMemMiss b).nxt = s.nxt := rfl
@[simp] theorem State.noteMemMiss_mem (s : State) (b : Bool) : (s.noteMemMiss b).mem = s.mem := rfl
@[simp] theorem State.noteMemMiss_run (s : State) (b : Bool) : (s.noteMemMiss b).run = s.run := rfl
@[simp] theorem State.noteMemMiss_icount (s : State) (b : Bool) : (s.noteMemMiss b).icount = s.icount := rfl
@[simp] theorem State.noteMemMiss_decodeMiss (s : State) (b : Bool) : (s.noteMemMiss b).decodeMiss = s.decodeMiss := rfl
@[simp] theorem State.noteMemMiss_memMiss (s : State) (b : Bool) : (s.noteMemMiss b).memMiss = (s.memMiss || b) := rfl
@[simp] theorem State.noteMemMiss_fault (s : State) (b : Bool) : (s.noteMemMiss b).fault = s.fault := rfl
@[simp] theorem State.noteMemMiss_cfg (s : State) (b : Bool) : (s.noteMemMiss b).cfg = s.cfg := rfl

/-! ## setPc -/

@[simp] theorem State.setPc_cur (s : State) (t : Word) : (s.setPc t).cur = s.cur := rfl
@[simp] theorem State.setPc_nxt (s : State) (t : Word) : (s.setPc t).nxt = s.nxt.setPc t := rfl
@[simp] theorem State.setPc_mem (s : State) (t : Word) : (s.setPc t).mem = s.mem := rfl
@[simp] theorem State.setPc_run (s : State) (t : Word) : (s.setPc t).run = s.run := rfl
@[simp] theorem State.setPc_icount (s : State) (t : Word) : (s.setPc t).icount = s.icount := rfl
@[simp] theorem State.setPc_decodeMiss (s : State) (t : Word) : (s.setPc t).decodeMiss = s.decodeMiss := rfl
@[simp] theorem State.setPc_memMiss (s : State) (t : Word) : (s.setPc t).memMiss = s.memMiss := rfl
@[simp] theorem State.setPc_fault (s : State) (t : Word) : (s.setPc t).fault = s.fault := rfl
@[simp] theorem State.setPc_cfg (s : State) (t : Word) : (s.setPc t).cfg = s.cfg := rfl

/-! ## raise -/

@[simp] theorem State.raise_cur (s : State) (f : Fault) : (s.raise f).cur = s.cur := rfl
@[simp] theorem State.raise_nxt (s : State) (f : Fault) : (s.raise f).nxt = s.cur := rfl
@[simp] theorem State.raise_mem (s : State) (f : Fault) : (s.raise f).mem = s.mem := rfl
@[simp] theorem State.raise_run (s : State) (f : Fault) : (s.raise f).run = s.run := rfl
@[simp] theorem State.raise_icount (s : State) (f : Fault) : (s.raise f).icount = s.icount := rfl
@[simp] theorem State.raise_decodeMiss (s : State) (f : Fault) : (s.raise f).decodeMiss = s.decodeMiss := rfl
@[simp] theorem State.raise_memMiss (s : State) (f : Fault) : (s.raise f).memMiss = s.memMiss := rfl
@[simp] theorem State.raise_fault (s : State) (f : Fault) : (s.raise f).fault = some f := rfl
@[simp] theorem State.raise_cfg (s : State) (f : Fault) : (s.raise f).cfg = s.cfg := rfl

/-! ## commit -/

@[simp] theorem State.commit_cur (s : State) : s.commit.cur = s.nxt := rfl
@[simp] theorem State.commit_nxt (s : State) : s.commit.nxt = s.nxt := rfl
@[simp] theorem State.commit_mem (s : State) : s.commit.mem = s.mem := rfl
@[simp] theorem State.commit_run (s : State) : s.commit.run = s.run := rfl
@[simp] theorem State.commit_icount (s : State) : s.commit.icount = s.icount + 1 := rfl
@[simp] theorem State.commit_decodeMiss (s : State) : s.commit.decodeMiss = s.decodeMiss := rfl
@[simp] theorem State.commit_memMiss (s : State) : s.commit.memMiss = s.memMiss := rfl
@[simp] theorem State.commit_fault (s : State) : s.commit.fault = s.fault := rfl
@[simp] theorem State.commit_cfg (s : State) : s.commit.cfg = s.cfg := rfl

/-! ## writeReg: only `nxt` changes -/

@[simp] theorem State.writeReg_cur (s : State) (r : Reg) (v : Word) : (s.writeReg r v).cur = s.cur := by
  unfold State.writeReg; split <;> rfl
@[simp] theorem State.writeReg_mem (s : State) (r : Reg) (v : Word) : (s.writeReg r v).mem = s.mem := by
  unfold State.writeReg; split <;> rfl
@[simp] theorem State.writeReg_run (s : State) (r : Reg) (v : Word) : (s.writeReg r v).run = s.run := by
  unfold State.writeReg; split <;> rfl
@[simp] theorem State.writeReg_icount (s : State) (r : Reg) (v : Word) : (s.writeReg r v).icount = s.icount := by
  unfold State.writeReg; split <;> rfl
@[simp] theorem State.writeReg_decodeMiss (s : State) (r : Reg) (v : Word) : (s.writeReg r v).decodeMiss = s.decodeMiss := by
  unfold State.writeReg; split <;> rfl
@[simp] theorem State.writeReg_memMiss (s : State) (r : Reg) (v : Word) : (s.writeReg r v).memMiss = s.memMiss := by
  unfold State.writeReg; split <;> rfl
@[simp] theorem State.writeReg_fault (s : State) (r : Reg) (v : Word) : (s.writeReg r v).fault = s.fault := by
  unfold State.writeReg; split <;> rfl
@[simp] theorem State.writeReg_cfg (s : State) (r : Reg) (v : Word) : (s.writeReg r v).cfg = s.cfg := by
  unfold State.writeReg; split <;> rfl

/-! ## writeByte: only `mem` changes -/

@[simp] theorem State.writeByte_cur (s : State) (a : Word) (b : Byte) : (s.writeByte a b).cur = s.cur := by
  unfold State.writeByte; split <;> rfl
@[simp] theorem State.writeByte_nxt (s : State) (a : Word) (b : Byte) : (s.writeByte a b).nxt = s.nxt := by
  unfold State.writeByte; split <;> rfl
@[simp] theorem State.writeByte_run (s : State) (a : Word) (b : Byte) : (s.writeByte a b).run = s.run := by
  unfold State.writeByte; split <;> rfl
@[simp] theorem State.writeByte_icount (s : State) (a : Word) (b : Byte) : (s.writeByte a b).icount = s.icount := by
  unfold State.writeByte; split <;> rfl
@[simp] theorem State.writeByte_decodeMiss (s : State) (a : Word) (b : Byte) : (s.writeByte a b).decodeMiss = s.decodeMiss := by
  unfold State.writeByte; split <;> rfl
@[simp] theorem State.writeByte_memMiss (s : State) (a : Word) (b : Byte) : (s.writeByte a b).memMiss = s.memMiss := by
  unfold State.writeByte; split <;> rfl
@[simp] theorem State.writeByte_fault (s : State) (a : Word) (b : Byte) : (s.writeByte a b).fault = s.fault := by
  unfold State.writeByte; split <;> rfl
@[simp] theorem State.writeByte_cfg (s : State) (a : Word) (b : Byte) : (s.writeByte a b).cfg = s.cfg := by
  unfold State.writeByte; split <;> rfl

@[simp] theorem State.writeReg_nxt_pc (s : State) (r : Reg) (v : Word) : (s.writeReg r v).nxt.pc = s.nxt.pc := by
  unfold State.writeReg; split <;> rfl

/-! ## memWrite8: only `mem` changes -/

@[simp] theorem State.memWrite8_cur (s : State) (a v : Word) : (s.memWrite8 a v).cur = s.cur := by
  simp [State.memWrite8]
@[simp] theorem State.memWrite8_nxt (s : State) (a v : Word) : (s.memWrite8 a v).nxt = s.nxt := by
  simp [State.memWrite8]
@[simp] theorem State.memWrite8_run (s : State) (a v : Word) : (s.memWrite8 a v).run = s.run := by
  simp [State.memWrite8]
@[simp] theorem State.memWrite8_icount (s : State) (a v : Word) : (s.memWrite8 a v).icount = s.icount := by
  simp [State.memWrite8]
@[simp] theorem State.memWrite8_decodeMiss (s : State) (a v : Word) : (s.memWrite8 a v).decodeMiss = s.decodeMiss := by
  simp [State.memWrite8]
@[simp] theorem State.memWrite8_memMiss (s : State) (a v : Word) : (s.memWrite8 a v).memMiss = s.memMiss := by
  simp [State.memWrite8]
@[simp] theorem State.memWrite8_fault (s : State) (a v : Word) : (s.memWrite8 a v).fault = s.fault := by
  simp [State.memWrite8]
@[simp] theorem State.memWrite8_cfg (s : State) (a v : Word) : (s.memWrite8 a v).cfg = s.cfg := by
  simp [State.memWrite8]

/-! ## memWrite16: only `mem` changes -/

@[simp] theorem State.memWrite16_cur (s : State) (a v : Word) : (s.memWrite16 a v).cur = s.cur := by
  simp [State.memWrite16]
@[simp] theorem State.memWrite16_nxt (s : State) (a v : Word) : (s.memWrite16 a v).nxt = s.nxt := by
  simp [State.memWrite16]
@[simp] theorem State.memWrite16_run (s : State) (a v : Word) : (s.memWrite16 a v).run = s.run := by
  simp [State.memWrite16]
@[simp] theorem State.memWrite16_icount (s : State) (a v : Word) : (s.memWrite16 a v).icount = s.icount := by
  simp [State.memWrite16]
@[simp] theorem State.memWrite16_decodeMiss (s : State) (a v : Word) : (s.memWrite16 a v).decodeMiss = s.decodeMiss := by
  simp [State.memWrite16]
@[simp] theorem State.memWrite16_memMiss (s : State) (a v : Word) : (s.memWrite16 a v).memMiss = s.memMiss := by
  simp [State.memWrite16]
@[simp] theorem State.memWrite16_fault (s : State) (a v : Word) : (s.memWrite16 a v).fault = s.fault := by
  simp [State.memWrite16]
@[simp] theorem State.memWrite16_cfg (s : State) (a v : Word) : (s.memWrite16 a v).cfg = s.cfg := by
  simp [State.memWrite16]

/-! ## memWrite32: only `mem` changes -/

@[simp] theorem State.memWrite32_cur (s : State) (a v : Word) : (s.memWrite32 a v).cur = s.cur := by
  simp [State.memWrite32]
@[simp] theorem State.memWrite32_nxt (s : State) (a v : Word) : (s.memWrite32 a v).nxt = s.nxt := by
  simp [State.memWrite32]
@[simp] theorem State.memWrite32_run (s : State) (a v : Word) : (s.memWrite32 a v).run = s.run := by
  simp [State.memWrite32]
@[simp] theorem State.memWrite32_icount (s : State) (a v : Word) : (s.memWrite32 a v).icount = s.icount := by
  simp [State.memWrite32]
@[simp] theorem State.memWrite32_decodeMiss (s : State) (a v : Word) : (s.memWrite32 a v).decodeMiss = s.decodeMiss := by
  simp [State.memWrite32]
@[simp] theorem State.memWrite32_memMiss (s : State) (a v : Word) : (s.memWrite32 a v).memMiss = s.memMiss := by
  simp [State.memWrite32]
@[simp] theorem State.memWrite32_fault (s : State) (a v : Word) : (s.memWrite32 a v).fault = s.fault := by
  simp [State.memWrite32]
@[simp] theorem State.memWrite32_cfg (s : State) (a v : Word) : (s.memWrite32 a v).cfg = s.cfg := by
  simp [State.memWrite32]

/-! ## loadWords: only `mem` changes -/

@[simp] theorem State.loadWords_cur (ws : List Word) : ∀ (s : State) (a : Word), (s.loadWords a ws).cur = s.cur := by
  induction ws with
  | nil => intro s a; rfl
  | cons w ws ih => intro s a; simp [State.loadWords, ih]
@[simp] theorem State.loadWords_nxt (ws : List Word) : ∀ (s : State) (a : Word), (s.loadWords a ws).nxt = s.nxt := by
  induction ws with
  | nil => intro s a; rfl
  | cons w ws ih => intro s a; simp [State.loadWords, ih]
@[simp] theorem State.loadWords_run (ws : List Word) : ∀ (s : State) (a : Word), (s.loadWords a ws).run = s.run := by
  induction ws with
  | nil => intro s a; rfl
  | cons w ws ih => intro s a; simp [State.loadWords, ih]
@[simp] theorem State.loadWords_icount (ws : List Word) : ∀ (s : State) (a : Word), (s.loadWords a ws).icount = s.icount := by
  induction ws with
  | nil => intro s a; rfl
  | cons w ws ih => intro s a; simp [State.loadWords, ih]
@[simp] theorem State.loadWords_decodeMiss (ws : List Word) : ∀ (s : State) (a : Word), (s.loadWords a ws).decodeMiss = s.decodeMiss := by
  induction ws with
  | nil => intro s a; rfl
  | cons w ws ih => intro s a; simp [State.loadWords, ih]
@[simp] theorem State.loadWords_memMiss (ws : List Word) : ∀ (s : State) (a : Word), (s.loadWords a ws).memMiss = s.memMiss := by
  induction ws with
  | nil => intro s a; rfl
  | cons w ws ih => intro s a; simp [State.loadWords, ih]
@[simp] theorem State.loadWords_fault (ws : List Word) : ∀ (s : State) (a : Word), (s.loadWords a ws).fault = s.fault := by
  induction ws with
  | nil => intro s a; rfl
  | cons w ws ih => intro s a; simp [State.loadWords, ih]
@[simp] theorem State.loadWords_cfg (ws : List Word) : ∀ (s : State) (a : Word), (s.loadWords a ws).cfg = s.cfg := by
  induction ws with
  | nil => intro s a; rfl
  | cons w ws ih => intro s a; simp [State.loadWords, ih]

/-! ## begun: what a step hands to execute -/

@[simp] theorem State.begun_cur (s : State) : s.begun.cur = s.cur := rfl
@[simp] theorem State.begun_nxt (s : State) : s.begun.nxt = s.nxt.setPc (s.cur.pc + 4#32) := rfl
@[simp] theorem State.begun_mem (s : State) : s.begun.mem = s.mem := rfl
@[simp] theorem State.begun_run (s : State) : s.begun.run = s.run := rfl
@[simp] theorem State.begun_icount (s : State) : s.begun.icount = s.icount := rfl
@[simp] theorem State.begun_decodeMiss (s : State) : s.begun.decodeMiss = false := rfl
@[simp] theorem State.begun_memMiss (s : State) : s.begun.memMiss = touchesUnmapped s.cfg .word s.cur.pc := by simp [State.begun]
@[simp] theorem State.begun_fault (s : State) : s.begun.fault = s.fault := rfl
@[simp] theorem State.begun_cfg (s : State) : s.begun.cfg = s.cfg := rfl

/-! ## cleared: the state RESET establishes before the image -/

@[simp] theorem State.cleared_cur (c : Config) : (State.cleared c).cur = Snapshot.reset c := rfl
@[simp] theorem State.cleared_nxt (c : Config) : (State.cleared c).nxt = Snapshot.reset c := rfl
@[simp] theorem State.cleared_mem (c : Config) : (State.cleared c).mem = [] := rfl
@[simp] theorem State.cleared_run (c : Config) : (State.cleared c).run = true := rfl
@[simp] theorem State.cleared_icount (c : Config) : (State.cleared c).icount = 0 := rfl
@[simp] theorem State.cleared_decodeMiss (c : Config) : (State.cleared c).decodeMiss = false := rfl
@[simp] theorem State.cleared_memMiss (c : Config) : (State.cleared c).memMiss = false := rfl
@[simp] theorem State.cleared_fault (c : Config) : (State.cleared c).fault = none := rfl
@[simp] theorem State.cleared_cfg (c : Config) : (State.cleared c).cfg = c := rfl

/-! ## Two states with equal fields are equal -/

theorem State.ext_fields {s t : State} (hcur : s.cur = t.cur) (hnxt : s.nxt = t.nxt) (hmem : s.mem = t.mem)
    (hrun : s.run = t.run) (hicount : s.icount = t.icount) (hdm : s.decodeMiss = t.decodeMiss)
    (hmm : s.memMiss = t.memMiss) (hfault : s.fault = t.fault) (hcfg : s.cfg = t.cfg) : s = t := by
  cases s; cases t; simp_all

end Sys2Proof.Machine
end

