-- ==== Sys2Proof/Laws/Memory.lean ====
section
/-! SUPPORT. Memory as a canonical list: read after write, the canonical form kept, and equality of
canonical memories; then the byte primitives and the three access widths over them. -/

namespace Sys2Proof.Machine

/-! ## The list -/

@[simp] theorem Memory.read_nil (a : Nat) : Memory.read [] a = 0#8 := rfl

/-- Below every listed address nothing is listed. -/
theorem Memory.read_below (m : Memory) (a : Nat) (h : ∀ c ∈ m, a < c.1) : m.read a = 0#8 := by
  induction m with
  | nil => rfl
  | cons c m ih =>
    have h0 := h c (by simp)
    obtain ⟨k, b⟩ := c
    have : ¬ k = a := by simp only at h0; omega
    simp only [Memory.read, this, if_false]
    exact ih fun d hd => h d (by simp [hd])

/-- A byte that is not 0x00 is listed. -/
theorem Memory.mem_of_read_ne (m : Memory) (a : Nat) (h : m.read a ≠ 0#8) : (a, m.read a) ∈ m := by
  induction m with
  | nil => simp at h
  | cons c m ih =>
    obtain ⟨k, b⟩ := c
    by_cases hk : k = a
    · subst hk; simp [Memory.read]
    · simp only [Memory.read, hk, if_false] at h ⊢
      exact List.mem_cons_of_mem _ (ih h)

/-- A listed byte is what its address reads as. -/
theorem Memory.read_of_mem {m : Memory} (hw : m.wf) {a : Nat} {b : Byte} (h : (a, b) ∈ m) :
    m.read a = b := by
  induction m with
  | nil => simp at h
  | cons c m ih =>
    obtain ⟨k, d⟩ := c
    obtain ⟨hp, hz⟩ := hw
    rw [List.pairwise_cons] at hp
    rcases List.mem_cons.1 h with he | he
    · obtain ⟨rfl, rfl⟩ := Prod.mk.inj he; simp [Memory.read]
    · have : ¬ k = a := fun e => by have := hp.1 _ he; simp only at this; omega
      simp only [Memory.read, this, if_false]
      exact ih ⟨hp.2, fun c hc => hz c (by simp [hc])⟩ he

/-- Whatever a write leaves listed was listed before or is the byte written. -/
theorem Memory.mem_write (m : Memory) (a : Nat) (b : Byte) (c : Host.Cell) (h : c ∈ m.write a b) :
    c ∈ m ∨ (c = (a, b) ∧ b ≠ 0#8) := by
  induction m with
  | nil =>
    by_cases hb : b = 0#8
    · simp [Memory.write, hb] at h
    · simp only [Memory.write, hb, if_false, List.mem_singleton] at h
      exact .inr ⟨h, hb⟩
  | cons d m ih =>
    obtain ⟨k, e⟩ := d
    unfold Memory.write at h
    split at h
    · split at h
      · exact .inl h
      · rename_i hb
        rcases List.mem_cons.1 h with h | h
        · exact .inr ⟨h, hb⟩
        · exact .inl h
    · split at h
      · split at h
        · exact .inl (List.mem_cons_of_mem _ h)
        · rename_i hb
          rcases List.mem_cons.1 h with h | h
          · exact .inr ⟨h, hb⟩
          · exact .inl (List.mem_cons_of_mem _ h)
      · rcases List.mem_cons.1 h with h | h
        · exact .inl (h ▸ List.mem_cons_self)
        · exact (ih h).imp_left (List.mem_cons_of_mem _)

/-- A write keeps the canonical form. -/
theorem Memory.wf_write {m : Memory} (hw : m.wf) (a : Nat) (b : Byte) : (m.write a b).wf := by
  induction m with
  | nil => by_cases hb : b = 0#8 <;> simp [Memory.write, Memory.wf, hb]
  | cons c m ih =>
    obtain ⟨k, d⟩ := c
    obtain ⟨hp, hz⟩ := hw
    rw [List.pairwise_cons] at hp
    have hm : Memory.wf m := ⟨hp.2, fun c hc => hz c (by simp [hc])⟩
    have hd : d ≠ 0#8 := hz (k, d) (by simp)
    have ihm := ih hm
    have up : ∀ c ∈ Memory.write m a b, ¬ a < k → a ≠ k → k < c.1 := by
      intro c hc h1 h2
      rcases Memory.mem_write m a b c hc with h | ⟨rfl, -⟩
      · exact hp.1 c h
      · simp only; omega
    unfold Memory.write
    split
    · split
      · exact ⟨List.pairwise_cons.2 hp, hz⟩
      · refine ⟨List.pairwise_cons.2 ⟨?_, List.pairwise_cons.2 hp⟩, ?_⟩
        · intro c hc
          rcases List.mem_cons.1 hc with rfl | hc
          · assumption
          · have := hp.1 c hc; simp only at this ⊢; omega
        · intro c hc
          rcases List.mem_cons.1 hc with rfl | hc
          · assumption
          · exact hz c hc
    · split
      · split
        · exact hm
        · rename_i h2 h3
          subst h2
          refine ⟨List.pairwise_cons.2 ⟨hp.1, hp.2⟩, ?_⟩
          intro c hc
          rcases List.mem_cons.1 hc with rfl | hc
          · assumption
          · exact hz c (by simp [hc])
      · rename_i h1 h2
        refine ⟨List.pairwise_cons.2 ⟨fun c hc => up c hc h1 h2, ihm.1⟩, ?_⟩
        intro c hc
        rcases List.mem_cons.1 hc with rfl | hc
        · exact hd
        · exact ihm.2 c hc

/-- Reading where a write went gives the byte written. -/
theorem Memory.read_write_self {m : Memory} (hw : m.wf) (a : Nat) (b : Byte) :
    (m.write a b).read a = b := by
  induction m with
  | nil => by_cases hb : b = 0#8 <;> simp [Memory.write, Memory.read, hb]
  | cons c m ih =>
    obtain ⟨k, d⟩ := c
    obtain ⟨hp, hz⟩ := hw
    rw [List.pairwise_cons] at hp
    have hm : Memory.wf m := ⟨hp.2, fun c hc => hz c (by simp [hc])⟩
    unfold Memory.write
    split
    · rename_i h1
      split
      · rename_i hb
        have : ¬ k = a := by omega
        subst hb
        simp only [Memory.read, this, if_false]
        exact Memory.read_below m a fun c hc => by have := hp.1 c hc; simp only at this; omega
      · simp [Memory.read]
    · split
      · rename_i h1 h2
        split
        · rename_i hb
          subst h2 hb
          exact Memory.read_below m a fun c hc => by simpa using hp.1 c hc
        · simp [Memory.read]
      · rename_i h1 h2
        have : ¬ k = a := fun e => h2 e.symm
        simp only [Memory.read, this, if_false]
        exact ih hm

/-- Reading anywhere else gives what was there. -/
theorem Memory.read_write_of_ne {m : Memory} {a c : Nat} (b : Byte) (h : c ≠ a) :
    (m.write a b).read c = m.read c := by
  have h' : ¬ a = c := fun e => h e.symm
  induction m with
  | nil => by_cases hb : b = 0#8 <;> simp [Memory.write, Memory.read, hb, h']
  | cons d m ih =>
    obtain ⟨k, e⟩ := d
    unfold Memory.write
    split
    · split
      · rfl
      · simp [Memory.read, h']
    · split
      · rename_i h1 h2
        subst h2
        split <;> simp [Memory.read, h']
      · simp [Memory.read, ih]

/-- Canonical memories that read alike everywhere are equal. -/
theorem Memory.eq_of_read {m n : Memory} (hm : m.wf) (hn : n.wf) (h : ∀ a, m.read a = n.read a) :
    m = n := by
  have mem_iff : ∀ c, c ∈ m ↔ c ∈ n := by
    rintro ⟨a, b⟩
    constructor <;> intro hc
    · have hb := hm.2 _ hc
      have := Memory.read_of_mem hm hc
      have hr : n.read a ≠ 0#8 := by rw [← h a, this]; exact hb
      have := Memory.mem_of_read_ne n a hr
      rwa [← h a, Memory.read_of_mem hm hc] at this
    · have hb := hn.2 _ hc
      have := Memory.read_of_mem hn hc
      have hr : m.read a ≠ 0#8 := by rw [h a, this]; exact hb
      have := Memory.mem_of_read_ne m a hr
      rwa [h a, Memory.read_of_mem hn hc] at this
  have nodup : ∀ {l : Memory}, l.wf → l.Nodup := fun {l} hl =>
    hl.1.imp fun {c d} hcd e => by subst e; exact lt_irrefl _ hcd
  have perm : m.Perm n := (List.perm_ext_iff_of_nodup (nodup hm) (nodup hn)).2 mem_iff
  refine List.Perm.eq_of_pairwise (le := fun c d : Host.Cell => c.1 < d.1) ?_ hm.1 hn.1 perm
  intro c d _ _ hcd hdc
  omega

/-! ## Byte primitives (R65, R66) -/

/-- An unmapped byte reads as 0x00 (R65). -/
theorem State.readByte_unmapped {s : State} {a : Word} (h : mapped s.cfg a = false) : s.readByte a = 0#8 := by
  simp [State.readByte, h]

/-- A write to an unmapped byte changes nothing (R66). -/
theorem State.writeByte_unmapped {s : State} {a : Word} (b : Byte) (h : mapped s.cfg a = false) :
    s.writeByte a b = s := by
  simp [State.writeByte, h]

theorem State.writeByte_mem_wf {s : State} (h : s.mem.wf) (a : Word) (b : Byte) :
    (s.writeByte a b).mem.wf := by
  unfold State.writeByte
  split
  · exact Memory.wf_write h _ _
  · exact h

/-- A mapped byte reads back as it was written (R65, R66). -/
theorem State.readByte_writeByte_self {s : State} {a : Word} (b : Byte) (hw : s.mem.wf)
    (h : mapped s.cfg a = true) : (s.writeByte a b).readByte a = b := by
  simp [State.readByte, State.writeByte, h, Memory.read_write_self hw]

/-- A write leaves every other byte as it was (R66). -/
theorem State.readByte_writeByte_of_ne {s : State} {a c : Word} (b : Byte) (h : c ≠ a) :
    (s.writeByte a b).readByte c = s.readByte c := by
  have : c.toNat ≠ a.toNat := fun e => h (BitVec.eq_of_toNat_eq e)
  unfold State.readByte State.writeByte
  split <;> simp [Memory.read_write_of_ne b this]

/-- What is listed after a byte is written was listed before, or is a mapped byte. -/
theorem State.writeByte_mem_inRegions {s : State} (a : Word) (b : Byte)
    (h : ∀ c ∈ s.mem, c.1 < 2 ^ 32 ∧ mapped s.cfg (BitVec.ofNat 32 c.1) = true) :
    ∀ c ∈ (s.writeByte a b).mem, c.1 < 2 ^ 32 ∧ mapped s.cfg (BitVec.ofNat 32 c.1) = true := by
  unfold State.writeByte
  split
  · rename_i hm
    intro c hc
    rcases Memory.mem_write s.mem a.toNat b c hc with h' | ⟨rfl, -⟩
    · exact h c h'
    · exact ⟨a.isLt, by simpa using hm⟩
  · exact h

/-- Reading depends on memory and the regions alone. -/
theorem State.readByte_congr {s t : State} (hm : s.mem = t.mem) (hc : s.cfg = t.cfg) (a : Word) :
    s.readByte a = t.readByte a := by
  simp [State.readByte, hm, hc]

theorem State.memRead8_congr {s t : State} (hm : s.mem = t.mem) (hc : s.cfg = t.cfg) (a : Word) :
    s.memRead8 a = t.memRead8 a := State.readByte_congr hm hc a

theorem State.memRead16_congr {s t : State} (hm : s.mem = t.mem) (hc : s.cfg = t.cfg) (a : Word) :
    s.memRead16 a = t.memRead16 a := by
  simp [State.memRead16, State.readByte_congr hm hc]

theorem State.memRead32_congr {s t : State} (hm : s.mem = t.mem) (hc : s.cfg = t.cfg) (a : Word) :
    s.memRead32 a = t.memRead32 a := by
  simp [State.memRead32, State.readByte_congr hm hc]

/-! ## The three widths: canonical form and the bytes left alone (R68) -/

theorem State.memWrite8_mem_wf {s : State} (h : s.mem.wf) (a v : Word) : (s.memWrite8 a v).mem.wf :=
  State.writeByte_mem_wf h _ _

theorem State.memWrite16_mem_wf {s : State} (h : s.mem.wf) (a v : Word) : (s.memWrite16 a v).mem.wf :=
  State.writeByte_mem_wf (State.writeByte_mem_wf h _ _) _ _

theorem State.memWrite32_mem_wf {s : State} (h : s.mem.wf) (a v : Word) : (s.memWrite32 a v).mem.wf :=
  State.writeByte_mem_wf (State.writeByte_mem_wf (State.writeByte_mem_wf
    (State.writeByte_mem_wf h _ _) _ _) _ _) _ _

theorem State.loadWords_mem_wf (ws : List Word) :
    ∀ {s : State} (_ : s.mem.wf) (a : Word), (s.loadWords a ws).mem.wf := by
  induction ws with
  | nil => intro s h a; exact h
  | cons w ws ih => intro s h a; exact ih (State.memWrite32_mem_wf h _ _) _

theorem State.memWrite8_mem_inRegions {s : State} (a v : Word)
    (h : ∀ c ∈ s.mem, c.1 < 2 ^ 32 ∧ mapped s.cfg (BitVec.ofNat 32 c.1) = true) :
    ∀ c ∈ (s.memWrite8 a v).mem, c.1 < 2 ^ 32 ∧ mapped s.cfg (BitVec.ofNat 32 c.1) = true :=
  State.writeByte_mem_inRegions _ _ h

theorem State.memWrite16_mem_inRegions {s : State} (a v : Word)
    (h : ∀ c ∈ s.mem, c.1 < 2 ^ 32 ∧ mapped s.cfg (BitVec.ofNat 32 c.1) = true) :
    ∀ c ∈ (s.memWrite16 a v).mem, c.1 < 2 ^ 32 ∧ mapped s.cfg (BitVec.ofNat 32 c.1) = true := by
  have h1 := State.writeByte_mem_inRegions a (v.extractLsb' 0 8) h
  have h2 := State.writeByte_mem_inRegions (s := s.writeByte a (v.extractLsb' 0 8)) (a + 1#32)
    (v.extractLsb' 8 8) (by simpa using h1)
  simpa [State.memWrite16] using h2

theorem State.memWrite32_mem_inRegions {s : State} (a v : Word)
    (h : ∀ c ∈ s.mem, c.1 < 2 ^ 32 ∧ mapped s.cfg (BitVec.ofNat 32 c.1) = true) :
    ∀ c ∈ (s.memWrite32 a v).mem, c.1 < 2 ^ 32 ∧ mapped s.cfg (BitVec.ofNat 32 c.1) = true := by
  have step : ∀ (t : State) (x : Word) (b : Byte), t.cfg = s.cfg →
      (∀ c ∈ t.mem, c.1 < 2 ^ 32 ∧ mapped s.cfg (BitVec.ofNat 32 c.1) = true) →
      ∀ c ∈ (t.writeByte x b).mem, c.1 < 2 ^ 32 ∧ mapped s.cfg (BitVec.ofNat 32 c.1) = true := by
    intro t x b hc ht
    rw [← hc] at ht ⊢
    exact State.writeByte_mem_inRegions x b ht
  exact step _ _ _ (by simp) (step _ _ _ (by simp) (step _ _ _ (by simp) (step _ _ _ rfl h)))

theorem State.loadWords_mem_inRegions (ws : List Word) : ∀ {s : State} (a : Word)
    (_ : ∀ c ∈ s.mem, c.1 < 2 ^ 32 ∧ mapped s.cfg (BitVec.ofNat 32 c.1) = true),
    ∀ c ∈ (s.loadWords a ws).mem, c.1 < 2 ^ 32 ∧ mapped s.cfg (BitVec.ofNat 32 c.1) = true := by
  induction ws with
  | nil => intro s a h; exact h
  | cons w ws ih =>
    intro s a h
    have h1 := State.memWrite32_mem_inRegions a w h
    have := ih (s := s.memWrite32 a w) (a + 4#32) (by simpa using h1)
    simpa [State.loadWords] using this

/-- A byte store leaves every other byte as it was. -/
theorem State.readByte_memWrite8_of_ne {s : State} {a c : Word} (v : Word) (h : c ≠ a) :
    (s.memWrite8 a v).readByte c = s.readByte c := State.readByte_writeByte_of_ne _ h

/-- A half-word store leaves every byte but its two as it was. -/
theorem State.readByte_memWrite16_of_ne {s : State} {a c : Word} (v : Word) (h0 : c ≠ a)
    (h1 : c ≠ a + 1#32) : (s.memWrite16 a v).readByte c = s.readByte c := by
  rw [State.memWrite16, State.readByte_writeByte_of_ne _ h1, State.readByte_writeByte_of_ne _ h0]

/-- A word store leaves every byte but its four as it was. -/
theorem State.readByte_memWrite32_of_ne {s : State} {a c : Word} (v : Word) (h0 : c ≠ a)
    (h1 : c ≠ a + 1#32) (h2 : c ≠ a + 2#32) (h3 : c ≠ a + 3#32) :
    (s.memWrite32 a v).readByte c = s.readByte c := by
  rw [State.memWrite32, State.readByte_writeByte_of_ne _ h3, State.readByte_writeByte_of_ne _ h2,
    State.readByte_writeByte_of_ne _ h1, State.readByte_writeByte_of_ne _ h0]

/-- The bytes of a word are told apart by their offsets. -/
theorem add_ofNat_ne (a : Word) {i j : Nat} (hi : i < 4) (hj : j < 4) (h : i ≠ j) :
    a + BitVec.ofNat 32 i ≠ a + BitVec.ofNat 32 j := by
  intro e
  have e' : BitVec.ofNat 32 i = BitVec.ofNat 32 j := by simpa using e
  have := congrArg BitVec.toNat e'
  simp only [BitVec.toNat_ofNat] at this
  omega

/-- Byte `k` of a word store, where it is mapped (R68). -/
theorem State.readByte_memWrite32 {s : State} (hw : s.mem.wf) (a v : Word) {k : Nat} (hk : k < 4)
    (hm : mapped s.cfg (a + BitVec.ofNat 32 k) = true) :
    (s.memWrite32 a v).readByte (a + BitVec.ofNat 32 k) = v.extractLsb' (8 * k) 8 := by
  have w0 := State.writeByte_mem_wf hw a (v.extractLsb' 0 8)
  have w1 := State.writeByte_mem_wf w0 (a + 1#32) (v.extractLsb' 8 8)
  have w2 := State.writeByte_mem_wf w1 (a + 2#32) (v.extractLsb' 16 8)
  have n : ∀ i j : Nat, i < 4 → j < 4 → i ≠ j → a + BitVec.ofNat 32 i ≠ a + BitVec.ofNat 32 j :=
    fun i j => add_ofNat_ne a
  have z : a = a + BitVec.ofNat 32 0 := by simp
  unfold State.memWrite32
  match k, hk with
  | 0, _ =>
    rw [State.readByte_writeByte_of_ne _ (n 0 3 (by omega) (by omega) (by omega)),
      State.readByte_writeByte_of_ne _ (n 0 2 (by omega) (by omega) (by omega)),
      State.readByte_writeByte_of_ne _ (n 0 1 (by omega) (by omega) (by omega))]
    rw [← z] at hm ⊢
    exact State.readByte_writeByte_self _ hw hm
  | 1, _ =>
    rw [State.readByte_writeByte_of_ne _ (n 1 3 (by omega) (by omega) (by omega)),
      State.readByte_writeByte_of_ne _ (n 1 2 (by omega) (by omega) (by omega))]
    exact State.readByte_writeByte_self _ w0 (by simpa using hm)
  | 2, _ =>
    rw [State.readByte_writeByte_of_ne _ (n 2 3 (by omega) (by omega) (by omega))]
    exact State.readByte_writeByte_self _ w1 (by simpa using hm)
  | 3, _ => exact State.readByte_writeByte_self _ w2 (by simpa using hm)

end Sys2Proof.Machine
end

