-- ==== Sys2Proof/Laws/Ops.lean ====
section
/-! SUPPORT. What each shared operation over registers, regions and accesses can do, said once. -/

namespace Sys2Proof.Machine

/-! ## Registers -/

theorem State.writeReg_hardwired {s : State} {r : Reg} (v : Word) (h : s.hardwired r = true) :
    s.writeReg r v = s := by simp [State.writeReg, h]

theorem State.writeReg_nxt {s : State} {r : Reg} (v : Word) (h : s.hardwired r = false) :
    (s.writeReg r v).nxt = s.nxt.setReg r v := by simp [State.writeReg, h]

theorem State.writeReg_reg_self {s : State} {r : Reg} (v : Word) (h : s.hardwired r = false) :
    (s.writeReg r v).nxt.reg r = v := by simp [State.writeReg_nxt v h]

theorem State.writeReg_reg_of_ne {s : State} {r q : Reg} (v : Word) (h : q ≠ r) :
    (s.writeReg r v).nxt.reg q = s.nxt.reg q := by
  unfold State.writeReg
  split
  · rfl
  · exact Snapshot.setReg_reg_of_ne _ _ h

/-- A hardwired x0 keeps what it held, whatever is written. -/
theorem State.writeReg_reg_zero {s : State} (r : Reg) (v : Word) (h : s.cfg.x0Hardwired = true) :
    (s.writeReg r v).nxt.reg 0 = s.nxt.reg 0 := by
  by_cases hr : (0 : Reg) = r
  · subst hr; rw [State.writeReg_hardwired v (by simp [State.hardwired, h])]
  · exact State.writeReg_reg_of_ne v hr

/-- Operands depend on the current snapshot and the configuration alone (R155). -/
theorem State.readReg_congr {s t : State} (hc : s.cur = t.cur) (hg : s.cfg = t.cfg) (r : Reg) :
    s.readReg r = t.readReg r := by simp [State.readReg, State.hardwired, hc, hg]

@[simp] theorem State.noteMemMiss_false (s : State) : s.noteMemMiss false = s := by
  simp [State.noteMemMiss]

/-! ## Regions and accesses -/

theorem regionContains_iff (r : Region) (a : Word) : regionContains r a = true ↔ r.base ≤ a ∧ a ≤ r.last := by
  simp [regionContains]

theorem mapped_eq_false {c : Config} {a : Word} (h : ∀ r ∈ c.regions, ¬ (r.base ≤ a ∧ a ≤ r.last)) :
    mapped c a = false := by
  rw [mapped, List.any_eq_false]
  intro r hr
  rw [regionContains_iff]
  exact h r hr

theorem mem_accessBytes {w : Width} {a x : Word} :
    x ∈ accessBytes w a ↔ ∃ k, k < w.bytes ∧ a + BitVec.ofNat 32 k = x := by
  simp [accessBytes]

/-- Where an access misses nothing, each of its bytes is mapped. -/
theorem mapped_of_no_miss {c : Config} {w : Width} {a : Word} (h : touchesUnmapped c w a = false) {k : Nat}
    (hk : k < w.bytes) : mapped c (a + BitVec.ofNat 32 k) = true := by
  rw [touchesUnmapped, List.any_eq_false] at h
  simpa using h _ (mem_accessBytes.2 ⟨k, hk, rfl⟩)

theorem accessFault_none {c : Config} (hs : c.straddle = .perByte) (hm : c.memMiss = .silent) (w : Width)
    (a : Word) : accessFault c w a = none := by simp [accessFault, hs, hm]

/-- An access faults under a fault policy only, and the straddle comes before the miss (R505). -/
theorem accessFault_some {c : Config} {w : Width} {a : Word} {f : Fault} (h : accessFault c w a = some f) :
    (f = .straddle a w ∧ c.straddle = .fault ∧ straddles c w a = true) ∨
    (f = .memMiss a w ∧ c.memMiss = .fault ∧ touchesUnmapped c w a = true) := by
  unfold accessFault at h
  split at h
  · exact .inl ⟨(Option.some.inj h).symm, by assumption⟩
  · split at h
    · exact .inr ⟨(Option.some.inj h).symm, by assumption⟩
    · simp at h

theorem State.access_none {s : State} {w : Width} {a : Word} (act : State → State)
    (h : accessFault s.cfg w a = none) :
    s.access w a act = act (s.noteMemMiss (touchesUnmapped s.cfg w a)) := by simp [State.access, h]

theorem State.access_some {s : State} {w : Width} {a : Word} {f : Fault} (act : State → State)
    (h : accessFault s.cfg w a = some f) : s.access w a act = s.raise f := by simp [State.access, h]

/-! ## The commit -/

theorem State.commitUnlessFaulted_none {s : State} (h : s.fault = none) : s.commitUnlessFaulted = s.commit := by
  simp [State.commitUnlessFaulted, h]

theorem State.commitUnlessFaulted_some {s : State} {f : Fault} (h : s.fault = some f) :
    s.commitUnlessFaulted = s := by simp [State.commitUnlessFaulted, h]

theorem State.mayStep_iff (s : State) : s.mayStep = true ↔ s.run = true ∧ s.fault = none := by
  simp [State.mayStep]

end Sys2Proof.Machine
end

