-- ==== Sys2Proof/Laws/Exec.lean ====
section
/-! SUPPORT. What executing an instruction can do, said once: the frames of the state updates the
meanings are made of, and the case analysis of `exec` over them. -/

namespace Sys2Proof.Machine

/-! ## Frames of the updates -/

theorem writesOnly_load (s : State) (rd : Reg) (v : Word) (missed : Bool) :
    WritesOnly s ((s.noteMemMiss missed).writeReg rd v) rd v missed where
  result h := State.writeReg_reg_self v (by simpa [State.hardwired] using h)
  discarded h := by rw [State.writeReg_hardwired v (by simpa [State.hardwired] using h)]; rfl
  others r h := State.writeReg_reg_of_ne v h
  nextPc := by simp
  cur := by simp
  mem := by simp
  run := by simp
  icount := by simp
  decodeMiss := by simp
  memMiss := by simp
  fault := by simp
  cfg := by simp

theorem writesOnly_writeReg (s : State) (rd : Reg) (v : Word) : WritesOnly s (s.writeReg rd v) rd v false := by
  simpa using writesOnly_load s rd v false

theorem linksAndJumps_update (s : State) (rd : Reg) (v pc : Word) :
    LinksAndJumps s ((s.writeReg rd v).setPc pc) rd v pc where
  result h := by simpa using State.writeReg_reg_self v h
  discarded h := by simp [State.writeReg_hardwired v h]
  others r h := by simpa using State.writeReg_reg_of_ne v h
  nextPc := by simp
  cur := by simp
  mem := by simp
  run := by simp
  icount := by simp
  decodeMiss := by simp
  memMiss := by simp
  fault := by simp
  cfg := by simp

theorem setsPcAndRun_setPc (s : State) (pc : Word) : SetsPcAndRun s (s.setPc pc) pc s.run := by
  constructor <;> simp

theorem setsPcAndRun_self (s : State) : SetsPcAndRun s s s.nxt.pc s.run := by constructor <;> simp

theorem setsPcAndRun_halt (s : State) : SetsPcAndRun s s.halt s.nxt.pc false := by constructor <;> simp

theorem raisesOnly_raise (s : State) (f : Fault) : RaisesOnly s (s.raise f) f := by constructor <;> simp

theorem bytesStored_memWrite8 {s : State} (hw : s.mem.wf) (ea v : Word) :
    BytesStored s (s.memWrite8 ea v) 1 ea v where
  stored k hk hm := by
    have : k = 0 := by omega
    subst this
    simpa [State.memWrite8] using State.readByte_writeByte_self (v.extractLsb' 0 8) hw (by simpa using hm)
  dropped k hk hm := State.readByte_unmapped (by simpa using hm)
  others a h := State.readByte_memWrite8_of_ne v (by simpa using h 0 (by omega))

theorem bytesStored_memWrite16 {s : State} (hw : s.mem.wf) (ea v : Word) :
    BytesStored s (s.memWrite16 ea v) 2 ea v where
  stored k hk hm := by
    have w0 := State.writeByte_mem_wf hw ea (v.extractLsb' 0 8)
    unfold State.memWrite16
    match k, hk with
    | 0, _ =>
      have hne : ea + BitVec.ofNat 32 0 ≠ ea + 1#32 := add_ofNat_ne ea (by omega) (by omega) (by omega)
      rw [State.readByte_writeByte_of_ne _ hne]
      simpa using State.readByte_writeByte_self (v.extractLsb' 0 8) hw (by simpa using hm)
    | 1, _ => exact State.readByte_writeByte_self _ w0 (by simpa using hm)
  dropped k hk hm := State.readByte_unmapped (by simpa using hm)
  others a h := State.readByte_memWrite16_of_ne v (by simpa using h 0 (by omega)) (by simpa using h 1 (by omega))

theorem bytesStored_memWrite32 {s : State} (hw : s.mem.wf) (ea v : Word) :
    BytesStored s (s.memWrite32 ea v) 4 ea v where
  stored k hk hm := State.readByte_memWrite32 hw ea v hk hm
  dropped k hk hm := State.readByte_unmapped (by simpa using hm)
  others a h := State.readByte_memWrite32_of_ne v (by simpa using h 0 (by omega))
    (by simpa using h 1 (by omega)) (by simpa using h 2 (by omega)) (by simpa using h 3 (by omega))

/-- Bytes stored in a state that differs from `s` in a diagnostic only are bytes stored in `s`. -/
theorem BytesStored.congr {s s' t : State} {n : Nat} {ea v : Word} (h : BytesStored s' t n ea v)
    (hm : s.mem = s'.mem) (hc : s.cfg = s'.cfg) : BytesStored s t n ea v where
  stored k hk := by rw [hc]; exact h.stored k hk
  dropped k hk := by rw [hc]; exact h.dropped k hk
  others a ha := (h.others a ha).trans (State.readByte_congr hm hc a).symm

theorem storesOnly_memWrite8 {s : State} (hw : s.mem.wf) (ea v : Word) (missed : Bool) :
    StoresOnly s ((s.noteMemMiss missed).memWrite8 ea v) 1 ea v missed where
  bytes := (bytesStored_memWrite8 (s := s.noteMemMiss missed) hw ea v).congr rfl rfl
  cur := by simp
  nxt := by simp
  run := by simp
  icount := by simp
  decodeMiss := by simp
  memMiss := by simp
  fault := by simp
  cfg := by simp

theorem storesOnly_memWrite16 {s : State} (hw : s.mem.wf) (ea v : Word) (missed : Bool) :
    StoresOnly s ((s.noteMemMiss missed).memWrite16 ea v) 2 ea v missed where
  bytes := (bytesStored_memWrite16 (s := s.noteMemMiss missed) hw ea v).congr rfl rfl
  cur := by simp
  nxt := by simp
  run := by simp
  icount := by simp
  decodeMiss := by simp
  memMiss := by simp
  fault := by simp
  cfg := by simp

theorem storesOnly_memWrite32 {s : State} (hw : s.mem.wf) (ea v : Word) (missed : Bool) :
    StoresOnly s ((s.noteMemMiss missed).memWrite32 ea v) 4 ea v missed where
  bytes := (bytesStored_memWrite32 (s := s.noteMemMiss missed) hw ea v).congr rfl rfl
  cur := by simp
  nxt := by simp
  run := by simp
  icount := by simp
  decodeMiss := by simp
  memMiss := by simp
  fault := by simp
  cfg := by simp

/-! ## Loads and stores, with their two outcomes -/

theorem execLoad_next {s : State} {w : Width} (value : State → Word → Word) (rd rs1 : Reg) (imm : BitVec 12)
    (h : accessFault s.cfg w (s.effectiveAddress rs1 imm) = none) :
    execLoad w value rd rs1 imm s =
      .next ((s.noteMemMiss (touchesUnmapped s.cfg w (s.effectiveAddress rs1 imm))).writeReg rd
        (value (s.noteMemMiss (touchesUnmapped s.cfg w (s.effectiveAddress rs1 imm)))
          (s.effectiveAddress rs1 imm))) := by
  simp [execLoad, State.access_none _ h]

theorem execLoad_fault {s : State} {w : Width} (value : State → Word → Word) (rd rs1 : Reg) (imm : BitVec 12)
    {f : Fault} (h : accessFault s.cfg w (s.effectiveAddress rs1 imm) = some f) :
    execLoad w value rd rs1 imm s = .next (s.raise f) := by
  simp [execLoad, State.access_some _ h]

theorem execStore_next {s : State} {w : Width} (put : State → Word → Word → State) (rs2 rs1 : Reg)
    (imm : BitVec 12) (h : accessFault s.cfg w (s.effectiveAddress rs1 imm) = none) :
    execStore w put rs2 rs1 imm s =
      .next (put (s.noteMemMiss (touchesUnmapped s.cfg w (s.effectiveAddress rs1 imm)))
        (s.effectiveAddress rs1 imm) (s.readReg rs2)) := by
  simp [execStore, State.access_none _ h]

theorem execStore_fault {s : State} {w : Width} (put : State → Word → Word → State) (rs2 rs1 : Reg)
    (imm : BitVec 12) {f : Fault} (h : accessFault s.cfg w (s.effectiveAddress rs1 imm) = some f) :
    execStore w put rs2 rs1 imm s = .next (s.raise f) := by
  simp [execStore, State.access_some _ h]

/-! ## The case analysis of `exec` -/

/-- The family of an instruction, by what its execute part may do. -/
inductive Family where
  | compute
  | store
  | branch
  | jump
  | system
  deriving DecidableEq, Repr

def family : Instr → Family
  | .sb .. | .sh .. | .sw .. => .store
  | .beq .. | .bne .. | .blt .. | .bge .. | .bltu .. | .bgeu .. => .branch
  | .jal .. | .jalr .. => .jump
  | .ecall => .system
  | .add .. | .sub .. | .sll .. | .slt .. | .sltu .. | .xor .. | .srl .. | .sra .. | .or ..
  | .and .. | .mul .. | .div .. | .divu .. => .compute
  | .addi .. | .slti .. | .sltiu .. | .xori .. | .ori .. | .andi .. | .slli .. | .srli ..
  | .srai .. => .compute
  | .lui .. | .auipc .. | .lb .. | .lh .. | .lw .. | .lbu .. | .lhu .. => .compute

/-- The destination register of an instruction that has one. -/
def destination : Instr → Option Reg
  | .add rd .. | .sub rd .. | .sll rd .. | .slt rd .. | .sltu rd .. | .xor rd .. | .srl rd .. | .sra rd ..
  | .or rd .. | .and rd .. | .mul rd .. | .div rd .. | .divu rd .. => some rd
  | .addi rd .. | .slti rd .. | .sltiu rd .. | .xori rd .. | .ori rd .. | .andi rd .. | .slli rd ..
  | .srli rd .. | .srai rd .. => some rd
  | .lui rd _ | .auipc rd _ | .jal rd _ => some rd
  | .lb rd .. | .lh rd .. | .lw rd .. | .lbu rd .. | .lhu rd .. | .jalr rd .. => some rd
  | .sb .. | .sh .. | .sw .. | .beq .. | .bne .. | .blt .. | .bge .. | .bltu .. | .bgeu .. => none
  | .ecall => none

/-- The width and the address of a store. -/
def storeTarget (s : State) : Instr → Option (Width × Word)
  | .sb _ rs1 imm => some (.byte, s.effectiveAddress rs1 imm)
  | .sh _ rs1 imm => some (.half, s.effectiveAddress rs1 imm)
  | .sw _ rs1 imm => some (.word, s.effectiveAddress rs1 imm)
  | .add .. | .sub .. | .sll .. | .slt .. | .sltu .. | .xor .. | .srl .. | .sra .. | .or ..
  | .and .. | .mul .. | .div .. | .divu .. => none
  | .addi .. | .slti .. | .sltiu .. | .xori .. | .ori .. | .andi .. | .slli .. | .srli .. | .srai .. => none
  | .lui .. | .auipc .. | .lb .. | .lh .. | .lw .. | .lbu .. | .lhu .. => none
  | .beq .. | .bne .. | .blt .. | .bge .. | .bltu .. | .bgeu .. | .jal .. | .jalr .. | .ecall => none

/-- The store of the low bytes of `v`, by width. -/
def storeBytes (w : Width) (s : State) (ea v : Word) : State :=
  match w with
  | .byte => s.memWrite8 ea v
  | .half => s.memWrite16 ea v
  | .word => s.memWrite32 ea v

/-- What executing an instruction can make of a state. -/
inductive Effect (i : Instr) (s : State) : State → Prop where
  | writes (rd : Reg) (v : Word) (missed : Bool) (hf : family i = .compute) (hd : destination i = some rd) :
      Effect i s ((s.noteMemMiss missed).writeReg rd v)
  | links (rd : Reg) (v pc : Word) (hf : family i = .jump) (hd : destination i = some rd) :
      Effect i s ((s.writeReg rd v).setPc pc)
  | goes (pc : Word) (hf : family i = .branch) : Effect i s (s.setPc pc)
  | stays (hf : family i = .branch) : Effect i s s
  | stores (w : Width) (ea v : Word) (missed : Bool) (hf : family i = .store)
      (ht : storeTarget s i = some (w, ea)) : Effect i s (storeBytes w (s.noteMemMiss missed) ea v)
  | halts (hf : family i = .system) : Effect i s s.halt
  | corner (hf : family i = .compute) (hc : s.cfg.divCorner = .fault) :
      Effect i s (s.raise (.divCorner s.cur.pc))
  | accessFaults (w : Width) (ea : Word) (f : Fault) (hf : family i = .compute ∨ family i = .store)
      (ha : accessFault s.cfg w ea = some f) : Effect i s (s.raise f)

theorem effect_regReg (i : Instr) (s : State) (f : Word → Word → Word) (rd rs1 rs2 : Reg)
    (hf : family i = .compute) (hd : destination i = some rd) :
    ∃ t, execRegReg f rd rs1 rs2 s = .next t ∧ Effect i s t :=
  ⟨_, rfl, by simpa using Effect.writes (s := s) rd (f (s.readReg rs1) (s.readReg rs2)) false hf hd⟩

theorem effect_regVal (i : Instr) (s : State) (f : Word → Word) (rd rs1 : Reg) (hf : family i = .compute)
    (hd : destination i = some rd) : ∃ t, execRegVal f rd rs1 s = .next t ∧ Effect i s t :=
  ⟨_, rfl, by simpa using Effect.writes (s := s) rd (f (s.readReg rs1)) false hf hd⟩

theorem effect_divide (i : Instr) (s : State) (corner : Word → Word → Option Word)
    (quot : Word → Word → Word) (rd rs1 rs2 : Reg) (hf : family i = .compute)
    (hd : destination i = some rd) : ∃ t, execDivide corner quot rd rs1 rs2 s = .next t ∧ Effect i s t := by
  unfold execDivide
  split
  · exact ⟨_, rfl, by simpa using Effect.writes (s := s) rd (quot (s.readReg rs1) (s.readReg rs2)) false hf hd⟩
  · rename_i v _
    split
    · exact ⟨_, rfl, by simpa using Effect.writes (s := s) rd v false hf hd⟩
    · exact ⟨_, rfl, .corner hf (by assumption)⟩

theorem effect_load (i : Instr) (s : State) (w : Width) (value : State → Word → Word) (rd rs1 : Reg)
    (imm : BitVec 12) (hf : family i = .compute) (hd : destination i = some rd) :
    ∃ t, execLoad w value rd rs1 imm s = .next t ∧ Effect i s t := by
  cases h : accessFault s.cfg w (s.effectiveAddress rs1 imm) with
  | none => exact ⟨_, execLoad_next value rd rs1 imm h, .writes _ _ _ hf hd⟩
  | some f => exact ⟨_, execLoad_fault value rd rs1 imm h, .accessFaults _ _ _ (.inl hf) h⟩

theorem effect_store (i : Instr) (s : State) (w : Width) (rs2 rs1 : Reg) (imm : BitVec 12)
    (hf : family i = .store) (ht : storeTarget s i = some (w, s.effectiveAddress rs1 imm)) :
    ∃ t, execStore w (storeBytes w) rs2 rs1 imm s = .next t ∧ Effect i s t := by
  cases h : accessFault s.cfg w (s.effectiveAddress rs1 imm) with
  | none => exact ⟨_, execStore_next _ rs2 rs1 imm h, .stores _ _ _ _ hf ht⟩
  | some f => exact ⟨_, execStore_fault _ rs2 rs1 imm h, .accessFaults _ _ _ (.inr hf) h⟩

theorem effect_branch (i : Instr) (s : State) (cond : Word → Word → Bool) (rs1 rs2 : Reg) (off : BitVec 13)
    (hf : family i = .branch) : ∃ t, execBranch cond rs1 rs2 off s = .next t ∧ Effect i s t := by
  unfold execBranch
  split
  · exact ⟨_, rfl, .goes _ hf⟩
  · exact ⟨_, rfl, .stays hf⟩

/-- Every instruction completes, in one of the ways of `Effect`. -/
theorem exec_effect (i : Instr) (s : State) : ∃ t, exec i s = .next t ∧ Effect i s t := by
  cases i with
  | add rd rs1 rs2 => simp only [exec, execAdd]; exact effect_regReg (.add rd rs1 rs2) s _ rd rs1 rs2 rfl rfl
  | sub rd rs1 rs2 => simp only [exec, execSub]; exact effect_regReg (.sub rd rs1 rs2) s _ rd rs1 rs2 rfl rfl
  | sll rd rs1 rs2 => simp only [exec, execSll]; exact effect_regReg (.sll rd rs1 rs2) s _ rd rs1 rs2 rfl rfl
  | slt rd rs1 rs2 => simp only [exec, execSlt]; exact effect_regReg (.slt rd rs1 rs2) s _ rd rs1 rs2 rfl rfl
  | sltu rd rs1 rs2 => simp only [exec, execSltu]; exact effect_regReg (.sltu rd rs1 rs2) s _ rd rs1 rs2 rfl rfl
  | xor rd rs1 rs2 => simp only [exec, execXor]; exact effect_regReg (.xor rd rs1 rs2) s _ rd rs1 rs2 rfl rfl
  | srl rd rs1 rs2 => simp only [exec, execSrl]; exact effect_regReg (.srl rd rs1 rs2) s _ rd rs1 rs2 rfl rfl
  | sra rd rs1 rs2 => simp only [exec, execSra]; exact effect_regReg (.sra rd rs1 rs2) s _ rd rs1 rs2 rfl rfl
  | or rd rs1 rs2 => simp only [exec, execOr]; exact effect_regReg (.or rd rs1 rs2) s _ rd rs1 rs2 rfl rfl
  | and rd rs1 rs2 => simp only [exec, execAnd]; exact effect_regReg (.and rd rs1 rs2) s _ rd rs1 rs2 rfl rfl
  | mul rd rs1 rs2 => simp only [exec, execMul]; exact effect_regReg (.mul rd rs1 rs2) s _ rd rs1 rs2 rfl rfl
  | div rd rs1 rs2 => simp only [exec, execDiv]; exact effect_divide (.div rd rs1 rs2) s _ _ rd rs1 rs2 rfl rfl
  | divu rd rs1 rs2 => simp only [exec, execDivu]; exact effect_divide (.divu rd rs1 rs2) s _ _ rd rs1 rs2 rfl rfl
  | addi rd rs1 imm => simp only [exec, execAddi]; exact effect_regVal (.addi rd rs1 imm) s _ rd rs1 rfl rfl
  | slti rd rs1 imm => simp only [exec, execSlti]; exact effect_regVal (.slti rd rs1 imm) s _ rd rs1 rfl rfl
  | sltiu rd rs1 imm => simp only [exec, execSltiu]; exact effect_regVal (.sltiu rd rs1 imm) s _ rd rs1 rfl rfl
  | xori rd rs1 imm => simp only [exec, execXori]; exact effect_regVal (.xori rd rs1 imm) s _ rd rs1 rfl rfl
  | ori rd rs1 imm => simp only [exec, execOri]; exact effect_regVal (.ori rd rs1 imm) s _ rd rs1 rfl rfl
  | andi rd rs1 imm => simp only [exec, execAndi]; exact effect_regVal (.andi rd rs1 imm) s _ rd rs1 rfl rfl
  | slli rd rs1 shamt => simp only [exec, execSlli]; exact effect_regVal (.slli rd rs1 shamt) s _ rd rs1 rfl rfl
  | srli rd rs1 shamt => simp only [exec, execSrli]; exact effect_regVal (.srli rd rs1 shamt) s _ rd rs1 rfl rfl
  | srai rd rs1 shamt => simp only [exec, execSrai]; exact effect_regVal (.srai rd rs1 shamt) s _ rd rs1 rfl rfl
  | lui rd imm20 => exact ⟨_, rfl, by simpa using Effect.writes (s := s) rd (immU imm20) false rfl rfl⟩
  | auipc rd imm20 =>
    exact ⟨_, rfl, by simpa using Effect.writes (s := s) rd (s.cur.pc + immU imm20) false rfl rfl⟩
  | lb rd rs1 imm => simp only [exec, execLb]; exact effect_load (.lb rd rs1 imm) s _ _ rd rs1 imm rfl rfl
  | lh rd rs1 imm => simp only [exec, execLh]; exact effect_load (.lh rd rs1 imm) s _ _ rd rs1 imm rfl rfl
  | lw rd rs1 imm => simp only [exec, execLw]; exact effect_load (.lw rd rs1 imm) s _ _ rd rs1 imm rfl rfl
  | lbu rd rs1 imm => simp only [exec, execLbu]; exact effect_load (.lbu rd rs1 imm) s _ _ rd rs1 imm rfl rfl
  | lhu rd rs1 imm => simp only [exec, execLhu]; exact effect_load (.lhu rd rs1 imm) s _ _ rd rs1 imm rfl rfl
  | sb rs2 rs1 imm => exact effect_store (.sb rs2 rs1 imm) s .byte rs2 rs1 imm rfl rfl
  | sh rs2 rs1 imm => exact effect_store (.sh rs2 rs1 imm) s .half rs2 rs1 imm rfl rfl
  | sw rs2 rs1 imm => exact effect_store (.sw rs2 rs1 imm) s .word rs2 rs1 imm rfl rfl
  | beq rs1 rs2 off => simp only [exec, execBeq]; exact effect_branch (.beq rs1 rs2 off) s _ rs1 rs2 off rfl
  | bne rs1 rs2 off => simp only [exec, execBne]; exact effect_branch (.bne rs1 rs2 off) s _ rs1 rs2 off rfl
  | blt rs1 rs2 off => simp only [exec, execBlt]; exact effect_branch (.blt rs1 rs2 off) s _ rs1 rs2 off rfl
  | bge rs1 rs2 off => simp only [exec, execBge]; exact effect_branch (.bge rs1 rs2 off) s _ rs1 rs2 off rfl
  | bltu rs1 rs2 off => simp only [exec, execBltu]; exact effect_branch (.bltu rs1 rs2 off) s _ rs1 rs2 off rfl
  | bgeu rs1 rs2 off => simp only [exec, execBgeu]; exact effect_branch (.bgeu rs1 rs2 off) s _ rs1 rs2 off rfl
  | jal rd off => exact ⟨_, rfl, .links _ _ _ rfl rfl⟩
  | jalr rd rs1 imm => exact ⟨_, rfl, .links _ _ _ rfl rfl⟩
  | ecall => exact ⟨_, rfl, .halts rfl⟩

/-! ## What every effect keeps -/

theorem storeBytes_frame (w : Width) (s : State) (ea v : Word) :
    (storeBytes w s ea v).cur = s.cur ∧ (storeBytes w s ea v).nxt = s.nxt ∧
    (storeBytes w s ea v).run = s.run ∧ (storeBytes w s ea v).icount = s.icount ∧
    (storeBytes w s ea v).decodeMiss = s.decodeMiss ∧ (storeBytes w s ea v).memMiss = s.memMiss ∧
    (storeBytes w s ea v).fault = s.fault ∧ (storeBytes w s ea v).cfg = s.cfg := by
  cases w <;> simp [storeBytes]

theorem storeBytes_mem_wf (w : Width) {s : State} (h : s.mem.wf) (ea v : Word) :
    (storeBytes w s ea v).mem.wf := by
  cases w
  · exact State.memWrite8_mem_wf h ea v
  · exact State.memWrite16_mem_wf h ea v
  · exact State.memWrite32_mem_wf h ea v

theorem storeBytes_mem_inRegions (w : Width) {s : State} (ea v : Word)
    (h : ∀ c ∈ s.mem, c.1 < 2 ^ 32 ∧ mapped s.cfg (BitVec.ofNat 32 c.1) = true) :
    ∀ c ∈ (storeBytes w s ea v).mem, c.1 < 2 ^ 32 ∧ mapped s.cfg (BitVec.ofNat 32 c.1) = true := by
  cases w
  · exact State.memWrite8_mem_inRegions ea v h
  · exact State.memWrite16_mem_inRegions ea v h
  · exact State.memWrite32_mem_inRegions ea v h

/-- A store leaves every byte but its own as it was. -/
theorem readByte_storeBytes_of_ne (w : Width) (s : State) {ea a : Word} (v : Word)
    (h : ∀ k, k < w.bytes → a ≠ ea + BitVec.ofNat 32 k) : (storeBytes w s ea v).readByte a = s.readByte a := by
  cases w
  · exact State.readByte_memWrite8_of_ne v (by simpa using h 0 (by decide))
  · exact State.readByte_memWrite16_of_ne v (by simpa using h 0 (by decide)) (by simpa using h 1 (by decide))
  · exact State.readByte_memWrite32_of_ne v (by simpa using h 0 (by decide)) (by simpa using h 1 (by decide))
      (by simpa using h 2 (by decide)) (by simpa using h 3 (by decide))

/-- No effect writes the current snapshot, the counter, `decode_miss` or the configuration. -/
theorem Effect.keeps {i : Instr} {s t : State} (h : Effect i s t) :
    t.cur = s.cur ∧ t.icount = s.icount ∧ t.decodeMiss = s.decodeMiss ∧ t.cfg = s.cfg := by
  cases h with
  | stores w ea v missed =>
    obtain ⟨h1, -, -, h2, h3, -, -, h4⟩ := storeBytes_frame w (s.noteMemMiss missed) ea v
    simp [h1, h2, h3, h4]
  | _ => simp

/-- An effect leaves the fault record alone, or records a fault that a policy enables and keeps memory,
`run` and the diagnostics. -/
theorem Effect.fault {i : Instr} {s t : State} (h : Effect i s t) :
    t.fault = s.fault ∨ ∃ f, t = s.raise f ∧ FaultEnabled s.cfg (some f) ∧
      (f = .divCorner s.cur.pc ∨ ∃ w a, accessFault s.cfg w a = some f) := by
  cases h with
  | corner hf hc => exact .inr ⟨_, rfl, hc, .inl rfl⟩
  | accessFaults w ea f hf ha =>
    refine .inr ⟨_, rfl, ?_, .inr ⟨w, ea, ha⟩⟩
    rcases accessFault_some ha with ⟨rfl, h, -⟩ | ⟨rfl, h, -⟩ <;> exact h
  | stores w ea v missed =>
    obtain ⟨-, -, -, -, -, -, h1, -⟩ := storeBytes_frame w (s.noteMemMiss missed) ea v
    exact .inl (by simp [h1])
  | _ => exact .inl (by simp)

end Sys2Proof.Machine
end

