-- ==== Sys2Proof/Laws/Counter.lean ====
section
/-! SUPPORT. The instruction counter is only counted: executing an instruction neither reads it nor
writes it (40_step.md R159), so `exec` commutes with setting it. -/

namespace Sys2Proof.Machine

/-- The result with the instruction counter of its next state set to `n`. -/
def Result.withIcount (n : Nat) : Result → Result
  | .next t => .next { t with icount := n }
  | .fault f => .fault f
  | .refused r => .refused r

theorem writeReg_withIcount (s : State) (n : Nat) (r : Reg) (v : Word) :
    ({ s with icount := n } : State).writeReg r v = { s.writeReg r v with icount := n } := by
  unfold State.writeReg
  split <;> rename_i h <;> simp only [State.hardwired] at h ⊢ <;> simp [h]

theorem writeByte_withIcount (s : State) (n : Nat) (a : Word) (b : Byte) :
    ({ s with icount := n } : State).writeByte a b = { s.writeByte a b with icount := n } := by
  unfold State.writeByte
  split <;> simp

theorem memWrite8_withIcount (s : State) (n : Nat) (a v : Word) :
    ({ s with icount := n } : State).memWrite8 a v = { s.memWrite8 a v with icount := n } := by
  simp [State.memWrite8, writeByte_withIcount]

theorem memWrite16_withIcount (s : State) (n : Nat) (a v : Word) :
    ({ s with icount := n } : State).memWrite16 a v = { s.memWrite16 a v with icount := n } :=
  (congrArg (fun t : State => t.writeByte _ _) (writeByte_withIcount s n _ _)).trans
    (writeByte_withIcount ..)

theorem memWrite32_withIcount (s : State) (n : Nat) (a v : Word) :
    ({ s with icount := n } : State).memWrite32 a v = { s.memWrite32 a v with icount := n } := by
  refine (congrArg (fun t : State => ((t.writeByte _ _).writeByte _ _).writeByte _ _)
    (writeByte_withIcount s n _ _)).trans ?_
  refine (congrArg (fun t : State => (t.writeByte _ _).writeByte _ _) (writeByte_withIcount _ n _ _)).trans ?_
  exact (congrArg (fun t : State => t.writeByte _ _) (writeByte_withIcount _ n _ _)).trans
    (writeByte_withIcount ..)

theorem execRegReg_withIcount (f : Word → Word → Word) (rd rs1 rs2 : Reg) (s : State) (n : Nat) :
    execRegReg f rd rs1 rs2 { s with icount := n } = (execRegReg f rd rs1 rs2 s).withIcount n :=
  congrArg Host.Outcome.next (writeReg_withIcount ..)

theorem execRegVal_withIcount (f : Word → Word) (rd rs1 : Reg) (s : State) (n : Nat) :
    execRegVal f rd rs1 { s with icount := n } = (execRegVal f rd rs1 s).withIcount n :=
  congrArg Host.Outcome.next (writeReg_withIcount ..)

theorem execDivide_withIcount (corner : Word → Word → Option Word) (quot : Word → Word → Word)
    (rd rs1 rs2 : Reg) (s : State) (n : Nat) :
    execDivide corner quot rd rs1 rs2 { s with icount := n } =
      (execDivide corner quot rd rs1 rs2 s).withIcount n := by
  unfold execDivide
  have h : ∀ r, ({ s with icount := n } : State).readReg r = s.readReg r := fun _ => rfl
  simp only [h]
  cases corner (s.readReg rs1) (s.readReg rs2) with
  | none => exact congrArg Host.Outcome.next (writeReg_withIcount ..)
  | some v =>
    cases s.cfg.divCorner with
    | riscv => exact congrArg Host.Outcome.next (writeReg_withIcount ..)
    | fault => rfl

theorem execBranch_withIcount (cond : Word → Word → Bool) (rs1 rs2 : Reg) (off : BitVec 13) (s : State)
    (n : Nat) :
    execBranch cond rs1 rs2 off { s with icount := n } = (execBranch cond rs1 rs2 off s).withIcount n := by
  unfold execBranch
  have h : ∀ r, ({ s with icount := n } : State).readReg r = s.readReg r := fun _ => rfl
  simp only [h]
  split <;> rfl

theorem execLoad_withIcount (w : Width) (value : State → Word → Word)
    (hv : ∀ (s : State) (n : Nat) (a : Word), value { s with icount := n } a = value s a)
    (rd rs1 : Reg) (imm : BitVec 12) (s : State) (n : Nat) :
    execLoad w value rd rs1 imm { s with icount := n } = (execLoad w value rd rs1 imm s).withIcount n := by
  cases h : accessFault s.cfg w (s.effectiveAddress rs1 imm) with
  | none =>
    rw [execLoad_next (s := { s with icount := n }) _ _ _ _ h, execLoad_next _ _ _ _ h]
    refine congrArg Host.Outcome.next ((writeReg_withIcount (s.noteMemMiss _) n _ _).trans ?_)
    exact congrArg (fun v => { (s.noteMemMiss (touchesUnmapped s.cfg w (s.effectiveAddress rs1 imm))).writeReg
      rd v with icount := n }) (hv (s.noteMemMiss _) n _)
  | some f =>
    rw [execLoad_fault (s := { s with icount := n }) _ _ _ _ h, execLoad_fault _ _ _ _ h]
    rfl

theorem execStore_withIcount (w : Width) (put : State → Word → Word → State)
    (hp : ∀ (s : State) (n : Nat) (a v : Word), put { s with icount := n } a v = { put s a v with icount := n })
    (rs2 rs1 : Reg) (imm : BitVec 12) (s : State) (n : Nat) :
    execStore w put rs2 rs1 imm { s with icount := n } = (execStore w put rs2 rs1 imm s).withIcount n := by
  cases h : accessFault s.cfg w (s.effectiveAddress rs1 imm) with
  | none =>
    rw [execStore_next (s := { s with icount := n }) _ _ _ _ h, execStore_next _ _ _ _ h]
    exact congrArg Host.Outcome.next (hp (s.noteMemMiss _) n _ _)
  | some f =>
    rw [execStore_fault (s := { s with icount := n }) _ _ _ _ h, execStore_fault _ _ _ _ h]
    rfl

/-- No instruction reads or writes the instruction counter. -/
theorem exec_withIcount (i : Instr) (s : State) (n : Nat) :
    exec i { s with icount := n } = Result.withIcount n (exec i s) := by
  cases i with
  | add => unfold exec execAdd; exact execRegReg_withIcount ..
  | sub => unfold exec execSub; exact execRegReg_withIcount ..
  | sll => unfold exec execSll; exact execRegReg_withIcount ..
  | slt => unfold exec execSlt; exact execRegReg_withIcount ..
  | sltu => unfold exec execSltu; exact execRegReg_withIcount ..
  | xor => unfold exec execXor; exact execRegReg_withIcount ..
  | srl => unfold exec execSrl; exact execRegReg_withIcount ..
  | sra => unfold exec execSra; exact execRegReg_withIcount ..
  | or => unfold exec execOr; exact execRegReg_withIcount ..
  | and => unfold exec execAnd; exact execRegReg_withIcount ..
  | mul => unfold exec execMul; exact execRegReg_withIcount ..
  | div | divu => exact execDivide_withIcount ..
  | addi => unfold exec execAddi; exact execRegVal_withIcount ..
  | slti => unfold exec execSlti; exact execRegVal_withIcount ..
  | sltiu => unfold exec execSltiu; exact execRegVal_withIcount ..
  | xori => unfold exec execXori; exact execRegVal_withIcount ..
  | ori => unfold exec execOri; exact execRegVal_withIcount ..
  | andi => unfold exec execAndi; exact execRegVal_withIcount ..
  | slli => unfold exec execSlli; exact execRegVal_withIcount ..
  | srli => unfold exec execSrli; exact execRegVal_withIcount ..
  | srai => unfold exec execSrai; exact execRegVal_withIcount ..
  | lui | auipc => exact congrArg Host.Outcome.next (writeReg_withIcount ..)
  | lb => unfold exec execLb; exact execLoad_withIcount _ _ (fun _ _ _ => rfl) ..
  | lh => unfold exec execLh; exact execLoad_withIcount _ _ (fun _ _ _ => rfl) ..
  | lw => unfold exec execLw; exact execLoad_withIcount _ _ (fun _ _ _ => rfl) ..
  | lbu => unfold exec execLbu; exact execLoad_withIcount _ _ (fun _ _ _ => rfl) ..
  | lhu => unfold exec execLhu; exact execLoad_withIcount _ _ (fun _ _ _ => rfl) ..
  | sb => exact execStore_withIcount _ _ memWrite8_withIcount ..
  | sh => exact execStore_withIcount _ _ memWrite16_withIcount ..
  | sw => exact execStore_withIcount _ _ memWrite32_withIcount ..
  | beq => unfold exec execBeq; exact execBranch_withIcount ..
  | bne => unfold exec execBne; exact execBranch_withIcount ..
  | blt => unfold exec execBlt; exact execBranch_withIcount ..
  | bge => unfold exec execBge; exact execBranch_withIcount ..
  | bltu => unfold exec execBltu; exact execBranch_withIcount ..
  | bgeu => unfold exec execBgeu; exact execBranch_withIcount ..
  | jal rd off =>
    exact congrArg Host.Outcome.next
      (congrArg (fun t : State => t.setPc (s.jalTarget off)) (writeReg_withIcount s n rd _))
  | jalr rd rs1 imm =>
    exact congrArg Host.Outcome.next
      (congrArg (fun t : State => t.setPc (s.jalrTarget rs1 imm)) (writeReg_withIcount s n rd _))
  | ecall => rfl

end Sys2Proof.Machine
end

