-- ==== Sys2Proof/Laws/Decode.lean ====
section
/-! SUPPORT. The fields of a word as numbers, the fields of each encoded format, the word put together
again from its fields, and the masks of the opcode table as statements about fields. -/

namespace Sys2Proof

/-! ## Concatenation and extraction as arithmetic -/

theorem toNat_append_mul {m n : Nat} (x : BitVec m) (y : BitVec n) :
    (x ++ y).toNat = x.toNat * 2 ^ n + y.toNat := by
  rw [BitVec.toNat_append, ← Nat.shiftLeft_add_eq_or_of_lt y.isLt, Nat.shiftLeft_eq]

theorem toNat_extract (w : Word) (lo n : Nat) : (w.extractLsb' lo n).toNat = w.toNat / 2 ^ lo % 2 ^ n := by
  rw [BitVec.extractLsb'_toNat, Nat.shiftRight_eq_div_pow]

theorem opcodeField_toNat (w : Word) : (opcodeField w).toNat = w.toNat % 128 := by
  simp [opcodeField]
theorem rdField_val (w : Word) : (rdField w).val = w.toNat / 128 % 32 := by
  simpa [rdField] using toNat_extract w 7 5
theorem funct3Field_toNat (w : Word) : (funct3Field w).toNat = w.toNat / 4096 % 8 := by
  simp [funct3Field, Nat.shiftRight_eq_div_pow]
theorem rs1Field_val (w : Word) : (rs1Field w).val = w.toNat / 32768 % 32 := by
  simpa [rs1Field] using toNat_extract w 15 5
theorem rs2Field_val (w : Word) : (rs2Field w).val = w.toNat / 1048576 % 32 := by
  simpa [rs2Field] using toNat_extract w 20 5
theorem funct7Field_toNat (w : Word) : (funct7Field w).toNat = w.toNat / 33554432 % 128 := by
  simp [funct7Field, Nat.shiftRight_eq_div_pow]
theorem immIField_toNat (w : Word) : (immIField w).toNat = w.toNat / 1048576 % 4096 := by
  simp [immIField, Nat.shiftRight_eq_div_pow]
theorem shamtField_toNat (w : Word) : (shamtField w).toNat = w.toNat / 1048576 % 32 := by
  simp [shamtField, Nat.shiftRight_eq_div_pow]
theorem immUField_toNat (w : Word) : (immUField w).toNat = w.toNat / 4096 % 1048576 := by
  simp [immUField, Nat.shiftRight_eq_div_pow]
theorem immSField_toNat (w : Word) :
    (immSField w).toNat = w.toNat / 33554432 % 128 * 32 + w.toNat / 128 % 32 := by
  unfold immSField; rw [toNat_append_mul]; simp [Nat.shiftRight_eq_div_pow]
theorem immBField_toNat (w : Word) : (immBField w).toNat =
    w.toNat / 2147483648 % 2 * 4096 + w.toNat / 128 % 2 * 2048 + w.toNat / 33554432 % 64 * 32 +
      w.toNat / 256 % 16 * 2 := by
  unfold immBField
  rw [toNat_append_mul, toNat_append_mul, toNat_append_mul, toNat_append_mul]
  simp [Nat.shiftRight_eq_div_pow]; omega
theorem immJField_toNat (w : Word) : (immJField w).toNat =
    w.toNat / 2147483648 % 2 * 1048576 + w.toNat / 4096 % 256 * 4096 + w.toNat / 1048576 % 2 * 2048 +
      w.toNat / 2097152 % 1024 * 2 := by
  unfold immJField
  rw [toNat_append_mul, toNat_append_mul, toNat_append_mul, toNat_append_mul]
  simp [Nat.shiftRight_eq_div_pow]; omega

/-! ## Encoded formats as arithmetic -/

theorem encodeR_toNat (f7 : BitVec 7) (f3 : BitVec 3) (op : BitVec 7) (rd rs1 rs2 : Reg) :
    (encodeR f7 f3 op rd rs1 rs2).toNat = f7.toNat * 33554432 + rs2.val * 1048576 + rs1.val * 32768 +
      f3.toNat * 4096 + rd.val * 128 + op.toNat := by
  unfold encodeR
  iterate 5 rw [toNat_append_mul]
  simp; omega
theorem encodeI_toNat (f3 : BitVec 3) (op : BitVec 7) (rd rs1 : Reg) (imm : BitVec 12) :
    (encodeI f3 op rd rs1 imm).toNat = imm.toNat * 1048576 + rs1.val * 32768 + f3.toNat * 4096 +
      rd.val * 128 + op.toNat := by
  unfold encodeI
  iterate 4 rw [toNat_append_mul]
  simp; omega
theorem encodeShift_toNat (up : BitVec 7) (f3 : BitVec 3) (rd rs1 : Reg) (shamt : BitVec 5) :
    (encodeShift up f3 rd rs1 shamt).toNat = up.toNat * 33554432 + shamt.toNat * 1048576 +
      rs1.val * 32768 + f3.toNat * 4096 + rd.val * 128 + 19 := by
  unfold encodeShift
  rw [encodeI_toNat, toNat_append_mul]
  simp; omega
theorem encodeS_toNat (f3 : BitVec 3) (rs2 rs1 : Reg) (imm : BitVec 12) :
    (encodeS f3 rs2 rs1 imm).toNat = imm.toNat / 32 * 33554432 + rs2.val * 1048576 + rs1.val * 32768 +
      f3.toNat * 4096 + imm.toNat % 32 * 128 + 35 := by
  have := imm.isLt
  unfold encodeS
  iterate 5 rw [toNat_append_mul]
  simp [BitVec.extractLsb'_toNat, Nat.shiftRight_eq_div_pow]; omega
theorem encodeB_toNat (f3 : BitVec 3) (rs1 rs2 : Reg) (off : BitVec 13) :
    (encodeB f3 rs1 rs2 off).toNat = off.toNat / 4096 * 2147483648 + off.toNat / 32 % 64 * 33554432 +
      rs2.val * 1048576 + rs1.val * 32768 + f3.toNat * 4096 + off.toNat / 2 % 16 * 256 +
      off.toNat / 2048 % 2 * 128 + 99 := by
  have := off.isLt
  unfold encodeB
  iterate 7 rw [toNat_append_mul]
  simp [BitVec.extractLsb'_toNat, Nat.shiftRight_eq_div_pow]; omega
theorem encodeU_toNat (op : BitVec 7) (rd : Reg) (imm20 : BitVec 20) :
    (encodeU op rd imm20).toNat = imm20.toNat * 4096 + rd.val * 128 + op.toNat := by
  unfold encodeU
  iterate 2 rw [toNat_append_mul]
  simp; omega
theorem encodeJ_toNat (rd : Reg) (off : BitVec 21) :
    (encodeJ rd off).toNat = off.toNat / 1048576 * 2147483648 + off.toNat / 2 % 1024 * 2097152 +
      off.toNat / 2048 % 2 * 1048576 + off.toNat / 4096 % 256 * 4096 + rd.val * 128 + 111 := by
  have := off.isLt
  unfold encodeJ
  iterate 5 rw [toNat_append_mul]
  simp [BitVec.extractLsb'_toNat, Nat.shiftRight_eq_div_pow]; omega

/-! ## The fields of an encoded word (R101: the same places in every format) -/

/-- One digit of a number written in mixed radix. -/
theorem digit {N A B : Nat} (hi v low : Nat) (h : N = (hi * A + v) * B + low) (hv : v < A)
    (hl : low < B) : N / B % A = v := by
  have h1 : N / B = hi * A + v := by
    rw [h, Nat.add_comm, Nat.add_mul_div_right _ _ (by omega), Nat.div_eq_of_lt hl, Nat.zero_add]
  rw [h1, Nat.mul_comm, Nat.mul_add_mod, Nat.mod_eq_of_lt hv]

theorem reg_eq_of_val {r q : Reg} (h : r.val = q.val) : r = q := Fin.ext h

section R
variable (f7 : BitVec 7) (f3 : BitVec 3) (op : BitVec 7) (rd rs1 rs2 : Reg)

theorem opcodeField_encodeR : opcodeField (encodeR f7 f3 op rd rs1 rs2) = op := by
  apply BitVec.eq_of_toNat_eq; rw [opcodeField_toNat, encodeR_toNat]; have := op.isLt; omega
theorem funct3Field_encodeR : funct3Field (encodeR f7 f3 op rd rs1 rs2) = f3 := by
  apply BitVec.eq_of_toNat_eq; rw [funct3Field_toNat, encodeR_toNat]
  have := op.isLt; have := f3.isLt; have := rd.isLt; omega
theorem funct7Field_encodeR : funct7Field (encodeR f7 f3 op rd rs1 rs2) = f7 := by
  apply BitVec.eq_of_toNat_eq; rw [funct7Field_toNat, encodeR_toNat]
  have := op.isLt; have := f3.isLt; have := f7.isLt; have := rd.isLt; have := rs1.isLt; have := rs2.isLt; omega
theorem rdField_encodeR : rdField (encodeR f7 f3 op rd rs1 rs2) = rd := by
  apply reg_eq_of_val; rw [rdField_val, encodeR_toNat]; have := op.isLt; have := rd.isLt; omega
theorem rs1Field_encodeR : rs1Field (encodeR f7 f3 op rd rs1 rs2) = rs1 := by
  apply reg_eq_of_val; rw [rs1Field_val, encodeR_toNat]
  have := op.isLt; have := f3.isLt; have := rd.isLt; have := rs1.isLt; omega
theorem rs2Field_encodeR : rs2Field (encodeR f7 f3 op rd rs1 rs2) = rs2 := by
  apply reg_eq_of_val; rw [rs2Field_val, encodeR_toNat]
  have := op.isLt; have := f3.isLt; have := rd.isLt; have := rs1.isLt; have := rs2.isLt; omega
end R

section I
variable (f3 : BitVec 3) (op : BitVec 7) (rd rs1 : Reg) (imm : BitVec 12)

theorem opcodeField_encodeI : opcodeField (encodeI f3 op rd rs1 imm) = op := by
  apply BitVec.eq_of_toNat_eq; rw [opcodeField_toNat, encodeI_toNat]; have := op.isLt; omega
theorem funct3Field_encodeI : funct3Field (encodeI f3 op rd rs1 imm) = f3 := by
  apply BitVec.eq_of_toNat_eq; rw [funct3Field_toNat, encodeI_toNat]
  have := op.isLt; have := f3.isLt; have := rd.isLt; omega
theorem rdField_encodeI : rdField (encodeI f3 op rd rs1 imm) = rd := by
  apply reg_eq_of_val; rw [rdField_val, encodeI_toNat]; have := op.isLt; have := rd.isLt; omega
theorem rs1Field_encodeI : rs1Field (encodeI f3 op rd rs1 imm) = rs1 := by
  apply reg_eq_of_val; rw [rs1Field_val, encodeI_toNat]
  have := op.isLt; have := f3.isLt; have := rd.isLt; have := rs1.isLt; omega
theorem immIField_encodeI : immIField (encodeI f3 op rd rs1 imm) = imm := by
  apply BitVec.eq_of_toNat_eq; rw [immIField_toNat, encodeI_toNat]
  have := op.isLt; have := f3.isLt; have := rd.isLt; have := rs1.isLt; have := imm.isLt; omega
end I

section Shift
variable (up : BitVec 7) (f3 : BitVec 3) (rd rs1 : Reg) (shamt : BitVec 5)

theorem opcodeField_encodeShift : opcodeField (encodeShift up f3 rd rs1 shamt) = 0b0010011 :=
  opcodeField_encodeI ..
theorem funct3Field_encodeShift : funct3Field (encodeShift up f3 rd rs1 shamt) = f3 :=
  funct3Field_encodeI ..
theorem rdField_encodeShift : rdField (encodeShift up f3 rd rs1 shamt) = rd := rdField_encodeI ..
theorem rs1Field_encodeShift : rs1Field (encodeShift up f3 rd rs1 shamt) = rs1 := rs1Field_encodeI ..
theorem funct7Field_encodeShift : funct7Field (encodeShift up f3 rd rs1 shamt) = up := by
  apply BitVec.eq_of_toNat_eq; rw [funct7Field_toNat, encodeShift_toNat]
  have := shamt.isLt; have := f3.isLt; have := rd.isLt; have := rs1.isLt; have := up.isLt; omega
theorem shamtField_encodeShift : shamtField (encodeShift up f3 rd rs1 shamt) = shamt := by
  apply BitVec.eq_of_toNat_eq; rw [shamtField_toNat, encodeShift_toNat]
  have := shamt.isLt; have := f3.isLt; have := rd.isLt; have := rs1.isLt; have := up.isLt; omega
end Shift

section S
variable (f3 : BitVec 3) (rs2 rs1 : Reg) (imm : BitVec 12)

theorem opcodeField_encodeS : opcodeField (encodeS f3 rs2 rs1 imm) = 0b0100011 := by
  apply BitVec.eq_of_toNat_eq; rw [opcodeField_toNat, encodeS_toNat]; simp; omega
theorem funct3Field_encodeS : funct3Field (encodeS f3 rs2 rs1 imm) = f3 := by
  apply BitVec.eq_of_toNat_eq; rw [funct3Field_toNat, encodeS_toNat]; have := f3.isLt; omega
theorem rs1Field_encodeS : rs1Field (encodeS f3 rs2 rs1 imm) = rs1 := by
  apply reg_eq_of_val; rw [rs1Field_val, encodeS_toNat]; have := f3.isLt; have := rs1.isLt; omega
theorem rs2Field_encodeS : rs2Field (encodeS f3 rs2 rs1 imm) = rs2 := by
  apply reg_eq_of_val; rw [rs2Field_val, encodeS_toNat]
  have := f3.isLt; have := rs1.isLt; have := rs2.isLt
  have h1 : imm.toNat % 32 < 32 := Nat.mod_lt _ (by omega)
  generalize imm.toNat % 32 = q at *; generalize imm.toNat / 32 = p at *; omega
theorem immSField_encodeS : immSField (encodeS f3 rs2 rs1 imm) = imm := by
  apply BitVec.eq_of_toNat_eq; rw [immSField_toNat, encodeS_toNat]
  have := f3.isLt; have := rs1.isLt; have := rs2.isLt
  have h1 : imm.toNat % 32 < 32 := Nat.mod_lt _ (by omega)
  have h2 : imm.toNat / 32 < 128 := by have := imm.isLt; omega
  have h3 := Nat.div_add_mod imm.toNat 32
  generalize imm.toNat % 32 = q at *; generalize imm.toNat / 32 = p at *
  rw [digit 0 p (rs2.val * 1048576 + rs1.val * 32768 + f3.toNat * 4096 + q * 128 + 35) (by omega) h2
      (by omega),
    digit (p * 8192 + rs2.val * 256 + rs1.val * 8 + f3.toNat) q 35 (by omega) h1 (by omega)]
  omega
end S

/-- The pieces into which a branch offset is cut, with their bounds. -/
theorem branch_pieces (off : BitVec 13) : ∃ a b c d e, off.toNat = a * 4096 + b * 2048 + c * 32 + d * 2 + e ∧
    a < 2 ∧ b < 2 ∧ c < 64 ∧ d < 16 ∧ e < 2 ∧ off.toNat / 4096 = a ∧ off.toNat / 2048 % 2 = b ∧
    off.toNat / 32 % 64 = c ∧ off.toNat / 2 % 16 = d ∧ off.toNat % 2 = e := by
  have := off.isLt
  exact ⟨_, _, _, _, _, by omega, by omega, by omega, by omega, by omega, by omega, rfl, rfl, rfl, rfl, rfl⟩

/-- The pieces into which a JAL offset is cut, with their bounds. -/
theorem jal_pieces (off : BitVec 21) : ∃ a b c d e,
    off.toNat = a * 1048576 + b * 4096 + c * 2048 + d * 2 + e ∧
    a < 2 ∧ b < 256 ∧ c < 2 ∧ d < 1024 ∧ e < 2 ∧ off.toNat / 1048576 = a ∧ off.toNat / 4096 % 256 = b ∧
    off.toNat / 2048 % 2 = c ∧ off.toNat / 2 % 1024 = d ∧ off.toNat % 2 = e := by
  have := off.isLt
  exact ⟨_, _, _, _, _, by omega, by omega, by omega, by omega, by omega, by omega, rfl, rfl, rfl, rfl, rfl⟩

section B
variable (f3 : BitVec 3) (rs1 rs2 : Reg) (off : BitVec 13)

theorem opcodeField_encodeB : opcodeField (encodeB f3 rs1 rs2 off) = 0b1100011 := by
  apply BitVec.eq_of_toNat_eq; rw [opcodeField_toNat, encodeB_toNat]; simp; omega
theorem funct3Field_encodeB : funct3Field (encodeB f3 rs1 rs2 off) = f3 := by
  apply BitVec.eq_of_toNat_eq; rw [funct3Field_toNat, encodeB_toNat]
  obtain ⟨a, b, c, d, e, -, ha, hb, hc, hd, -, e1, e2, e3, e4, -⟩ := branch_pieces off
  rw [e1, e2, e3, e4]
  exact digit (a * 65536 + c * 1024 + rs2.val * 32 + rs1.val) _
    (d * 256 + b * 128 + 99) (by omega) f3.isLt (by omega)
theorem rs1Field_encodeB : rs1Field (encodeB f3 rs1 rs2 off) = rs1 := by
  apply reg_eq_of_val; rw [rs1Field_val, encodeB_toNat]; have := f3.isLt
  obtain ⟨a, b, c, d, e, -, ha, hb, hc, hd, -, e1, e2, e3, e4, -⟩ := branch_pieces off
  rw [e1, e2, e3, e4]
  exact digit (a * 2048 + c * 32 + rs2.val) _ (f3.toNat * 4096 + d * 256 + b * 128 + 99) (by omega)
    rs1.isLt (by omega)
theorem rs2Field_encodeB : rs2Field (encodeB f3 rs1 rs2 off) = rs2 := by
  apply reg_eq_of_val; rw [rs2Field_val, encodeB_toNat]; have := f3.isLt; have := rs1.isLt
  obtain ⟨a, b, c, d, e, -, ha, hb, hc, hd, -, e1, e2, e3, e4, -⟩ := branch_pieces off
  rw [e1, e2, e3, e4]
  exact digit (a * 64 + c) _ (rs1.val * 32768 + f3.toNat * 4096 + d * 256 + b * 128 + 99) (by omega)
    rs2.isLt (by omega)
/-- Bit 0 of a branch offset is the one bit an encoding does not store (R106). -/
theorem immBField_encodeB (h : off.toNat % 2 = 0) : immBField (encodeB f3 rs1 rs2 off) = off := by
  apply BitVec.eq_of_toNat_eq; rw [immBField_toNat, encodeB_toNat]
  have := f3.isLt; have := rs1.isLt; have := rs2.isLt
  obtain ⟨a, b, c, d, e, ho, ha, hb, hc, hd, -, e1, e2, e3, e4, e5⟩ := branch_pieces off
  rw [e1, e2, e3, e4]
  rw [digit 0 a (c * 33554432 + rs2.val * 1048576 + rs1.val * 32768 + f3.toNat * 4096 + d * 256 +
      b * 128 + 99) (by omega) ha (by omega),
    digit (a * 8388608 + c * 131072 + rs2.val * 4096 + rs1.val * 128 + f3.toNat * 16 + d) b 99 (by omega)
      hb (by omega),
    digit (A := 64) (B := 33554432) a c (rs2.val * 1048576 + rs1.val * 32768 + f3.toNat * 4096 + d * 256 +
      b * 128 + 99) (by omega) hc (by omega),
    digit (A := 16) (B := 256) (a * 524288 + c * 8192 + rs2.val * 256 + rs1.val * 8 + f3.toNat) d
      (b * 128 + 99) (by omega) hd (by omega)]
  omega
end B

section U
variable (op : BitVec 7) (rd : Reg) (imm20 : BitVec 20)

theorem opcodeField_encodeU : opcodeField (encodeU op rd imm20) = op := by
  apply BitVec.eq_of_toNat_eq; rw [opcodeField_toNat, encodeU_toNat]; have := op.isLt; omega
theorem rdField_encodeU : rdField (encodeU op rd imm20) = rd := by
  apply reg_eq_of_val; rw [rdField_val, encodeU_toNat]; have := op.isLt; have := rd.isLt; omega
theorem immUField_encodeU : immUField (encodeU op rd imm20) = imm20 := by
  apply BitVec.eq_of_toNat_eq; rw [immUField_toNat, encodeU_toNat]
  have := op.isLt; have := rd.isLt; have := imm20.isLt; omega
end U

section J
variable (rd : Reg) (off : BitVec 21)

theorem opcodeField_encodeJ : opcodeField (encodeJ rd off) = 0b1101111 := by
  apply BitVec.eq_of_toNat_eq; rw [opcodeField_toNat, encodeJ_toNat]; simp; omega
theorem rdField_encodeJ : rdField (encodeJ rd off) = rd := by
  apply reg_eq_of_val; rw [rdField_val, encodeJ_toNat]; have := rd.isLt; omega
/-- Bit 0 of a JAL offset is the one bit an encoding does not store (R108). -/
theorem immJField_encodeJ (h : off.toNat % 2 = 0) : immJField (encodeJ rd off) = off := by
  apply BitVec.eq_of_toNat_eq; rw [immJField_toNat, encodeJ_toNat]
  have := rd.isLt
  obtain ⟨a, b, c, d, e, ho, ha, hb, hc, hd, -, e1, e2, e3, e4, e5⟩ := jal_pieces off
  rw [e1, e2, e3, e4]
  rw [digit (A := 2) (B := 2147483648) 0 a (d * 2097152 + c * 1048576 + b * 4096 + rd.val * 128 + 111)
      (by omega) ha (by omega),
    digit (A := 256) (B := 4096) (a * 2048 + d * 2 + c) b (rd.val * 128 + 111) (by omega) hb (by omega),
    digit (A := 2) (B := 1048576) (a * 1024 + d) c (b * 4096 + rd.val * 128 + 111) (by omega) hc (by omega),
    digit (A := 1024) (B := 2097152) a d (c * 1048576 + b * 4096 + rd.val * 128 + 111) (by omega) hd
      (by omega)]
  omega
end J

theorem even_of_bit0 {n : Nat} {v : BitVec n} (h : v.getLsbD 0 = false) : v.toNat % 2 = 0 := by
  rw [BitVec.getLsbD, Nat.testBit_zero] at h
  simpa using h

/-! ## The word put together again from its fields -/

theorem encodeR_fields (w : Word) : encodeR (funct7Field w) (funct3Field w) (opcodeField w) (rdField w)
    (rs1Field w) (rs2Field w) = w := by
  apply BitVec.eq_of_toNat_eq
  rw [encodeR_toNat, funct7Field_toNat, funct3Field_toNat, opcodeField_toNat, rdField_val, rs1Field_val,
    rs2Field_val]
  have := w.isLt; omega
theorem encodeI_fields (w : Word) :
    encodeI (funct3Field w) (opcodeField w) (rdField w) (rs1Field w) (immIField w) = w := by
  apply BitVec.eq_of_toNat_eq
  rw [encodeI_toNat, funct3Field_toNat, opcodeField_toNat, rdField_val, rs1Field_val, immIField_toNat]
  have := w.isLt; omega
theorem encodeShift_fields (w : Word) (h : opcodeField w = 0b0010011) :
    encodeShift (funct7Field w) (funct3Field w) (rdField w) (rs1Field w) (shamtField w) = w := by
  apply BitVec.eq_of_toNat_eq
  have ho := congrArg BitVec.toNat h
  rw [opcodeField_toNat] at ho
  change w.toNat % 128 = 19 at ho
  rw [encodeShift_toNat, funct7Field_toNat, funct3Field_toNat, rdField_val, rs1Field_val, shamtField_toNat]
  have := w.isLt; omega
theorem encodeS_fields (w : Word) (h : opcodeField w = 0b0100011) :
    encodeS (funct3Field w) (rs2Field w) (rs1Field w) (immSField w) = w := by
  apply BitVec.eq_of_toNat_eq
  have ho := congrArg BitVec.toNat h
  rw [opcodeField_toNat] at ho
  change w.toNat % 128 = 35 at ho
  rw [encodeS_toNat, funct3Field_toNat, rs2Field_val, rs1Field_val, immSField_toNat]
  have := w.isLt; omega
theorem encodeB_fields (w : Word) (h : opcodeField w = 0b1100011) :
    encodeB (funct3Field w) (rs1Field w) (rs2Field w) (immBField w) = w := by
  apply BitVec.eq_of_toNat_eq
  have ho := congrArg BitVec.toNat h
  rw [opcodeField_toNat] at ho
  change w.toNat % 128 = 99 at ho
  obtain ⟨a, b, c, d, e, he, ha, hb, hc, hd, hle, e1, e2, e3, e4, -⟩ := branch_pieces (immBField w)
  rw [encodeB_toNat, e1, e2, e3, e4, funct3Field_toNat, rs2Field_val, rs1Field_val]
  rw [immBField_toNat] at he
  have := w.isLt
  have ea : w.toNat / 2147483648 % 2 = a := by omega
  have eb : w.toNat / 128 % 2 = b := by omega
  have ec : w.toNat / 33554432 % 64 = c := by omega
  have ed : w.toNat / 256 % 16 = d := by omega
  rw [← ea, ← eb, ← ec, ← ed]; clear he e1 e2 e3 e4 ea eb ec ed; omega
theorem encodeU_fields (w : Word) : encodeU (opcodeField w) (rdField w) (immUField w) = w := by
  apply BitVec.eq_of_toNat_eq
  rw [encodeU_toNat, opcodeField_toNat, rdField_val, immUField_toNat]
  have := w.isLt; omega
theorem encodeJ_fields (w : Word) (h : opcodeField w = 0b1101111) :
    encodeJ (rdField w) (immJField w) = w := by
  apply BitVec.eq_of_toNat_eq
  have ho := congrArg BitVec.toNat h
  rw [opcodeField_toNat] at ho
  change w.toNat % 128 = 111 at ho
  obtain ⟨a, b, c, d, e, he, ha, hb, hc, hd, hle, e1, e2, e3, e4, -⟩ := jal_pieces (immJField w)
  rw [encodeJ_toNat, e1, e2, e3, e4, rdField_val]
  rw [immJField_toNat] at he
  have := w.isLt
  have ea : w.toNat / 2147483648 % 2 = a := by omega
  have eb : w.toNat / 4096 % 256 = b := by omega
  have ec : w.toNat / 1048576 % 2 = c := by omega
  have ed : w.toNat / 2097152 % 1024 = d := by omega
  rw [← ea, ← eb, ← ec, ← ed]; clear he e1 e2 e3 e4 ea eb ec ed; omega

/-! ## The masks of the opcode table -/

theorem opcode_of_mask {w mask fixed : Word} (h : w &&& mask = fixed)
    (hm : mask.extractLsb' 0 7 = BitVec.allOnes 7) : opcodeField w = fixed.extractLsb' 0 7 := by
  subst h
  rw [BitVec.extractLsb'_and, hm, BitVec.and_allOnes, opcodeField]

theorem funct3_of_mask {w mask fixed : Word} (h : w &&& mask = fixed)
    (hm : mask.extractLsb' 12 3 = BitVec.allOnes 3) : funct3Field w = fixed.extractLsb' 12 3 := by
  subst h
  rw [BitVec.extractLsb'_and, hm, BitVec.and_allOnes, funct3Field]

theorem funct7_of_mask {w mask fixed : Word} (h : w &&& mask = fixed)
    (hm : mask.extractLsb' 25 7 = BitVec.allOnes 7) : funct7Field w = fixed.extractLsb' 25 7 := by
  subst h
  rw [BitVec.extractLsb'_and, hm, BitVec.and_allOnes, funct7Field]

set_option maxRecDepth 4000 in
/-- The mask of the rows that fix the opcode only. -/
theorem and_opcodeMask (w : Word) : w &&& (0x0000007F : Word) = (opcodeField w).setWidth 32 := by
  apply BitVec.eq_of_getLsbD_eq
  intro i hi
  have : (0x0000007F : Word).getLsbD i = decide (i < 7) := by revert i; decide
  simp only [BitVec.getLsbD_and, this, opcodeField, BitVec.getLsbD_setWidth, BitVec.getLsbD_extractLsb']
  simp [hi, Bool.and_comm]

set_option maxRecDepth 4000 in
/-- The mask of the rows that fix the opcode and funct3. -/
theorem and_funct3Mask (w : Word) : w &&& (0x0000707F : Word) =
    (opcodeField w).setWidth 32 ||| ((funct3Field w).setWidth 32 <<< 12) := by
  apply BitVec.eq_of_getLsbD_eq
  intro i hi
  have : (0x0000707F : Word).getLsbD i = (decide (i < 7) || (decide (12 ≤ i) && decide (i < 15))) := by
    revert i; decide
  rw [BitVec.getLsbD_and, this]
  simp only [opcodeField, funct3Field, BitVec.getLsbD_or, BitVec.getLsbD_shiftLeft,
    BitVec.getLsbD_setWidth, BitVec.getLsbD_extractLsb']
  grind

set_option maxRecDepth 4000 in
/-- The mask of the rows that fix the opcode, funct3 and bits [31:25]. -/
theorem and_funct7Mask (w : Word) : w &&& (0xFE00707F : Word) =
    (opcodeField w).setWidth 32 ||| ((funct3Field w).setWidth 32 <<< 12) |||
      ((funct7Field w).setWidth 32 <<< 25) := by
  apply BitVec.eq_of_getLsbD_eq
  intro i hi
  have : (0xFE00707F : Word).getLsbD i =
      (decide (i < 7) || (decide (12 ≤ i) && decide (i < 15)) || decide (25 ≤ i)) := by
    revert i; decide
  rw [BitVec.getLsbD_and, this]
  simp only [opcodeField, funct3Field, funct7Field, BitVec.getLsbD_or, BitVec.getLsbD_shiftLeft,
    BitVec.getLsbD_setWidth, BitVec.getLsbD_extractLsb']
  grind

/-- A word has a row's fixed bits exactly where its opcode is the row's. -/
theorem opcodeMask_iff {w m : Word} (hm : m &&& 0x0000007F = m) :
    w &&& 0x0000007F = m ↔ opcodeField w = opcodeField m := by
  constructor
  · intro h; exact opcode_of_mask h (by decide)
  · intro h; rw [and_opcodeMask, h, ← and_opcodeMask, hm]

/-- A word has a row's fixed bits exactly where its opcode and funct3 are the row's. -/
theorem funct3Mask_iff {w m : Word} (hm : m &&& 0x0000707F = m) :
    w &&& 0x0000707F = m ↔ opcodeField w = opcodeField m ∧ funct3Field w = funct3Field m := by
  constructor
  · intro h; exact ⟨opcode_of_mask h (by decide), funct3_of_mask h (by decide)⟩
  · rintro ⟨h, h3⟩; rw [and_funct3Mask, h, h3, ← and_funct3Mask, hm]

/-- A word has a row's fixed bits exactly where its opcode, funct3 and bits [31:25] are the row's. -/
theorem funct7Mask_iff {w m : Word} (hm : m &&& 0xFE00707F = m) :
    w &&& 0xFE00707F = m ↔
      opcodeField w = opcodeField m ∧ funct3Field w = funct3Field m ∧ funct7Field w = funct7Field m := by
  constructor
  · intro h
    exact ⟨opcode_of_mask h (by decide), funct3_of_mask h (by decide), funct7_of_mask h (by decide)⟩
  · rintro ⟨h, h3, h7⟩; rw [and_funct7Mask, h, h3, h7, ← and_funct7Mask, hm]

end Sys2Proof
end

