-- ==== Sys2Proof/Laws/Inversion.lean ====
section
/-! SUPPORT. The decoder inverted: what a word that decodes looks like, for every constructor at once. -/

namespace Sys2Proof

/-- The instruction of the same constructor whose operands are the fields of the word `w` (R101 to R109). -/
def Instr.operandsOf (w : Word) : Instr → Instr
  | .add .. => .add (rdField w) (rs1Field w) (rs2Field w)
  | .sub .. => .sub (rdField w) (rs1Field w) (rs2Field w)
  | .sll .. => .sll (rdField w) (rs1Field w) (rs2Field w)
  | .slt .. => .slt (rdField w) (rs1Field w) (rs2Field w)
  | .sltu .. => .sltu (rdField w) (rs1Field w) (rs2Field w)
  | .xor .. => .xor (rdField w) (rs1Field w) (rs2Field w)
  | .srl .. => .srl (rdField w) (rs1Field w) (rs2Field w)
  | .sra .. => .sra (rdField w) (rs1Field w) (rs2Field w)
  | .or .. => .or (rdField w) (rs1Field w) (rs2Field w)
  | .and .. => .and (rdField w) (rs1Field w) (rs2Field w)
  | .mul .. => .mul (rdField w) (rs1Field w) (rs2Field w)
  | .div .. => .div (rdField w) (rs1Field w) (rs2Field w)
  | .divu .. => .divu (rdField w) (rs1Field w) (rs2Field w)
  | .addi .. => .addi (rdField w) (rs1Field w) (immIField w)
  | .slti .. => .slti (rdField w) (rs1Field w) (immIField w)
  | .sltiu .. => .sltiu (rdField w) (rs1Field w) (immIField w)
  | .xori .. => .xori (rdField w) (rs1Field w) (immIField w)
  | .ori .. => .ori (rdField w) (rs1Field w) (immIField w)
  | .andi .. => .andi (rdField w) (rs1Field w) (immIField w)
  | .slli .. => .slli (rdField w) (rs1Field w) (shamtField w)
  | .srli .. => .srli (rdField w) (rs1Field w) (shamtField w)
  | .srai .. => .srai (rdField w) (rs1Field w) (shamtField w)
  | .lui .. => .lui (rdField w) (immUField w)
  | .auipc .. => .auipc (rdField w) (immUField w)
  | .lb .. => .lb (rdField w) (rs1Field w) (immIField w)
  | .lh .. => .lh (rdField w) (rs1Field w) (immIField w)
  | .lw .. => .lw (rdField w) (rs1Field w) (immIField w)
  | .lbu .. => .lbu (rdField w) (rs1Field w) (immIField w)
  | .lhu .. => .lhu (rdField w) (rs1Field w) (immIField w)
  | .sb .. => .sb (rs2Field w) (rs1Field w) (immSField w)
  | .sh .. => .sh (rs2Field w) (rs1Field w) (immSField w)
  | .sw .. => .sw (rs2Field w) (rs1Field w) (immSField w)
  | .beq .. => .beq (rs1Field w) (rs2Field w) (immBField w)
  | .bne .. => .bne (rs1Field w) (rs2Field w) (immBField w)
  | .blt .. => .blt (rs1Field w) (rs2Field w) (immBField w)
  | .bge .. => .bge (rs1Field w) (rs2Field w) (immBField w)
  | .bltu .. => .bltu (rs1Field w) (rs2Field w) (immBField w)
  | .bgeu .. => .bgeu (rs1Field w) (rs2Field w) (immBField w)
  | .jal .. => .jal (rdField w) (immJField w)
  | .jalr .. => .jalr (rdField w) (rs1Field w) (immIField w)
  | .ecall => .ecall

theorem row7_of {w m : Word} {op : BitVec 7} {f3 : BitVec 3} {f7 : BitVec 7} (h : opcodeField w = op)
    (h3 : funct3Field w = f3) (h7 : funct7Field w = f7)
    (hm : m &&& 0xFE00707F = m ∧ opcodeField m = op ∧ funct3Field m = f3 ∧ funct7Field m = f7) :
    w &&& 0xFE00707F = m :=
  (funct7Mask_iff hm.1).2 ⟨h.trans hm.2.1.symm, h3.trans hm.2.2.1.symm, h7.trans hm.2.2.2.symm⟩

theorem row3_of {w m : Word} {op : BitVec 7} {f3 : BitVec 3} (h : opcodeField w = op)
    (h3 : funct3Field w = f3) (hm : m &&& 0x0000707F = m ∧ opcodeField m = op ∧ funct3Field m = f3) :
    w &&& 0x0000707F = m :=
  (funct3Mask_iff hm.1).2 ⟨h.trans hm.2.1.symm, h3.trans hm.2.2.symm⟩

theorem row1_of {w m : Word} {op : BitVec 7} (h : opcodeField w = op)
    (hm : m &&& 0x0000007F = m ∧ opcodeField m = op) : w &&& 0x0000007F = m :=
  (opcodeMask_iff hm.1).2 (h.trans hm.2.symm)

theorem decodeOp_ok {w : Word} {i : Instr} (ho : opcodeField w = 0b0110011) (h : decodeOp w = .ok i) :
    w &&& i.rowMask = i.rowMatch ∧ i = i.operandsOf w := by
  unfold decodeOp at h
  simp only at h
  split at h <;> simp only [Except.ok.injEq, reduceCtorEq] at h
  all_goals
    rename_i h7 h3
    subst h
    exact ⟨row7_of ho h3 h7 (by simp only [Instr.rowMatch]; decide), rfl⟩

theorem decodeShiftLeftImm_ok {w : Word} {i : Instr} (ho : opcodeField w = 0b0010011)
    (h3 : funct3Field w = 0b001) (h : decodeShiftLeftImm w = .ok i) :
    w &&& i.rowMask = i.rowMatch ∧ i = i.operandsOf w := by
  unfold decodeShiftLeftImm at h
  split at h <;> simp only [Except.ok.injEq, reduceCtorEq] at h
  rename_i h7
  subst h
  exact ⟨row7_of ho h3 h7 (by simp only [Instr.rowMatch]; decide), rfl⟩

theorem decodeShiftRightImm_ok {w : Word} {i : Instr} (ho : opcodeField w = 0b0010011)
    (h3 : funct3Field w = 0b101) (h : decodeShiftRightImm w = .ok i) :
    w &&& i.rowMask = i.rowMatch ∧ i = i.operandsOf w := by
  unfold decodeShiftRightImm at h
  split at h <;> simp only [Except.ok.injEq, reduceCtorEq] at h
  all_goals
    rename_i h7
    subst h
    exact ⟨row7_of ho h3 h7 (by simp only [Instr.rowMatch]; decide), rfl⟩

theorem decodeOpImm_ok {w : Word} {i : Instr} (ho : opcodeField w = 0b0010011) (h : decodeOpImm w = .ok i) :
    w &&& i.rowMask = i.rowMatch ∧ i = i.operandsOf w := by
  unfold decodeOpImm at h
  simp only at h
  split at h
  case h_2 => exact decodeShiftLeftImm_ok ho (by assumption) h
  case h_6 => exact decodeShiftRightImm_ok ho (by assumption) h
  all_goals
    simp only [Except.ok.injEq] at h
    rename_i h3
    subst h
    exact ⟨row3_of ho h3 (by simp only [Instr.rowMatch]; decide), rfl⟩

theorem decodeLoad_ok {w : Word} {i : Instr} (ho : opcodeField w = 0b0000011) (h : decodeLoad w = .ok i) :
    w &&& i.rowMask = i.rowMatch ∧ i = i.operandsOf w := by
  unfold decodeLoad at h
  simp only at h
  split at h <;> simp only [Except.ok.injEq, reduceCtorEq] at h
  all_goals
    rename_i h3
    subst h
    exact ⟨row3_of ho h3 (by simp only [Instr.rowMatch]; decide), rfl⟩

theorem decodeStore_ok {w : Word} {i : Instr} (ho : opcodeField w = 0b0100011) (h : decodeStore w = .ok i) :
    w &&& i.rowMask = i.rowMatch ∧ i = i.operandsOf w := by
  unfold decodeStore at h
  simp only at h
  split at h <;> simp only [Except.ok.injEq, reduceCtorEq] at h
  all_goals
    rename_i h3
    subst h
    exact ⟨row3_of ho h3 (by simp only [Instr.rowMatch]; decide), rfl⟩

theorem decodeBranch_ok {w : Word} {i : Instr} (ho : opcodeField w = 0b1100011) (h : decodeBranch w = .ok i) :
    w &&& i.rowMask = i.rowMatch ∧ i = i.operandsOf w := by
  unfold decodeBranch at h
  simp only at h
  split at h <;> simp only [Except.ok.injEq, reduceCtorEq] at h
  all_goals
    rename_i h3
    subst h
    exact ⟨row3_of ho h3 (by simp only [Instr.rowMatch]; decide), rfl⟩

/-- What a word decodes to has the word's fixed bits and the word's fields. -/
theorem decode_ok {w : Word} {i : Instr} (h : decode w = .ok i) :
    w &&& i.rowMask = i.rowMatch ∧ i = i.operandsOf w := by
  unfold decode at h
  split at h
  case h_1 => exact decodeOp_ok (by assumption) h
  case h_2 => exact decodeOpImm_ok (by assumption) h
  case h_5 => exact decodeLoad_ok (by assumption) h
  case h_6 => exact decodeStore_ok (by assumption) h
  case h_7 => exact decodeBranch_ok (by assumption) h
  all_goals
    simp only [Except.ok.injEq, reduceCtorEq] at h
  all_goals
    rename_i ho
    subst h
    exact ⟨row1_of ho (by simp only [Instr.rowMatch]; decide), rfl⟩

/-- Every row fixes the opcode. -/
theorem opcodeField_of_row {w : Word} (i : Instr) (h : w &&& i.rowMask = i.rowMatch) :
    opcodeField w = opcodeField i.rowMatch :=
  opcode_of_mask h (by cases i <;> (simp only [Instr.rowMask]; decide))

/-- A word with a row's fixed bits decodes to that row's constructor with the word's fields. -/
theorem decode_of_row {w : Word} (i : Instr) (h : w &&& i.rowMask = i.rowMatch) :
    decode w = .ok (i.operandsOf w) := by
  cases i <;>
  simp only [Instr.rowMask, Instr.rowMatch] at h <;>
  first
  | (obtain ⟨h1, h2, h3⟩ := (funct7Mask_iff (by decide)).1 h
     simp only [decode, h1, decodeOp, decodeOpImm, decodeShiftLeftImm, decodeShiftRightImm, h2, h3]
     rfl)
  | (obtain ⟨h1, h2⟩ := (funct3Mask_iff (by decide)).1 h
     simp only [decode, h1, decodeOpImm, decodeLoad, decodeStore, decodeBranch, h2]
     rfl)
  | (have h1 := (opcodeMask_iff (by decide)).1 h
     simp only [decode, h1]
     rfl)

/-- The decoder, inverted. -/
theorem decode_ok_iff {w : Word} {i : Instr} :
    decode w = .ok i ↔ w &&& i.rowMask = i.rowMatch ∧ i = i.operandsOf w := by
  constructor
  · exact decode_ok
  · rintro ⟨h, hi⟩
    rw [decode_of_row i h, ← hi]

end Sys2Proof
end

