-- ==== Sys2Proof/Laws/Step.lean ====
section
/-! SUPPORT. The step over `exec`: how a step begins, how each frame of the execute part becomes the frame
of a whole step, and the case analysis of a step. -/

namespace Sys2Proof.Machine

/-! ## The begun state -/

@[simp] theorem State.begun_readReg (s : State) (r : Reg) : s.begun.readReg r = s.readReg r := rfl
@[simp] theorem State.begun_hardwired (s : State) (r : Reg) : s.begun.hardwired r = s.hardwired r := rfl
@[simp] theorem State.begun_readByte (s : State) (a : Word) : s.begun.readByte a = s.readByte a := rfl
@[simp] theorem State.begun_memRead32 (s : State) (a : Word) : s.begun.memRead32 a = s.memRead32 a := rfl
@[simp] theorem State.begun_effectiveAddress (s : State) (rs1 : Reg) (imm : BitVec 12) :
    s.begun.effectiveAddress rs1 imm = s.effectiveAddress rs1 imm := rfl

/-! ## A step on a fetched word -/

theorem Fetches.mayStep {s : State} {w : Word} (h : Fetches s w) : s.mayStep = true :=
  (State.mayStep_iff s).2 ⟨h.running, h.unfaulted⟩

theorem step_of_stopped {s : State} (h : s.mayStep = false) : step s = .next s := by simp [step, h]

theorem step_of_mayStep {s : State} (h : s.mayStep = true) : step s = cycle s := by simp [step, h]

theorem cycle_of_fetchable {s : State} (h : accessFault s.cfg .word s.cur.pc = none) :
    cycle s = afterExecute (executeWord s.fetchWord s.begun) := by simp [cycle, h]

theorem cycle_of_fetchFault {s : State} {f : Fault} (h : accessFault s.cfg .word s.cur.pc = some f) :
    cycle s = .next (s.clearDiagnostics.raise f) := by simp [cycle, h]

theorem step_of_fetches {s : State} {w : Word} (h : Fetches s w) :
    step s = afterExecute (executeWord w s.begun) := by
  rw [step_of_mayStep h.mayStep, cycle_of_fetchable h.fetchable, State.fetchWord, h.word]

/-- A step on a word that decodes: what `exec` answers in the begun state, then the commit. -/
theorem step_of_exec {s t : State} {w : Word} {i : Instr} (h : Fetches s w) (hd : decode w = .ok i)
    (he : exec i s.begun = .next t) : step s = .next t.commitUnlessFaulted := by
  simp [step_of_fetches h, executeWord, hd, he, afterExecute]

/-! ## From the frame of the execute part to the frame of the step -/

section Frames
variable {s t : State} {w : Word}

theorem WritesOnly.step {rd : Reg} {v : Word} {missed : Bool} (h : Fetches s w)
    (hw : WritesOnly s.begun t rd v missed) :
    StepWrites s t.commitUnlessFaulted rd v (s.cur.pc + 4) missed := by
  have hf : t.fault = none := by rw [hw.fault]; exact h.unfaulted
  rw [State.commitUnlessFaulted_none hf]
  have hn : s.nxt = s.cur := h.snapshots.symm
  refine ⟨⟨rfl, ?_, ?_, ?_, hf, ?_⟩, ?_, ?_, ?_, ?_, ?_, ?_⟩
  · simp [hw.icount]
  · simp [hw.decodeMiss]
  · simp [hw.memMiss]
  · simp [hw.cfg]
  · intro hh; exact hw.result (by simpa using hh)
  · intro hh
    have := hw.discarded (by simpa using hh)
    simpa [hn] using this
  · intro r hr
    have := hw.others r hr
    simpa [hn] using this
  · simp [hw.nextPc]
  · simp [hw.mem]
  · simp [hw.run]

theorem LinksAndJumps.step {rd : Reg} {v pc : Word} (h : Fetches s w)
    (hw : LinksAndJumps s.begun t rd v pc) : StepWrites s t.commitUnlessFaulted rd v pc false := by
  have hf : t.fault = none := by rw [hw.fault]; exact h.unfaulted
  rw [State.commitUnlessFaulted_none hf]
  have hn : s.nxt = s.cur := h.snapshots.symm
  refine ⟨⟨rfl, ?_, ?_, ?_, hf, ?_⟩, ?_, ?_, ?_, ?_, ?_, ?_⟩
  · simp [hw.icount]
  · simp [hw.decodeMiss]
  · simp [hw.memMiss]
  · simp [hw.cfg]
  · intro hh; exact hw.result (by simpa using hh)
  · intro hh
    have := hw.discarded (by simpa using hh)
    simpa [hn] using this
  · intro r hr
    have := hw.others r hr
    simpa [hn] using this
  · simp [hw.nextPc]
  · simp [hw.mem]
  · simp [hw.run]

theorem SetsPcAndRun.step {pc : Word} {run : Bool} (h : Fetches s w) (hw : SetsPcAndRun s.begun t pc run) :
    StepGoesTo s t.commitUnlessFaulted pc run false := by
  have hf : t.fault = none := by rw [hw.fault]; exact h.unfaulted
  rw [State.commitUnlessFaulted_none hf]
  have hn : s.nxt = s.cur := h.snapshots.symm
  refine ⟨⟨rfl, ?_, ?_, ?_, hf, ?_⟩, ?_, ?_, ?_, ?_⟩
  · simp [hw.icount]
  · simp [hw.decodeMiss]
  · simp [hw.memMiss]
  · simp [hw.cfg]
  · intro r
    have := hw.regs r
    simpa [hn] using this
  · simp [hw.nextPc]
  · simp [hw.mem]
  · simp [hw.run]

theorem StoresOnly.step {n : Nat} {ea v : Word} {missed : Bool} (h : Fetches s w)
    (hw : StoresOnly s.begun t n ea v missed) : StepStores s t.commitUnlessFaulted n ea v missed := by
  have hf : t.fault = none := by rw [hw.fault]; exact h.unfaulted
  rw [State.commitUnlessFaulted_none hf]
  have hn : s.nxt = s.cur := h.snapshots.symm
  refine ⟨⟨rfl, ?_, ?_, ?_, hf, ?_⟩, ⟨hw.bytes.stored, hw.bytes.dropped, hw.bytes.others⟩, ?_, ?_, ?_⟩
  · simp [hw.icount]
  · simp [hw.decodeMiss]
  · simp [hw.memMiss]
  · simp [hw.cfg]
  · intro r; simp [hw.nxt, hn]
  · simp [hw.nxt]
  · simp [hw.run]

theorem RaisesOnly.step {f : Fault} (hw : RaisesOnly s.begun t f) :
    StepFaults s t.commitUnlessFaulted f := by
  rw [State.commitUnlessFaulted_some hw.fault]
  exact ⟨hw.fault, hw.cur, hw.nxt, hw.mem, hw.run, hw.icount, hw.cfg⟩

end Frames

/-- A fault on the fetch. -/
theorem stepFaults_fetch (s : State) (f : Fault) : StepFaults s (s.clearDiagnostics.raise f) f := by
  constructor <;> simp

/-! ## The case analysis of a step -/

/-- What one step does: nothing where the machine is stopped, a fault on the fetch, a step on an
unrecognized word under either policy, or an instruction's effect followed by the commit. -/
theorem step_cases (s : State) :
    (s.mayStep = false ∧ step s = .next s) ∨
    (s.mayStep = true ∧ ∃ f, accessFault s.cfg .word s.cur.pc = some f ∧
      step s = .next (s.clearDiagnostics.raise f)) ∨
    (s.mayStep = true ∧ accessFault s.cfg .word s.cur.pc = none ∧
      ∃ e, decode (s.memRead32 s.cur.pc) = .error e ∧
        ((s.cfg.decodeMiss = .nop ∧ step s = .next s.begun.noteDecodeMiss.commitUnlessFaulted) ∨
         (s.cfg.decodeMiss = .fault ∧
          step s = .next (s.begun.raise (.decode s.cur.pc (s.memRead32 s.cur.pc)))))) ∨
    (s.mayStep = true ∧ accessFault s.cfg .word s.cur.pc = none ∧
      ∃ i t, decode (s.memRead32 s.cur.pc) = .ok i ∧ exec i s.begun = .next t ∧ Effect i s.begun t ∧
        step s = .next t.commitUnlessFaulted) := by
  cases hm : s.mayStep with
  | false => exact .inl ⟨rfl, step_of_stopped hm⟩
  | true =>
    refine .inr ?_
    cases hf : accessFault s.cfg .word s.cur.pc with
    | some f => exact .inl ⟨rfl, f, rfl, by rw [step_of_mayStep hm, cycle_of_fetchFault hf]⟩
    | none =>
      refine .inr ?_
      have hs : step s = afterExecute (executeWord (s.memRead32 s.cur.pc) s.begun) := by
        rw [step_of_mayStep hm, cycle_of_fetchable hf, State.fetchWord]
      cases hd : decode (s.memRead32 s.cur.pc) with
      | error e =>
        refine .inl ⟨rfl, rfl, e, rfl, ?_⟩
        cases hp : s.cfg.decodeMiss with
        | nop => exact .inl ⟨rfl, by simp [hs, executeWord, hd, execUnrecognized, hp, afterExecute]⟩
        | fault =>
          refine .inr ⟨rfl, ?_⟩
          simp [hs, executeWord, hd, execUnrecognized, hp, afterExecute,
            State.commitUnlessFaulted_some (State.raise_fault _ _)]
      | ok i =>
        obtain ⟨t, ht, he⟩ := exec_effect i s.begun
        exact .inr ⟨rfl, rfl, i, t, rfl, ht, he, by simp [hs, executeWord, hd, ht, afterExecute]⟩

/-- A step always answers a next state: no fault and no refusal stops the model. -/
theorem step_next (s : State) : ∃ t, step s = .next t := by
  rcases step_cases s with ⟨-, h⟩ | ⟨-, f, -, h⟩ | ⟨-, -, e, -, ⟨-, h⟩ | ⟨-, h⟩⟩ | ⟨-, -, i, t, -, -, -, h⟩ <;>
    exact ⟨_, h⟩

end Sys2Proof.Machine
end

