-- ==== Sys2Proof/Laws/Host.lean ====
section
/-! SUPPORT. RUN_N over the step: one turn at a time, and none where the machine is stopped. -/

namespace Sys2Proof.Machine

@[simp] theorem runN_zero (s : State) : runN 0 s = .next s := rfl

/-- A stopped machine performs no step, however many are asked for (R164). -/
theorem runN_of_stopped {s : State} (h : s.mayStep = false) (n : Nat) : runN n s = .next s := by
  cases n <;> simp [runN, h]

/-- One turn of RUN_N is one `step`. -/
theorem runN_succ_of_step {s t : State} (n : Nat) (h : step s = .next t) : runN (n + 1) s = runN n t := by
  cases hm : s.mayStep with
  | false =>
    rw [step_of_stopped hm] at h
    cases h
    rw [runN_of_stopped hm, runN_of_stopped hm]
  | true =>
    rw [step_of_mayStep hm] at h
    simp [runN, hm, h]

/-- RUN_N always answers a next state. -/
theorem runN_next (n : Nat) : ∀ s : State, ∃ t, runN n s = .next t := by
  induction n with
  | zero => intro s; exact ⟨s, rfl⟩
  | succ n ih =>
    intro s
    obtain ⟨u, hu⟩ := step_next s
    rw [runN_succ_of_step n hu]
    exact ih u

end Sys2Proof.Machine
end

