-- ==== Sys2Proof/Laws/PerInstr.lean ====
section
/-! SUPPORT. Per-instruction family EncodeRow: the word the encoder gives an instruction has the fixed bits
of its row of opcode_table.json (30_encoding.md R118). One lemma for each constructor. -/

open Sys2Proof

/-- The encoded word, masked with the row's mask, is the row's match value. -/
def Sys2Proof.Laws.EncodeRow.Statement (i : Instr) : Prop := encode i &&& i.rowMask = i.rowMatch

theorem Sys2Proof.Laws.EncodeRow.add (rd rs1 rs2 : Reg) :
    Sys2Proof.Laws.EncodeRow.Statement (Instr.add rd rs1 rs2) :=
  row7_of (opcodeField_encodeR ..) (funct3Field_encodeR ..) (funct7Field_encodeR ..)
    (by simp only [Instr.rowMatch]; decide)
theorem Sys2Proof.Laws.EncodeRow.sub (rd rs1 rs2 : Reg) :
    Sys2Proof.Laws.EncodeRow.Statement (Instr.sub rd rs1 rs2) :=
  row7_of (opcodeField_encodeR ..) (funct3Field_encodeR ..) (funct7Field_encodeR ..)
    (by simp only [Instr.rowMatch]; decide)
theorem Sys2Proof.Laws.EncodeRow.sll (rd rs1 rs2 : Reg) :
    Sys2Proof.Laws.EncodeRow.Statement (Instr.sll rd rs1 rs2) :=
  row7_of (opcodeField_encodeR ..) (funct3Field_encodeR ..) (funct7Field_encodeR ..)
    (by simp only [Instr.rowMatch]; decide)
theorem Sys2Proof.Laws.EncodeRow.slt (rd rs1 rs2 : Reg) :
    Sys2Proof.Laws.EncodeRow.Statement (Instr.slt rd rs1 rs2) :=
  row7_of (opcodeField_encodeR ..) (funct3Field_encodeR ..) (funct7Field_encodeR ..)
    (by simp only [Instr.rowMatch]; decide)
theorem Sys2Proof.Laws.EncodeRow.sltu (rd rs1 rs2 : Reg) :
    Sys2Proof.Laws.EncodeRow.Statement (Instr.sltu rd rs1 rs2) :=
  row7_of (opcodeField_encodeR ..) (funct3Field_encodeR ..) (funct7Field_encodeR ..)
    (by simp only [Instr.rowMatch]; decide)
theorem Sys2Proof.Laws.EncodeRow.xor (rd rs1 rs2 : Reg) :
    Sys2Proof.Laws.EncodeRow.Statement (Instr.xor rd rs1 rs2) :=
  row7_of (opcodeField_encodeR ..) (funct3Field_encodeR ..) (funct7Field_encodeR ..)
    (by simp only [Instr.rowMatch]; decide)
theorem Sys2Proof.Laws.EncodeRow.srl (rd rs1 rs2 : Reg) :
    Sys2Proof.Laws.EncodeRow.Statement (Instr.srl rd rs1 rs2) :=
  row7_of (opcodeField_encodeR ..) (funct3Field_encodeR ..) (funct7Field_encodeR ..)
    (by simp only [Instr.rowMatch]; decide)
theorem Sys2Proof.Laws.EncodeRow.sra (rd rs1 rs2 : Reg) :
    Sys2Proof.Laws.EncodeRow.Statement (Instr.sra rd rs1 rs2) :=
  row7_of (opcodeField_encodeR ..) (funct3Field_encodeR ..) (funct7Field_encodeR ..)
    (by simp only [Instr.rowMatch]; decide)
theorem Sys2Proof.Laws.EncodeRow.or (rd rs1 rs2 : Reg) :
    Sys2Proof.Laws.EncodeRow.Statement (Instr.or rd rs1 rs2) :=
  row7_of (opcodeField_encodeR ..) (funct3Field_encodeR ..) (funct7Field_encodeR ..)
    (by simp only [Instr.rowMatch]; decide)
theorem Sys2Proof.Laws.EncodeRow.and (rd rs1 rs2 : Reg) :
    Sys2Proof.Laws.EncodeRow.Statement (Instr.and rd rs1 rs2) :=
  row7_of (opcodeField_encodeR ..) (funct3Field_encodeR ..) (funct7Field_encodeR ..)
    (by simp only [Instr.rowMatch]; decide)
theorem Sys2Proof.Laws.EncodeRow.mul (rd rs1 rs2 : Reg) :
    Sys2Proof.Laws.EncodeRow.Statement (Instr.mul rd rs1 rs2) :=
  row7_of (opcodeField_encodeR ..) (funct3Field_encodeR ..) (funct7Field_encodeR ..)
    (by simp only [Instr.rowMatch]; decide)
theorem Sys2Proof.Laws.EncodeRow.div (rd rs1 rs2 : Reg) :
    Sys2Proof.Laws.EncodeRow.Statement (Instr.div rd rs1 rs2) :=
  row7_of (opcodeField_encodeR ..) (funct3Field_encodeR ..) (funct7Field_encodeR ..)
    (by simp only [Instr.rowMatch]; decide)
theorem Sys2Proof.Laws.EncodeRow.divu (rd rs1 rs2 : Reg) :
    Sys2Proof.Laws.EncodeRow.Statement (Instr.divu rd rs1 rs2) :=
  row7_of (opcodeField_encodeR ..) (funct3Field_encodeR ..) (funct7Field_encodeR ..)
    (by simp only [Instr.rowMatch]; decide)
theorem Sys2Proof.Laws.EncodeRow.addi (rd rs1 : Reg) (imm : BitVec 12) :
    Sys2Proof.Laws.EncodeRow.Statement (Instr.addi rd rs1 imm) :=
  row3_of (opcodeField_encodeI ..) (funct3Field_encodeI ..) (by simp only [Instr.rowMatch]; decide)
theorem Sys2Proof.Laws.EncodeRow.slti (rd rs1 : Reg) (imm : BitVec 12) :
    Sys2Proof.Laws.EncodeRow.Statement (Instr.slti rd rs1 imm) :=
  row3_of (opcodeField_encodeI ..) (funct3Field_encodeI ..) (by simp only [Instr.rowMatch]; decide)
theorem Sys2Proof.Laws.EncodeRow.sltiu (rd rs1 : Reg) (imm : BitVec 12) :
    Sys2Proof.Laws.EncodeRow.Statement (Instr.sltiu rd rs1 imm) :=
  row3_of (opcodeField_encodeI ..) (funct3Field_encodeI ..) (by simp only [Instr.rowMatch]; decide)
theorem Sys2Proof.Laws.EncodeRow.xori (rd rs1 : Reg) (imm : BitVec 12) :
    Sys2Proof.Laws.EncodeRow.Statement (Instr.xori rd rs1 imm) :=
  row3_of (opcodeField_encodeI ..) (funct3Field_encodeI ..) (by simp only [Instr.rowMatch]; decide)
theorem Sys2Proof.Laws.EncodeRow.ori (rd rs1 : Reg) (imm : BitVec 12) :
    Sys2Proof.Laws.EncodeRow.Statement (Instr.ori rd rs1 imm) :=
  row3_of (opcodeField_encodeI ..) (funct3Field_encodeI ..) (by simp only [Instr.rowMatch]; decide)
theorem Sys2Proof.Laws.EncodeRow.andi (rd rs1 : Reg) (imm : BitVec 12) :
    Sys2Proof.Laws.EncodeRow.Statement (Instr.andi rd rs1 imm) :=
  row3_of (opcodeField_encodeI ..) (funct3Field_encodeI ..) (by simp only [Instr.rowMatch]; decide)
theorem Sys2Proof.Laws.EncodeRow.slli (rd rs1 : Reg) (shamt : BitVec 5) :
    Sys2Proof.Laws.EncodeRow.Statement (Instr.slli rd rs1 shamt) :=
  row7_of (opcodeField_encodeShift ..) (funct3Field_encodeShift ..) (funct7Field_encodeShift ..)
    (by simp only [Instr.rowMatch]; decide)
theorem Sys2Proof.Laws.EncodeRow.srli (rd rs1 : Reg) (shamt : BitVec 5) :
    Sys2Proof.Laws.EncodeRow.Statement (Instr.srli rd rs1 shamt) :=
  row7_of (opcodeField_encodeShift ..) (funct3Field_encodeShift ..) (funct7Field_encodeShift ..)
    (by simp only [Instr.rowMatch]; decide)
theorem Sys2Proof.Laws.EncodeRow.srai (rd rs1 : Reg) (shamt : BitVec 5) :
    Sys2Proof.Laws.EncodeRow.Statement (Instr.srai rd rs1 shamt) :=
  row7_of (opcodeField_encodeShift ..) (funct3Field_encodeShift ..) (funct7Field_encodeShift ..)
    (by simp only [Instr.rowMatch]; decide)
theorem Sys2Proof.Laws.EncodeRow.lui (rd : Reg) (imm20 : BitVec 20) :
    Sys2Proof.Laws.EncodeRow.Statement (Instr.lui rd imm20) :=
  row1_of (opcodeField_encodeU ..) (by simp only [Instr.rowMatch]; decide)
theorem Sys2Proof.Laws.EncodeRow.auipc (rd : Reg) (imm20 : BitVec 20) :
    Sys2Proof.Laws.EncodeRow.Statement (Instr.auipc rd imm20) :=
  row1_of (opcodeField_encodeU ..) (by simp only [Instr.rowMatch]; decide)
theorem Sys2Proof.Laws.EncodeRow.lb (rd rs1 : Reg) (imm : BitVec 12) :
    Sys2Proof.Laws.EncodeRow.Statement (Instr.lb rd rs1 imm) :=
  row3_of (opcodeField_encodeI ..) (funct3Field_encodeI ..) (by simp only [Instr.rowMatch]; decide)
theorem Sys2Proof.Laws.EncodeRow.lh (rd rs1 : Reg) (imm : BitVec 12) :
    Sys2Proof.Laws.EncodeRow.Statement (Instr.lh rd rs1 imm) :=
  row3_of (opcodeField_encodeI ..) (funct3Field_encodeI ..) (by simp only [Instr.rowMatch]; decide)
theorem Sys2Proof.Laws.EncodeRow.lw (rd rs1 : Reg) (imm : BitVec 12) :
    Sys2Proof.Laws.EncodeRow.Statement (Instr.lw rd rs1 imm) :=
  row3_of (opcodeField_encodeI ..) (funct3Field_encodeI ..) (by simp only [Instr.rowMatch]; decide)
theorem Sys2Proof.Laws.EncodeRow.lbu (rd rs1 : Reg) (imm : BitVec 12) :
    Sys2Proof.Laws.EncodeRow.Statement (Instr.lbu rd rs1 imm) :=
  row3_of (opcodeField_encodeI ..) (funct3Field_encodeI ..) (by simp only [Instr.rowMatch]; decide)
theorem Sys2Proof.Laws.EncodeRow.lhu (rd rs1 : Reg) (imm : BitVec 12) :
    Sys2Proof.Laws.EncodeRow.Statement (Instr.lhu rd rs1 imm) :=
  row3_of (opcodeField_encodeI ..) (funct3Field_encodeI ..) (by simp only [Instr.rowMatch]; decide)
theorem Sys2Proof.Laws.EncodeRow.sb (rs2 rs1 : Reg) (imm : BitVec 12) :
    Sys2Proof.Laws.EncodeRow.Statement (Instr.sb rs2 rs1 imm) :=
  row3_of (opcodeField_encodeS ..) (funct3Field_encodeS ..) (by simp only [Instr.rowMatch]; decide)
theorem Sys2Proof.Laws.EncodeRow.sh (rs2 rs1 : Reg) (imm : BitVec 12) :
    Sys2Proof.Laws.EncodeRow.Statement (Instr.sh rs2 rs1 imm) :=
  row3_of (opcodeField_encodeS ..) (funct3Field_encodeS ..) (by simp only [Instr.rowMatch]; decide)
theorem Sys2Proof.Laws.EncodeRow.sw (rs2 rs1 : Reg) (imm : BitVec 12) :
    Sys2Proof.Laws.EncodeRow.Statement (Instr.sw rs2 rs1 imm) :=
  row3_of (opcodeField_encodeS ..) (funct3Field_encodeS ..) (by simp only [Instr.rowMatch]; decide)
theorem Sys2Proof.Laws.EncodeRow.beq (rs1 rs2 : Reg) (offset : BitVec 13) :
    Sys2Proof.Laws.EncodeRow.Statement (Instr.beq rs1 rs2 offset) :=
  row3_of (opcodeField_encodeB ..) (funct3Field_encodeB ..) (by simp only [Instr.rowMatch]; decide)
theorem Sys2Proof.Laws.EncodeRow.bne (rs1 rs2 : Reg) (offset : BitVec 13) :
    Sys2Proof.Laws.EncodeRow.Statement (Instr.bne rs1 rs2 offset) :=
  row3_of (opcodeField_encodeB ..) (funct3Field_encodeB ..) (by simp only [Instr.rowMatch]; decide)
theorem Sys2Proof.Laws.EncodeRow.blt (rs1 rs2 : Reg) (offset : BitVec 13) :
    Sys2Proof.Laws.EncodeRow.Statement (Instr.blt rs1 rs2 offset) :=
  row3_of (opcodeField_encodeB ..) (funct3Field_encodeB ..) (by simp only [Instr.rowMatch]; decide)
theorem Sys2Proof.Laws.EncodeRow.bge (rs1 rs2 : Reg) (offset : BitVec 13) :
    Sys2Proof.Laws.EncodeRow.Statement (Instr.bge rs1 rs2 offset) :=
  row3_of (opcodeField_encodeB ..) (funct3Field_encodeB ..) (by simp only [Instr.rowMatch]; decide)
theorem Sys2Proof.Laws.EncodeRow.bltu (rs1 rs2 : Reg) (offset : BitVec 13) :
    Sys2Proof.Laws.EncodeRow.Statement (Instr.bltu rs1 rs2 offset) :=
  row3_of (opcodeField_encodeB ..) (funct3Field_encodeB ..) (by simp only [Instr.rowMatch]; decide)
theorem Sys2Proof.Laws.EncodeRow.bgeu (rs1 rs2 : Reg) (offset : BitVec 13) :
    Sys2Proof.Laws.EncodeRow.Statement (Instr.bgeu rs1 rs2 offset) :=
  row3_of (opcodeField_encodeB ..) (funct3Field_encodeB ..) (by simp only [Instr.rowMatch]; decide)
theorem Sys2Proof.Laws.EncodeRow.jal (rd : Reg) (offset : BitVec 21) :
    Sys2Proof.Laws.EncodeRow.Statement (Instr.jal rd offset) :=
  row1_of (opcodeField_encodeJ ..) (by simp only [Instr.rowMatch]; decide)
theorem Sys2Proof.Laws.EncodeRow.jalr (rd rs1 : Reg) (imm : BitVec 12) :
    Sys2Proof.Laws.EncodeRow.Statement (Instr.jalr rd rs1 imm) :=
  row1_of (opcodeField_encodeI ..) (by simp only [Instr.rowMatch]; decide)
theorem Sys2Proof.Laws.EncodeRow.ecall :
    Sys2Proof.Laws.EncodeRow.Statement (Instr.ecall) :=
  (by decide : (0x00000073 : Word) &&& 0x0000007F = 0x00000073)
end

