-- ==== Sys2Proof/Laws/Words.lean ====
section
/-! SUPPORT. What the opcode of a decoded word says of its instruction: the family, the destination
register and the address it stores to. -/

namespace Sys2Proof.Machine

variable {w : Word} {i : Instr}

theorem destination_of_decode (h : decode w = .ok i) :
    destination i = none ∨ destination i = some (rdField w) := by
  obtain ⟨-, ho⟩ := decode_ok h
  rw [ho]
  cases i <;> first | exact .inr rfl | exact .inl rfl

/-- The families that store, branch, halt and jump are those of their opcodes (30_encoding.md R110). -/
theorem family_of_decode (h : decode w = .ok i) :
    (family i = .store ↔ opcodeField w = 0b0100011) ∧ (family i = .branch ↔ opcodeField w = 0b1100011) ∧
    (family i = .system ↔ opcodeField w = 0b1110011) ∧
    (family i = .jump ↔ opcodeField w = 0b1101111 ∨ opcodeField w = 0b1100111) := by
  rw [opcodeField_of_row i (decode_ok h).1]
  cases i <;> simp only [family, Instr.rowMatch] <;> decide

theorem no_destination_of_family (h : family i = .store ∨ family i = .branch ∨ family i = .system) :
    destination i = none := by
  cases i <;> first | rfl | simp [family] at h

theorem storeTarget_of_decode (h : decode w = .ok i) (s : State) {x : Width} {ea : Word}
    (ht : storeTarget s i = some (x, ea)) : ea = s.effectiveAddress (rs1Field w) (immSField w) := by
  obtain ⟨-, ho⟩ := decode_ok h
  rw [ho] at ht
  cases i <;> cases ht <;> rfl

end Sys2Proof.Machine
end

