-- ==== Sys2Proof/Tests/Slice0.lean ====
section
/-! SUPPORT. Tests. Expected values come from the spec: the encodings of 30_encoding.md and
spec/opcode_table.json, written out bit by bit, the vectors of 95_test_vectors.md (by their ids V-...),
and the rules' own examples. The last part gives, for every obligation with hypotheses, a witness that
meets them together. -/

namespace Sys2Proof.Tests

open Sys2Proof.Machine Sys2Proof.Claims

/-! ## Helpers: a small state, and one fact about the state after a step -/

def withRegs (s : State) (regs : List (Reg × Word)) : State :=
  regs.foldl (fun t p => { t with cur := t.cur.setReg p.1 p.2, nxt := t.nxt.setReg p.1 p.2 }) s

def withBytes (s : State) (bytes : List (Word × Byte)) : State :=
  bytes.foldl (fun t p => t.writeByte p.1 p.2) s

def withPc (s : State) (pc : Word) : State := { s with cur := s.cur.setPc pc, nxt := s.nxt.setPc pc }

/-- A machine with the word `w` at `pc`, these registers and bytes, everything else as after reset. -/
def testState (w : Word) (regs : List (Reg × Word) := []) (bytes : List (Word × Byte) := [])
    (pc : Word := 0x1000) (c : Config := Config.hardware) : State :=
  (withPc (withBytes (withRegs (State.cleared c) regs) bytes) pc).placeWord w

def after {α : Type} (r : Result) (f : State → α) : Option α :=
  match r with
  | .next t => some (f t)
  | .fault _ => none
  | .refused _ => none

/-- The register, the program counter and the counter. -/
def regAfter (r : Result) (rd : Reg) : Option (Word × Word × Nat) :=
  after r (fun t => (t.cur.reg rd, t.cur.pc, t.icount))

/-- The bytes at these addresses, the program counter and `mem_miss`. -/
def bytesAfter (r : Result) (addrs : List Word) : Option (List Byte × Word × Bool) :=
  after r (fun t => (addrs.map t.readByte, t.cur.pc, t.memMiss))

def hardwiredX0 : Config := { Config.hardware with x0Hardwired := true }
def straddleFaults : Config := { Config.hardware with straddle := .fault }
def missFaults : Config := { Config.hardware with memMiss := .fault }
def decodeFaults : Config := { Config.hardware with decodeMiss := .fault }
def divFaults : Config := { Config.hardware with divCorner := .fault }

/-! ## WellFormed: each check refuses a term it is there for (30_encoding.md R106, R108) -/

theorem test_beq_odd_offset_illFormed : (Instr.beq 1 2 7).wellFormed = false := by decide
theorem test_bne_odd_offset_illFormed : (Instr.bne 1 2 7).wellFormed = false := by decide
theorem test_blt_odd_offset_illFormed : (Instr.blt 1 2 7).wellFormed = false := by decide
theorem test_bge_odd_offset_illFormed : (Instr.bge 1 2 7).wellFormed = false := by decide
theorem test_bltu_odd_offset_illFormed : (Instr.bltu 1 2 7).wellFormed = false := by decide
theorem test_bgeu_odd_offset_illFormed : (Instr.bgeu 1 2 7).wellFormed = false := by decide
theorem test_jal_odd_offset_illFormed : (Instr.jal 1 7).wellFormed = false := by decide

/-! ## Decode: one word for every constructor, bit by bit from 30_encoding.md R103 to R116 -/

theorem test_decode_add :
    decode 0b0000000_01101_11010_000_10001_0110011 = .ok (.add 17 26 13) := by decide
theorem test_decode_sub :
    decode 0b0100000_01101_11010_000_10001_0110011 = .ok (.sub 17 26 13) := by decide
theorem test_decode_sll :
    decode 0b0000000_01101_11010_001_10001_0110011 = .ok (.sll 17 26 13) := by decide
theorem test_decode_slt :
    decode 0b0000000_01101_11010_010_10001_0110011 = .ok (.slt 17 26 13) := by decide
theorem test_decode_sltu :
    decode 0b0000000_01101_11010_011_10001_0110011 = .ok (.sltu 17 26 13) := by decide
theorem test_decode_xor :
    decode 0b0000000_01101_11010_100_10001_0110011 = .ok (.xor 17 26 13) := by decide
theorem test_decode_srl :
    decode 0b0000000_01101_11010_101_10001_0110011 = .ok (.srl 17 26 13) := by decide
theorem test_decode_sra :
    decode 0b0100000_01101_11010_101_10001_0110011 = .ok (.sra 17 26 13) := by decide
theorem test_decode_or :
    decode 0b0000000_01101_11010_110_10001_0110011 = .ok (.or 17 26 13) := by decide
theorem test_decode_and :
    decode 0b0000000_01101_11010_111_10001_0110011 = .ok (.and 17 26 13) := by decide
theorem test_decode_mul :
    decode 0b0000001_01101_11010_000_10001_0110011 = .ok (.mul 17 26 13) := by decide
theorem test_decode_div :
    decode 0b0000001_01101_11010_100_10001_0110011 = .ok (.div 17 26 13) := by decide
theorem test_decode_divu :
    decode 0b0000001_01101_11010_101_10001_0110011 = .ok (.divu 17 26 13) := by decide
theorem test_decode_addi :
    decode 0b101010101011_11010_000_10001_0010011 = .ok (.addi 17 26 0xAAB) := by decide
theorem test_decode_slti :
    decode 0b101010101011_11010_010_10001_0010011 = .ok (.slti 17 26 0xAAB) := by decide
theorem test_decode_sltiu :
    decode 0b101010101011_11010_011_10001_0010011 = .ok (.sltiu 17 26 0xAAB) := by decide
theorem test_decode_xori :
    decode 0b101010101011_11010_100_10001_0010011 = .ok (.xori 17 26 0xAAB) := by decide
theorem test_decode_ori :
    decode 0b101010101011_11010_110_10001_0010011 = .ok (.ori 17 26 0xAAB) := by decide
theorem test_decode_andi :
    decode 0b101010101011_11010_111_10001_0010011 = .ok (.andi 17 26 0xAAB) := by decide
theorem test_decode_slli :
    decode 0b0000000_10101_11010_001_10001_0010011 = .ok (.slli 17 26 21) := by decide
theorem test_decode_srli :
    decode 0b0000000_10101_11010_101_10001_0010011 = .ok (.srli 17 26 21) := by decide
theorem test_decode_srai :
    decode 0b0100000_10101_11010_101_10001_0010011 = .ok (.srai 17 26 21) := by decide
theorem test_decode_lui :
    decode 0b10101011110011011110_10001_0110111 = .ok (.lui 17 0xABCDE) := by decide
theorem test_decode_auipc :
    decode 0b10101011110011011110_10001_0010111 = .ok (.auipc 17 0xABCDE) := by decide
theorem test_decode_lb :
    decode 0b101010101011_11010_000_10001_0000011 = .ok (.lb 17 26 0xAAB) := by decide
theorem test_decode_lh :
    decode 0b101010101011_11010_001_10001_0000011 = .ok (.lh 17 26 0xAAB) := by decide
theorem test_decode_lw :
    decode 0b101010101011_11010_010_10001_0000011 = .ok (.lw 17 26 0xAAB) := by decide
theorem test_decode_lbu :
    decode 0b101010101011_11010_100_10001_0000011 = .ok (.lbu 17 26 0xAAB) := by decide
theorem test_decode_lhu :
    decode 0b101010101011_11010_101_10001_0000011 = .ok (.lhu 17 26 0xAAB) := by decide
theorem test_decode_sb :
    decode 0b1010101_01101_11010_000_01011_0100011 = .ok (.sb 13 26 0xAAB) := by decide
theorem test_decode_sh :
    decode 0b1010101_01101_11010_001_01011_0100011 = .ok (.sh 13 26 0xAAB) := by decide
theorem test_decode_sw :
    decode 0b1010101_01101_11010_010_01011_0100011 = .ok (.sw 13 26 0xAAB) := by decide
theorem test_decode_beq :
    decode 0b1_110101_01101_11010_000_1011_0_1100011 = .ok (.beq 26 13 0b1_0_110101_1011_0) := by decide
theorem test_decode_bne :
    decode 0b1_110101_01101_11010_001_1011_0_1100011 = .ok (.bne 26 13 0b1_0_110101_1011_0) := by decide
theorem test_decode_blt :
    decode 0b1_110101_01101_11010_100_1011_0_1100011 = .ok (.blt 26 13 0b1_0_110101_1011_0) := by decide
theorem test_decode_bge :
    decode 0b1_110101_01101_11010_101_1011_0_1100011 = .ok (.bge 26 13 0b1_0_110101_1011_0) := by decide
theorem test_decode_bltu :
    decode 0b1_110101_01101_11010_110_1011_0_1100011 = .ok (.bltu 26 13 0b1_0_110101_1011_0) := by decide
theorem test_decode_bgeu :
    decode 0b1_110101_01101_11010_111_1011_0_1100011 = .ok (.bgeu 26 13 0b1_0_110101_1011_0) := by decide
theorem test_decode_jal :
    decode 0b1_1011001110_0_10010110_10001_1101111 = .ok (.jal 17 0b1_10010110_0_1011001110_0) := by decide
theorem test_decode_jalr :
    decode 0b101010101011_11010_000_10001_1100111 = .ok (.jalr 17 26 0xAAB) := by decide
theorem test_decode_ecall :
    decode 0b00000000000000000000000001110011 = .ok .ecall := by decide

/-- Bits the decoder does not examine (R116): JALR's funct3, and every bit of a SYSTEM word but the opcode. -/
theorem test_decode_ignored_bits :
    decode 0x000120E7 = .ok (.jalr 1 2 0) ∧ decode 0x00100073 = .ok .ecall ∧
    decode 0xC00020F3 = .ok .ecall ∧ decode 0x30200073 = .ok .ecall := by decide

/-- Words no row matches: V-OP-30 to V-OP-32, V-OI-16, V-OI-17, V-LD-17, V-ST-11, V-BR-23, V-SY-05 to V-SY-08. -/
theorem test_decode_unrecognized :
    ∀ p ∈ ([(0x022091B3, .opFunct), (0x0220E1B3, .opFunct), (0x4020F1B3, .opFunct), (0x40409193, .opImmShift),
      (0x0240D193, .opImmShift), (0x0000B183, .loadFunct3), (0x0020B023, .storeFunct3),
      (0x0020A863, .branchFunct3), (0x00000000, .opcode), (0xFFFFFFFF, .opcode), (0x0FF0000F, .opcode),
      (0x00000001, .opcode)] : List (Word × Unrecognized)),
      rowsMatching p.1 = [] ∧ decode p.1 = .error p.2 := by decide

/-- The interface with the host: the table word, and a step that runs it first after reset. -/
theorem test_decodeTableWord : decodeTableWord 32 0x002081B3 = some (.add 3 1 2) ∧
    decodeTableWord 32 0x00000000 = none := by decide
theorem test_withFetchWord_step :
    regAfter (step (State.reset.withFetchWord 32 0x00500093)) 1 = some (5, 0x1004, 1) := by decide

/-! ## One step of every instruction -/

/-- V-OP-01 -/
theorem test_step_add : regAfter (step (testState 0x002081B3 (regs := [(1, 5), (2, 7)]))) 3 =
    some (0xC, 0x1004, 1) := by decide
/-- V-OP-27 -/
theorem test_step_add_2 : regAfter (step (testState 0x001080B3 (regs := [(1, 0x15)]))) 1 =
    some (0x2A, 0x1004, 1) := by decide
/-- V-OP-04 -/
theorem test_step_sub : regAfter (step (testState 0x402081B3 (regs := [(1, 5), (2, 7)]))) 3 =
    some (0xFFFFFFFE, 0x1004, 1) := by decide
/-- V-OP-05 -/
theorem test_step_sub_2 : regAfter (step (testState 0x402081B3 (regs := [(1, 0x80000000), (2, 1)]))) 3 =
    some (0x7FFFFFFF, 0x1004, 1) := by decide
/-- V-OP-06 -/
theorem test_step_sll : regAfter (step (testState 0x002091B3 (regs := [(1, 1), (2, 0x1F)]))) 3 =
    some (0x80000000, 0x1004, 1) := by decide
/-- V-OP-07 -/
theorem test_step_sll_2 : regAfter (step (testState 0x002091B3 (regs := [(1, 1), (2, 0x21)]))) 3 =
    some (2, 0x1004, 1) := by decide
/-- V-OP-08 -/
theorem test_step_slt : regAfter (step (testState 0x0020A1B3 (regs := [(1, 0xFFFFFFFF), (2, 1)]))) 3 =
    some (1, 0x1004, 1) := by decide
/-- V-OP-10 -/
theorem test_step_slt_2 : regAfter (step (testState 0x0010A1B3 (regs := [(1, 5)]))) 3 =
    some (0, 0x1004, 1) := by decide
/-- V-OP-09 -/
theorem test_step_sltu : regAfter (step (testState 0x0020B1B3 (regs := [(1, 0xFFFFFFFF), (2, 1)]))) 3 =
    some (0, 0x1004, 1) := by decide
/-- V-OP-11 -/
theorem test_step_xor : regAfter (step (testState 0x0020C1B3 (regs := [(1, 0xF0F0F0F0), (2, 0xFF00FF00)]))) 3 =
    some (0xFF00FF0, 0x1004, 1) := by decide
/-- V-OP-12 -/
theorem test_step_srl : regAfter (step (testState 0x0020D1B3 (regs := [(1, 0x80000000), (2, 0x1F)]))) 3 =
    some (1, 0x1004, 1) := by decide
/-- V-OP-13 -/
theorem test_step_sra : regAfter (step (testState 0x4020D1B3 (regs := [(1, 0x80000000), (2, 0x1F)]))) 3 =
    some (0xFFFFFFFF, 0x1004, 1) := by decide
/-- V-OP-14 -/
theorem test_step_sra_2 : regAfter (step (testState 0x4020D1B3 (regs := [(1, 0x80000000), (2, 0x20)]))) 3 =
    some (0x80000000, 0x1004, 1) := by decide
/-- V-OP-15 -/
theorem test_step_or : regAfter (step (testState 0x0020E1B3 (regs := [(1, 0xF0F0F0F0), (2, 0xFF00FF00)]))) 3 =
    some (0xFFF0FFF0, 0x1004, 1) := by decide
/-- V-OP-16 -/
theorem test_step_and : regAfter (step (testState 0x0020F1B3 (regs := [(1, 0xF0F0F0F0), (2, 0xFF00FF00)]))) 3 =
    some (0xF000F000, 0x1004, 1) := by decide
/-- V-OP-18 -/
theorem test_step_mul : regAfter (step (testState 0x022081B3 (regs := [(1, 0x10000), (2, 0x10000)]))) 3 =
    some (0, 0x1004, 1) := by decide
/-- V-OP-19 -/
theorem test_step_mul_2 : regAfter (step (testState 0x022081B3 (regs := [(1, 0xFFFFFFFF), (2, 0xFFFFFFFF)]))) 3 =
    some (1, 0x1004, 1) := by decide
/-- V-OP-21 -/
theorem test_step_div : regAfter (step (testState 0x0220C1B3 (regs := [(1, 0xFFFFFFF9), (2, 2)]))) 3 =
    some (0xFFFFFFFD, 0x1004, 1) := by decide
/-- V-OP-23 -/
theorem test_step_div_2 : regAfter (step (testState 0x0220C1B3 (regs := [(1, 0x80000000), (2, 0xFFFFFFFF)]))) 3 =
    some (0x80000000, 0x1004, 1) := by decide
/-- V-OP-24 -/
theorem test_step_divu : regAfter (step (testState 0x0220D1B3 (regs := [(1, 0xFFFFFFFF), (2, 2)]))) 3 =
    some (0x7FFFFFFF, 0x1004, 1) := by decide
/-- V-OP-25 -/
theorem test_step_divu_2 : regAfter (step (testState 0x0220D1B3 (regs := [(1, 7), (2, 0)]))) 3 =
    some (0xFFFFFFFF, 0x1004, 1) := by decide
/-- V-OI-03 -/
theorem test_step_addi : regAfter (step (testState 0x80008193 (regs := [(1, 0)]))) 3 =
    some (0xFFFFF800, 0x1004, 1) := by decide
/-- V-OI-05 -/
theorem test_step_addi_2 : regAfter (step (testState 0x00500013)) 0 =
    some (5, 0x1004, 1) := by decide
/-- V-OI-06 -/
theorem test_step_slti : regAfter (step (testState 0xFFF0A193 (regs := [(1, 0xFFFFFFFE)]))) 3 =
    some (1, 0x1004, 1) := by decide
/-- V-OI-07 -/
theorem test_step_sltiu : regAfter (step (testState 0xFFF0B193 (regs := [(1, 5)]))) 3 =
    some (1, 0x1004, 1) := by decide
/-- V-OI-08 -/
theorem test_step_sltiu_2 : regAfter (step (testState 0x0010B193 (regs := [(1, 0)]))) 3 =
    some (1, 0x1004, 1) := by decide
/-- V-OI-09 -/
theorem test_step_xori : regAfter (step (testState 0xFFF0C193 (regs := [(1, 0x12345678)]))) 3 =
    some (0xEDCBA987, 0x1004, 1) := by decide
/-- V-OI-10 -/
theorem test_step_ori : regAfter (step (testState 0x7FF0E193 (regs := [(1, 0x80000000)]))) 3 =
    some (0x800007FF, 0x1004, 1) := by decide
/-- V-OI-11 -/
theorem test_step_andi : regAfter (step (testState 0xFF00F193 (regs := [(1, 0x1234567F)]))) 3 =
    some (0x12345670, 0x1004, 1) := by decide
/-- V-OI-12 -/
theorem test_step_slli : regAfter (step (testState 0x00409193 (regs := [(1, 0x87654321)]))) 3 =
    some (0x76543210, 0x1004, 1) := by decide
/-- V-OI-13 -/
theorem test_step_srli : regAfter (step (testState 0x0040D193 (regs := [(1, 0x87654321)]))) 3 =
    some (0x8765432, 0x1004, 1) := by decide
/-- V-OI-14 -/
theorem test_step_srai : regAfter (step (testState 0x4040D193 (regs := [(1, 0x87654321)]))) 3 =
    some (0xF8765432, 0x1004, 1) := by decide
/-- V-OI-15 -/
theorem test_step_srai_2 : regAfter (step (testState 0x40315093 (regs := [(2, 0xFFFFFF00)]))) 1 =
    some (0xFFFFFFE0, 0x1004, 1) := by decide
/-- V-U-01 -/
theorem test_step_lui : regAfter (step (testState 0x123452B7)) 5 =
    some (0x12345000, 0x1004, 1) := by decide
/-- V-U-02 -/
theorem test_step_lui_2 : regAfter (step (testState 0xFFFFF2B7 (regs := [(5, 0xFFF)]))) 5 =
    some (0xFFFFF000, 0x1004, 1) := by decide
/-- V-U-04 -/
theorem test_step_auipc : regAfter (step (testState 0xFFFFF297 (pc := 0x1010))) 5 =
    some (0x10, 0x1014, 1) := by decide
/-- V-U-05 -/
theorem test_step_auipc_2 : regAfter (step (testState 0x00001297 (pc := 0x1FFC))) 5 =
    some (0x2FFC, 0x2000, 1) := by decide
/-- V-LD-02 -/
theorem test_step_lb : regAfter (step (testState 0x00008183 (regs := [(1, 0x2000)]) (bytes := [(0x2000, 0xEF), (0x2001, 0xBE), (0x2002, 0xAD), (0x2003, 0xDE)]))) 3 =
    some (0xFFFFFFEF, 0x1004, 1) := by decide
/-- V-LD-04 -/
theorem test_step_lb_2 : regAfter (step (testState 0x00308183 (regs := [(1, 0x2000)]) (bytes := [(0x2000, 0xEF), (0x2001, 0xBE), (0x2002, 0xAD), (0x2003, 0xDE)]))) 3 =
    some (0xFFFFFFDE, 0x1004, 1) := by decide
/-- V-LD-05 -/
theorem test_step_lh : regAfter (step (testState 0x00209183 (regs := [(1, 0x2000)]) (bytes := [(0x2000, 0xEF), (0x2001, 0xBE), (0x2002, 0xAD), (0x2003, 0xDE)]))) 3 =
    some (0xFFFFDEAD, 0x1004, 1) := by decide
/-- V-LD-09 -/
theorem test_step_lh_2 : regAfter (step (testState 0x00109183 (regs := [(1, 0x2000)]) (bytes := [(0x2001, 0), (0x2002, 0x80)]))) 3 =
    some (0xFFFF8000, 0x1004, 1) := by decide
/-- V-LD-11 -/
theorem test_step_lw : regAfter (step (testState 0x0000A083 (regs := [(1, 0x2000)]) (bytes := [(0x2000, 0xEF), (0x2001, 0xBE), (0x2002, 0xAD), (0x2003, 0xDE)]))) 1 =
    some (0xDEADBEEF, 0x1004, 1) := by decide
/-- V-LD-14 -/
theorem test_step_lw_2 : after (step (testState 0x0000A183 (regs := [(1, 0x3FFE)]) (bytes := [(0x3FFE, 0xAA), (0x3FFF, 0xBB)])))
    (fun t => (t.cur.reg 3, t.cur.pc, t.memMiss)) = some (0xBBAA, 0x1004, true) := by decide
/-- V-LD-03 -/
theorem test_step_lbu : regAfter (step (testState 0x0000C183 (regs := [(1, 0x2000)]) (bytes := [(0x2000, 0xEF), (0x2001, 0xBE), (0x2002, 0xAD), (0x2003, 0xDE)]))) 3 =
    some (0xEF, 0x1004, 1) := by decide
/-- V-LD-15 -/
theorem test_step_lbu_2 : after (step (testState 0xFFF0C183 (regs := [(1, 0), (3, 7)])))
    (fun t => (t.cur.reg 3, t.cur.pc, t.memMiss)) = some (0, 0x1004, true) := by decide
/-- V-LD-06 -/
theorem test_step_lhu : regAfter (step (testState 0x0020D183 (regs := [(1, 0x2000)]) (bytes := [(0x2000, 0xEF), (0x2001, 0xBE), (0x2002, 0xAD), (0x2003, 0xDE)]))) 3 =
    some (0xDEAD, 0x1004, 1) := by decide
/-- V-ST-02 -/
theorem test_step_sb : bytesAfter (step (testState 0x002080A3 (regs := [(1, 0x2000), (2, 0x12345678)]) (bytes := [(0x2000, 0x11), (0x2001, 0x22), (0x2002, 0x33), (0x2003, 0x44)]))) [0x2000, 0x2001, 0x2002, 0x2003] =
    some ([0x11, 0x78, 0x33, 0x44], 0x1004, false) := by decide
/-- V-ST-06 -/
theorem test_step_sb_2 : bytesAfter (step (testState 0xFE208FA3 (regs := [(1, 0x2001), (2, 0xFF)]) (bytes := [(0x2000, 0x11), (0x2001, 0x22), (0x2002, 0x33), (0x2003, 0x44)]))) [0x2000] =
    some ([0xFF], 0x1004, false) := by decide
/-- V-ST-03 -/
theorem test_step_sh : bytesAfter (step (testState 0x00209123 (regs := [(1, 0x2000), (2, 0xCAFEBABE)]) (bytes := [(0x2000, 0x11), (0x2001, 0x22), (0x2002, 0x33), (0x2003, 0x44)]))) [0x2000, 0x2001, 0x2002, 0x2003] =
    some ([0x11, 0x22, 0xBE, 0xBA], 0x1004, false) := by decide
/-- V-ST-04 -/
theorem test_step_sh_2 : bytesAfter (step (testState 0x002090A3 (regs := [(1, 0x2000), (2, 0xCAFEBABE)]) (bytes := [(0x2000, 0x11), (0x2001, 0x22), (0x2002, 0x33), (0x2003, 0x44)]))) [0x2000, 0x2001, 0x2002, 0x2003] =
    some ([0x11, 0xBE, 0xBA, 0x44], 0x1004, false) := by decide
/-- V-ST-05 -/
theorem test_step_sw : bytesAfter (step (testState 0x0020A123 (regs := [(1, 0x2000), (2, 0xA1B2C3D4)]) (bytes := [(0x2000, 0x11), (0x2001, 0x22), (0x2002, 0x33), (0x2003, 0x44)]))) [0x2002, 0x2003, 0x2004, 0x2005] =
    some ([0xD4, 0xC3, 0xB2, 0xA1], 0x1004, false) := by decide
/-- V-ST-08 -/
theorem test_step_sw_2 : bytesAfter (step (testState 0x0020A023 (regs := [(1, 0x3FFE), (2, 0xA1B2C3D4)]))) [0x3FFE, 0x3FFF, 0x4000, 0x4001] =
    some ([0xD4, 0xC3, 0, 0], 0x1004, true) := by decide
/-- V-BR-19 -/
theorem test_step_beq : after (step (testState 0x80000063)) (fun t => (t.cur.pc, t.icount)) =
    some (0, 1) := by decide
/-- V-BR-beq-mn -/
theorem test_step_beq_2 : after (step (testState 0x00208863 (regs := [(1, 0xFFFFFFFF), (2, 1)]))) (fun t => (t.cur.pc, t.icount)) =
    some (0x1004, 1) := by decide
/-- V-BR-20 -/
theorem test_step_bne : after (step (testState 0x7E209FE3 (regs := [(1, 1)]))) (fun t => (t.cur.pc, t.icount)) =
    some (0x1FFE, 1) := by decide
/-- V-BR-bne-eq -/
theorem test_step_bne_2 : after (step (testState 0x00209863 (regs := [(1, 3), (2, 3)]))) (fun t => (t.cur.pc, t.icount)) =
    some (0x1004, 1) := by decide
/-- V-BR-blt-mn -/
theorem test_step_blt : after (step (testState 0x0020C863 (regs := [(1, 0xFFFFFFFF), (2, 1)]))) (fun t => (t.cur.pc, t.icount)) =
    some (0x1010, 1) := by decide
/-- V-BR-blt-pm -/
theorem test_step_blt_2 : after (step (testState 0x0020C863 (regs := [(1, 1), (2, 0xFFFFFFFF)]))) (fun t => (t.cur.pc, t.icount)) =
    some (0x1004, 1) := by decide
/-- V-BR-bge-eq -/
theorem test_step_bge : after (step (testState 0x0020D863 (regs := [(1, 3), (2, 3)]))) (fun t => (t.cur.pc, t.icount)) =
    some (0x1010, 1) := by decide
/-- V-BR-bge-mn -/
theorem test_step_bge_2 : after (step (testState 0x0020D863 (regs := [(1, 0xFFFFFFFF), (2, 1)]))) (fun t => (t.cur.pc, t.icount)) =
    some (0x1004, 1) := by decide
/-- V-BR-bltu-mn -/
theorem test_step_bltu : after (step (testState 0x0020E863 (regs := [(1, 0xFFFFFFFF), (2, 1)]))) (fun t => (t.cur.pc, t.icount)) =
    some (0x1004, 1) := by decide
/-- V-BR-bltu-pm -/
theorem test_step_bltu_2 : after (step (testState 0x0020E863 (regs := [(1, 1), (2, 0xFFFFFFFF)]))) (fun t => (t.cur.pc, t.icount)) =
    some (0x1010, 1) := by decide
/-- V-BR-bgeu-mn -/
theorem test_step_bgeu : after (step (testState 0x0020F863 (regs := [(1, 0xFFFFFFFF), (2, 1)]))) (fun t => (t.cur.pc, t.icount)) =
    some (0x1010, 1) := by decide
/-- V-BR-bgeu-pm -/
theorem test_step_bgeu_2 : after (step (testState 0x0020F863 (regs := [(1, 1), (2, 0xFFFFFFFF)]))) (fun t => (t.cur.pc, t.icount)) =
    some (0x1004, 1) := by decide
/-- V-J-02 -/
theorem test_step_jal : regAfter (step (testState 0xFF9FF0EF (pc := 0x1008))) 1 =
    some (0x100C, 0x1000, 1) := by decide
/-- V-J-04 -/
theorem test_step_jal_2 : regAfter (step (testState 0x0080006F (c := hardwiredX0))) 0 =
    some (0, 0x1008, 1) := by decide
/-- V-J-07 -/
theorem test_step_jalr : regAfter (step (testState 0x000080E7 (regs := [(1, 0x1200)]))) 1 =
    some (0x1004, 0x1200, 1) := by decide
/-- V-J-11 -/
theorem test_step_jalr_2 : regAfter (step (testState 0x000120E7 (regs := [(2, 0x1100)]))) 1 =
    some (0x1004, 0x1100, 1) := by decide
/-- V-SY-01 -/
theorem test_step_ecall : after (step (testState 0x00000073)) (fun t => (t.cur.pc, t.run, t.icount)) =
    some (0x1004, false, 1) := by decide

/-! ## Unrecognized words, faults, the host -/

/-- V-OP-30 (MULH) and V-SY-09 (a fetch at an unmapped pc). -/
theorem test_step_unrecognized :
    after (step (testState 0x022091B3 (regs := [(1, 5), (2, 7), (3, 9)])))
      (fun t => (t.cur.reg 3, t.cur.pc, t.icount, t.decodeMiss, t.memMiss)) =
      some (9, 0x1004, 1, true, false) := by decide
theorem test_step_unmapped_fetch :
    after (step (testState 0 (pc := 0))) (fun t => (t.cur.pc, t.decodeMiss, t.memMiss)) =
      some (4, true, true) := by decide

/-- V-F-01, V-F-02, V-F-04, V-F-05, V-F-08, V-F-11: the recorded fault, the counter and the pc. -/
theorem test_fault_miss_load :
    after (step (testState 0x0000A183 (regs := [(3, 0x55)]) (c := missFaults)))
      (fun t => (t.fault, t.icount, t.cur.pc, t.cur.reg 3)) =
      some (some (.memMiss 0 .word), 0, 0x1000, 0x55) := by decide
theorem test_fault_miss_store :
    after (step (testState 0x0020A023 (regs := [(1, 0x10), (2, 0xDEADBEEF)]) (c := missFaults)))
      (fun t => (t.fault, t.icount, t.cur.pc)) = some (some (.memMiss 0x10 .word), 0, 0x1000) := by decide
theorem test_fault_straddle :
    after (step (testState 0x0000A183 (regs := [(1, 0x2FFE)]) (c := straddleFaults)))
      (fun t => (t.fault, t.icount, t.cur.pc)) = some (some (.straddle 0x2FFE .word), 0, 0x1000) := by decide
theorem test_fault_straddle_before_miss :
    after (step (testState 0x0000A183 (regs := [(1, 0x3FFE)]) (c := { straddleFaults with memMiss := .fault })))
      (·.fault) = some (some (.straddle 0x3FFE .word)) := by decide
theorem test_fault_decode :
    after (step (testState 0 (c := decodeFaults))) (fun t => (t.fault, t.icount, t.cur.pc)) =
      some (some (.decode 0x1000 0), 0, 0x1000) := by decide
theorem test_fault_fetch_before_decode :
    after (step (testState 0 (pc := 0) (c := { decodeFaults with memMiss := .fault }))) (·.fault) =
      some (some (.memMiss 0 .word)) := by decide
theorem test_fault_div :
    after (step (testState 0x0220C1B3 (regs := [(1, 0x80000000), (2, 0xFFFFFFFF)]) (c := divFaults)))
      (fun t => (t.fault, t.icount, t.cur.reg 3)) = some (some (.divCorner 0x1000), 0, 0) := by decide

/-- The program P1 of 95_test_vectors.md, loaded by RESET. -/
def p1 : State := State.boot { Config.hardware with image := [0x00500093, 0x00700113, 0x002081B3, 0x00000073] }

/-- V-H-01 and V-H-11: P1's first word at TEXT_BASE, unmapped bytes below it. -/
theorem test_host_dumpMemory : dumpMemory 0x0FFE 0x1001 p1 = [0, 0, 0x93, 0] := by decide
/-- V-H-02. -/
theorem test_host_runN : after (runN 2 p1) (fun t => (t.cur.reg 1, t.cur.reg 2, t.cur.pc, t.icount, t.run)) =
    some (5, 7, 0x1008, 2, true) := by decide
/-- V-H-03, V-H-04. -/
theorem test_host_setReg : (hostSetReg 1 100 p1).map (fun t => (t.cur.reg 1, t.nxt.reg 1, t.cur.pc)) =
    some (100, 100, 0x1000) ∧ hostSetReg 32 1 p1 = none := by decide
/-- V-H-09. -/
theorem test_host_stop : after (runN 3 (hostStop p1)) (fun t => (t.run, t.cur.pc, t.icount)) =
    some (false, 0x1000, 0) := by decide
/-- R170: the listing gives back the loaded words. -/
theorem test_host_listProgram : listProgram p1 = [0x00500093, 0x00700113, 0x002081B3, 0x00000073] := by decide

/-! ## Witnesses: for every obligation with hypotheses, a concrete input that meets them -/

/-- A fact about the state after a step, as a next state that has it. -/
theorem next_of_after {α : Type} {r : Result} {f : State → α} {x : α} (h : after r f = some x) :
    ∃ t, r = .next t ∧ f t = x := by
  cases r with
  | next t => exact ⟨t, rfl, by simpa [after] using h⟩
  | fault _ => cases h
  | refused _ => cases h

/-- `Fetches` as one decidable fact. -/
theorem fetches_of {s : State} {w : Word}
    (h : s.run = true ∧ s.fault = none ∧ s.cur = s.nxt ∧ accessFault s.cfg .word s.cur.pc = none ∧
      s.memRead32 s.cur.pc = w) : Fetches s w :=
  ⟨h.1, h.2.1, h.2.2.1, h.2.2.2.1, h.2.2.2.2⟩

/-- The words of the decode tests, one for each row, in the order of `opcodeRows`. -/
def rowWords : List Word :=
  [0x00DD08B3, 0x40DD08B3, 0x00DD18B3, 0x00DD28B3, 0x00DD38B3, 0x00DD48B3, 0x00DD58B3, 0x40DD58B3,
    0x00DD68B3, 0x00DD78B3, 0x02DD08B3] ++
  [0x02DD48B3, 0x02DD58B3, 0x015D1893, 0x015D5893, 0x415D5893, 0xAABD0893, 0xAABD2893, 0xAABD3893,
    0xAABD4893, 0xAABD6893, 0xAABD7893] ++
  [0xAABD0883, 0xAABD1883, 0xAABD2883, 0xAABD4883, 0xAABD5883, 0xAADD05A3, 0xAADD15A3, 0xAADD25A3,
    0xEADD0B63, 0xEADD1B63, 0xEADD4B63] ++
  [0xEADD5B63, 0xEADD6B63, 0xEADD7B63, 0xABCDE8B7, 0xABCDE897, 0xD9C968EF, 0xAABD08E7, 0x00000073]

theorem witness_DecodeOfEncode :
    (Instr.beq 31 0 0x1000).wellFormed = true ∧ (Instr.bgeu 0 31 0x0FFE).wellFormed = true ∧
    (Instr.jal 31 0x100000).wellFormed = true ∧ (Instr.addi 31 31 0x800).wellFormed = true := by decide

theorem witness_EncodeOfDecode :
    (∃ i, decode 0x002081B3 = .ok i ∧ opcodeField 0x002081B3 ≠ 0b1100111 ∧ opcodeField 0x002081B3 ≠ 0b1110011) ∧
    (∃ i, decode 0x000120E7 = .ok i ∧ opcodeField 0x000120E7 = 0b1100111) ∧
    (∃ i, decode 0x30200073 = .ok i ∧ opcodeField 0x30200073 = 0b1110011) :=
  ⟨⟨.add 3 1 2, by decide⟩, ⟨.jalr 1 2 0, by decide⟩, ⟨.ecall, by decide⟩⟩

theorem witness_TableRowsAreExact :
    (∃ i, decode 0x40315093 = .ok i) ∧ (∃ e, decode 0x022091B3 = .error e) :=
  ⟨⟨.srai 1 2 3, by decide⟩, ⟨.opFunct, by decide⟩⟩

/-- Every row's clause of the opcode map, and so every fixed pattern of the words' statements, is met. -/
theorem witness_DecodeFollowsOpcodeMap :
    rowWords.length = 41 ∧ (rowWords.zip opcodeRows).all (fun p => p.1 &&& p.2.2 == p.2.1) = true ∧
    rowsMatching 0x022091B3 = [] := by decide +kernel

theorem witness_ExtensionBits : 1 ≤ 1 ∧ 1 ≤ 32 ∧ 32 ≤ 32 ∧ 0 < 32 ∧ 31 < 32 := by decide

theorem witness_OtherOpcodesAreUnrecognized :
    (0x00000001 : Word).extractLsb' 0 2 ≠ 0b11 ∧ opcodeField 0x0FF0000F = 0b0001111 ∧
    opcodeField 0xFFFFFFFF = 0b1111111 := by decide

/-- Each clause of the divisions: by zero, the overflow, an ordinary one, under both policies. -/
theorem witness_DivisionsComplete :
    let s := testState 0 (regs := [(1, 0x80000000), (2, 0xFFFFFFFF), (4, 7)])
    let t := testState 0 (c := divFaults)
    s.readReg 3 = 0 ∧ DivOverflows (s.readReg 1) (s.readReg 2) ∧ s.cfg.divCorner = .riscv ∧
    s.readReg 4 ≠ 0 ∧ ¬ DivOverflows (s.readReg 4) (s.readReg 2) ∧ t.readReg 3 = 0 ∧
    t.cfg.divCorner = .fault := by unfold DivOverflows; decide

/-- Each clause of the loads and stores: accesses that nothing stops (mapped, unmapped, wrapping round
the address space, across two regions), and each fault, at the ends of the regions. -/
theorem witness_LoadsComplete :
    (∀ n ∈ [Width.byte, .half, .word], ([0x1000, 0x0FFF, 0x1FFF, 0x3FFF, 0x4000, 0xFFFFFFFF] : List Word).all
      (fun a => accessFault Config.hardware n a == none) = true) ∧
    (∀ n ∈ [Width.half, .word], accessFault straddleFaults n 0x1FFF = some (.straddle 0x1FFF n)) ∧
    (∀ n ∈ [Width.byte, .half, .word], accessFault missFaults n 0x4000 = some (.memMiss 0x4000 n) ∧
      accessFault missFaults n 0x0FFF = some (.memMiss 0x0FFF n)) ∧
    (∀ n ∈ [Width.byte, .half, .word], accessFault straddleFaults n 0x2000 = none ∧
      accessFault missFaults n 0x2000 = none) := by decide

/-- The effective address of an access as the statements compute it. -/
theorem witness_effective_address :
    (testState 0 (regs := [(1, 0x2001)])).readReg 1 + BitVec.ofInt 32 (0xFFF : BitVec 12).toInt = 0x2000 := by
  decide

theorem witness_StoresComplete :
    (testState 0x0020A023 (regs := [(1, 0x2000)]) (bytes := [(0x2001, 7), (0x3FFF, 9)])).mem.wf ∧
    (testState 0).mem.wf := by decide

/-- Each branch condition is met by some operands and not met by others. -/
theorem witness_BranchesComplete :
    let a : Word := 0xFFFFFFFF
    let b : Word := 1
    a ≠ b ∧ b = b ∧ a.toInt < b.toInt ∧ ¬ b.toInt < a.toInt ∧ a.toInt ≤ b.toInt ∧ ¬ b.toInt ≤ a.toInt ∧
    b.toNat < a.toNat ∧ ¬ a.toNat < b.toNat ∧ b.toNat ≤ a.toNat ∧ ¬ a.toNat ≤ b.toNat := by decide

/-- A state that fetches each row's word, and so one for every statement about a step on a word: at the
first and the last address of the text region that hold a word, and outside every region (the word 0). -/
theorem witness_words_fetched :
    (∀ w ∈ rowWords, Fetches (testState w) w) ∧ Fetches (testState 0x002081B3 (pc := 0x1FFC)) 0x002081B3 ∧
    Fetches (testState 0 (pc := 0xFFFFFFFE)) 0 := by
  have h : rowWords.all (fun w => decide ((testState w).run = true ∧ (testState w).fault = none ∧
      (testState w).cur = (testState w).nxt ∧
      accessFault (testState w).cfg .word (testState w).cur.pc = none ∧
      (testState w).memRead32 (testState w).cur.pc = w)) = true := by decide +kernel
  exact ⟨fun w hw => fetches_of (of_decide_eq_true (List.all_eq_true.1 h w hw)), fetches_of (by decide),
    fetches_of (by decide)⟩

theorem witness_StepRunsDecodedInstruction :
    Fetches (testState 0x002081B3) 0x002081B3 ∧ decode 0x002081B3 = .ok (.add 3 1 2) :=
  ⟨fetches_of (by decide), by decide⟩

/-- A division word with operands in each clause, under both policies. -/
theorem witness_DivisionWordsStep :
    let s := testState 0x0220C1B3 (regs := [(1, 0x80000000), (2, 0xFFFFFFFF)])
    let z := testState 0x0220D1B3 (regs := [(1, 7)]) (c := divFaults)
    Fetches s 0x0220C1B3 ∧ DivOverflows (s.readReg (rs1Field 0x0220C1B3)) (s.readReg (rs2Field 0x0220C1B3)) ∧
    Fetches z 0x0220D1B3 ∧ z.readReg (rs2Field 0x0220D1B3) = 0 ∧ z.cfg.divCorner = .fault := by
  refine ⟨fetches_of (by decide), ?_, fetches_of (by decide), by decide, by decide⟩
  unfold DivOverflows
  decide

/-- A load word and a store word whose access a fault policy stops, though the fetch goes through. -/
theorem witness_LoadWordsStep :
    let s := testState 0x0000A183 (regs := [(1, 0x2FFE)]) (c := straddleFaults)
    Fetches s 0x0000A183 ∧ accessFault s.cfg .word (s.readReg (rs1Field 0x0000A183) +
      BitVec.ofInt 32 (immIField 0x0000A183).toInt) = some (.straddle 0x2FFE .word) :=
  ⟨fetches_of (by decide), by decide⟩

theorem witness_StoreWordsStep :
    let s := testState 0x0020A023 (regs := [(1, 0x0FFF)]) (c := missFaults)
    Fetches s 0x0020A023 ∧ s.mem.wf ∧ accessFault s.cfg .word (s.readReg (rs1Field 0x0020A023) +
      BitVec.ofInt 32 (immSField 0x0020A023).toInt) = some (.memMiss 0x0FFF .word) :=
  ⟨fetches_of (by decide), by decide, by decide⟩

theorem witness_BranchWordsStep :
    let s := testState 0x0020C463 (regs := [(1, 0xFFFFFFFF), (2, 1)])
    let t := testState 0x0020C463 (regs := [(1, 1), (2, 1)])
    Fetches s 0x0020C463 ∧ (s.readReg (rs1Field 0x0020C463)).toInt < (s.readReg (rs2Field 0x0020C463)).toInt ∧
    Fetches t 0x0020C463 ∧ ¬ (t.readReg (rs1Field 0x0020C463)).toInt < (t.readReg (rs2Field 0x0020C463)).toInt :=
  ⟨fetches_of (by decide), by decide, fetches_of (by decide), by decide⟩

theorem witness_UnrecognizedWordsAreNops :
    Fetches (testState 0x022091B3) 0x022091B3 ∧ rowsMatching 0x022091B3 = [] ∧
    (testState 0x022091B3).cfg.decodeMiss = .nop := ⟨fetches_of (by decide), by decide, by decide⟩

theorem witness_UnrecognizedWordsFault :
    Fetches (testState 0x022091B3 (c := decodeFaults)) 0x022091B3 ∧ rowsMatching 0x022091B3 = [] ∧
    (testState 0x022091B3 (c := decodeFaults)).cfg.decodeMiss = .fault :=
  ⟨fetches_of (by decide), by decide, by decide⟩

/-- A running state between steps, under the hardware policies and under a fault policy. -/
theorem witness_StepCommitsOrFaults :
    ∀ s ∈ [testState 0x002081B3, testState 0 (c := decodeFaults)],
      s.run = true ∧ s.fault = none ∧ s.cur = s.nxt := by decide

theorem witness_HardwarePoliciesNeverFault :
    (testState 0x0020A023).cfg.AtHardwarePolicies ∧ (testState 0x0020A023).run = true ∧
    (testState 0x0020A023).fault = none ∧ (testState 0x0020A023).cur = (testState 0x0020A023).nxt := by decide

/-- A state with memory, a hardwired x0 and every part of the invariant at work. -/
theorem witness_invariant :
    StepInvariant (testState 0x0020A023 (regs := [(1, 0x2000)]) (bytes := [(0x3FFF, 9)]) (c := hardwiredX0)) :=
  ⟨by decide, by decide, by decide, by decide, trivial⟩

theorem witness_StepKeepsInvariant :
    ∃ s t, StepInvariant s ∧ step s = .next t := by
  obtain ⟨t, ht⟩ := step_next _
  exact ⟨_, t, witness_invariant, ht⟩

/-- A recorded fault meets the invariant too, where its policy enables it. -/
theorem witness_invariant_faulted :
    StepInvariant ((testState 0 (c := decodeFaults)).raise (.decode 0x1000 0)) :=
  ⟨by decide, by decide, by decide, by decide, by exact rfl⟩

theorem witness_HostOperationsKeepInvariant :
    ∀ op ∈ [HostOp.stop, .setReg 31 1, .setReg 0 1, .setReg 32 1, .reset [0x73], .dumpRegisters,
      .dumpMemory 0xFFFFFFFF 0xFFFFFFFF, .listProgram, .status],
      ∃ s t r, StepInvariant s ∧ hostApply op s = .next (t, r) := by
  intro op h
  simp only [List.mem_cons, List.not_mem_nil, or_false] at h
  rcases h with rfl | rfl | rfl | rfl | rfl | rfl | rfl | rfl | rfl <;>
    exact ⟨_, _, _, witness_invariant, rfl⟩

theorem witness_ReachableStatesMeetInvariant :
    ∃ t u r, Reachable t ∧ hostApply .stop t = .next (u, r) ∧ Reachable u := by
  obtain ⟨t, ht⟩ := step_next p1
  have hr : Reachable t := .step (.boot _) ht
  exact ⟨t, hostStop t, .done, hr, rfl, .host (op := .stop) hr rfl⟩

/-- A word of each kind that the frame distinguishes: a store, a branch, a jump, a SYSTEM word, another. -/
theorem witness_StepChangesAtMost :
    ∀ w : Word, w = 0x0020A023 ∨ w = 0x00208463 ∨ w = 0x010000EF ∨ w = 0x00000073 ∨ w = 0x002081B3 →
      (∃ t, step (testState w) = .next t ∧ t.fault = none) ∧ Fetches (testState w) w := by
  rintro w (rfl | rfl | rfl | rfl | rfl) <;>
    exact ⟨next_of_after (f := (·.fault)) (by decide), fetches_of (by decide)⟩

theorem witness_OnlySystemClearsRun :
    (testState 0x00000073).run = true ∧ (∃ t, step (testState 0x00000073) = .next t ∧ t.run = false) ∧
    (∃ t, step (hostStop (testState 0x00000073)) = .next t) ∧ (hostStop (testState 0x00000073)).run = false :=
  ⟨by decide, next_of_after (f := (·.run)) (by decide), step_next _, rfl⟩

theorem witness_StoppedMachinePerformsNoStep :
    (hostStop p1).run = false ∧ (p1.raise (.decode 0 0)).fault ≠ none := by decide

theorem witness_FaultStaysUntilReset :
    (p1.raise (.decode 0 0)).fault ≠ none ∧
    (∃ t r, hostApply (.reset []) (p1.raise (.decode 0 0)) = .next (t, r)) ∧
    (∃ t r, hostApply (.runN 1) (p1.raise (.decode 0 0)) = .next (t, r)) :=
  ⟨by decide, ⟨_, _, rfl⟩, ⟨_, _, rfl⟩⟩

/-- Each clause of the priority: the fetch's fault, the decode fault, and after them a division corner
and a data access; and of one access a straddle, a miss and neither. -/
theorem witness_FaultsFollowPriority :
    let f := testState 0 (pc := 0) (c := { decodeFaults with memMiss := .fault })
    let d := testState 0 (c := { decodeFaults with memMiss := .fault })
    (f.run = true ∧ f.fault = none ∧ accessFault f.cfg .word f.cur.pc = some (.memMiss 0 .word)) ∧
    (d.run = true ∧ d.fault = none ∧ accessFault d.cfg .word d.cur.pc = none ∧ d.cfg.decodeMiss = .fault ∧
      rowsMatching (d.memRead32 d.cur.pc) = []) ∧
    (∃ t, step (testState 0x0220C1B3 (c := divFaults)) = .next t ∧ t.fault = some (.divCorner 0x1000)) ∧
    (∃ t, step (testState 0x0000A183 (c := missFaults)) = .next t ∧ t.fault = some (.memMiss 0 .word)) ∧
    (straddleFaults.straddle = .fault ∧ straddles straddleFaults .word 0x3FFD = true) ∧
    (straddles missFaults .word 0x3FFC = false ∧ touchesUnmapped missFaults .word 0x4000 = true) ∧
    (missFaults.memMiss = .fault ∧ touchesUnmapped missFaults .word 0x3FFC = false) :=
  ⟨by decide, by decide, next_of_after (f := (·.fault)) (by decide), next_of_after (f := (·.fault)) (by decide),
    by decide, by decide, by decide⟩

/-- Two running states that agree on `cur`, memory and the parameters, with different counters and
diagnostics. -/
theorem witness_StepDependsOnCurMemoryParameters :
    let s := testState 0x002081B3 (regs := [(1, 5)])
    let t := { s with icount := 77, decodeMiss := true, memMiss := true }
    AgreeForStep s t ∧ s.cur = s.nxt ∧ t.cur = t.nxt ∧ s.mayStep = true ∧ t.mayStep = true ∧ s ≠ t ∧
    (∃ u, step s = .next u) ∧ ∃ u, step t = .next u :=
  ⟨⟨rfl, rfl, rfl⟩, by decide, by decide, by decide, by decide, by decide, step_next _, step_next _⟩

theorem witness_ConfigurationIsFixed :
    (∃ t, step p1 = .next t) ∧ (∃ t r, hostApply (.reset [0x73]) p1 = .next (t, r) ∧ t.cfg ≠ p1.cfg) ∧
    ∃ t r, hostApply .stop p1 = .next (t, r) :=
  ⟨step_next _, ⟨_, _, rfl, by decide⟩, ⟨_, _, rfl⟩⟩

/-- Words at both ends of a region, unaligned, and across two regions: all four bytes mapped. -/
theorem witness_WordRoundTrip :
    p1.mem.wf ∧ touchesUnmapped p1.cfg .word 0x1000 = false ∧ touchesUnmapped p1.cfg .word 0x2001 = false ∧
    touchesUnmapped p1.cfg .word 0x2FFE = false ∧ touchesUnmapped p1.cfg .word 0x3FFC = false := by decide

theorem witness_UnmappedBytes :
    (∀ r ∈ p1.cfg.regions, ¬ (r.base ≤ 0x0FFF ∧ 0x0FFF ≤ r.last)) ∧
    (∀ r ∈ p1.cfg.regions, ¬ (r.base ≤ 0x4000 ∧ 0x4000 ≤ r.last)) ∧
    ∀ r ∈ p1.cfg.regions, ¬ (r.base ≤ 0xFFFFFFFF ∧ 0xFFFFFFFF ≤ r.last) := by decide

theorem witness_UnmappedFetchIsNop :
    ∀ pc : Word, pc = 0x4000 ∨ pc = 0x0FFC ∨ pc = 0xFFFFFFFC →
      let s := testState 0 (pc := pc)
      s.cfg.AtHardwarePolicies ∧ s.mayStep = true ∧ s.cur = s.nxt ∧
      ∀ k, k < 4 → mapped s.cfg (s.cur.pc + BitVec.ofNat 32 k) = false := by
  rintro pc (rfl | rfl | rfl) <;> decide

/-- V-ST-10: an SW into the next word. -/
theorem witness_StoreIsFetchedNext :
    let s := testState 0x0020A223 (regs := [(1, 0x1000), (2, 0x00000073)])
    Fetches s 0x0020A223 ∧ s.mem.wf ∧ (0x0020A223 : Word) &&& 0x0000707F = 0x00002023 ∧
    s.readReg (rs1Field 0x0020A223) + BitVec.ofInt 32 (immSField 0x0020A223).toInt = s.cur.pc + 4 ∧
    accessFault s.cfg .word (s.cur.pc + 4) = none ∧ touchesUnmapped s.cfg .word (s.cur.pc + 4) = false :=
  ⟨fetches_of (by decide), by decide, by decide, by decide, by decide, by decide⟩

theorem witness_PlacedWordIsFetched :
    let s := { p1 with run := false, fault := some (.decode 0 0) }
    s.cur = s.nxt ∧ s.mem.wf ∧ touchesUnmapped s.cfg .word s.cur.pc = false ∧
    accessFault s.cfg .word s.cur.pc = none := by decide

theorem witness_EmptyMemoryRunsOn :
    State.reset.cfg.AtHardwarePolicies ∧ State.reset.run = true ∧ State.reset.fault = none ∧
    State.reset.cur = State.reset.nxt ∧ State.reset.mem = [] := by decide

/-- An image whose third word is its last, and an address it does not reach. -/
theorem witness_BootState :
    4 * p1.cfg.image.length ≤ 2 ^ 32 ∧ 3 < p1.cfg.image.length ∧
    ∀ j, j < 4 * p1.cfg.image.length → (0x1010 : Word) ≠ p1.cfg.textBase + BitVec.ofNat 32 j := by decide

/-- A second image word that meets the region's end: its first two bytes are mapped, the others not. -/
theorem witness_BootState_region_end :
    let c : Config := { Config.hardware with regions := [⟨.text, 0x1000, 0x1005⟩], image := [1, 0x11223344] }
    4 * c.image.length ≤ 2 ^ 32 ∧ 1 < c.image.length ∧
    mapped c (c.textBase + BitVec.ofNat 32 (4 * 1 + 1)) = true ∧
    mapped c (c.textBase + BitVec.ofNat 32 (4 * 1 + 2)) = false := by decide

theorem witness_SetRegWritesBothSnapshots :
    (State.cleared hardwiredX0).hardwired ⟨0, by decide⟩ = true ∧
    (State.cleared hardwiredX0).hardwired ⟨1, by decide⟩ = false ∧ p1.hardwired ⟨0, by decide⟩ = false ∧
    p1.hardwired ⟨31, by decide⟩ = false ∧ 32 ≤ 32 ∧ ∃ t r, hostApply .status p1 = .next (t, r) :=
  ⟨by decide, by decide, by decide, by decide, by decide, ⟨_, _, rfl⟩⟩

theorem witness_HostMovesAreLimited :
    ∃ t r, hostApply (.setReg 31 1) p1 = .next (t, r) ∧ (∀ n, HostOp.setReg 31 1 ≠ .runN n) ∧
    ∀ image, HostOp.setReg 31 1 ≠ .reset image :=
  ⟨_, _, rfl, nofun, nofun⟩

theorem witness_RunsContinueAndAreDeterminate :
    (∃ t, runN 2 p1 = .next t) ∧ ∃ t, RunReturns p1 t := by
  obtain ⟨t, ht, -⟩ := next_of_after (r := runN 2 p1) (f := (·.icount)) (x := 2) (by decide)
  obtain ⟨u, hu, hs⟩ := next_of_after (r := runN 4 p1) (f := (·.mayStep)) (x := false) (by decide)
  exact ⟨⟨t, ht⟩, u, 4, hu, hs⟩

theorem witness_ViewsChangeNothing :
    (listProgram p1).length = 4 ∧ (dumpMemory 0xFFFFFFFF 0xFFFFFFFF p1).length = 1 := by decide

/-- Both forms of `li`, at the ends of the one-ADDI form's range and just beyond, each held by a state. -/
theorem witness_PseudoHalvesAddUp :
    (expandPseudo (.li 5 0xFFFFF800)).length = 1 ∧ (expandPseudo (.li 5 2047)).length = 1 ∧
    (expandPseudo (.li 5 2048)).length = 2 ∧ (expandPseudo (.li 5 0xFFFFF7FF)).length = 2 := by decide

/-- A boot state holds its image from the program counter on. -/
def liState (imm : Word) (c : Config) : State :=
  State.boot { c with image := (expandPseudo (.li 0 imm)).map encode }

theorem witness_li_short : HoldsProgram (liState 2047 hardwiredX0) (expandPseudo (.li 0 2047)) where
  running := by decide
  unfaulted := by decide
  snapshots := by decide
  fetchable := by decide
  words := by decide

theorem witness_li_long : HoldsProgram (liState 0xDEADBEEF Config.hardware) (expandPseudo (.li 0 0xDEADBEEF)) where
  running := by decide
  unfaulted := by decide
  snapshots := by decide
  fetchable := by decide
  words := by decide

end Sys2Proof.Tests
end

/-! # Proofs of the scope family (00_scope.md) -/

namespace Sys2Proof.Machine

/-! ## The extension primitives (R12, R13) -/

theorem sext_getLsbD {n : Nat} (v : BitVec n) {i : Nat} (hi : i < 32) :
    (sext v).getLsbD i = if i < n then v.getLsbD i else v.getLsbD (n - 1) := by
  rw [sext, BitVec.getLsbD_signExtend, BitVec.msb_eq_getLsbD_last]
  simp [hi]

theorem zext_getLsbD {n : Nat} (v : BitVec n) {i : Nat} (hi : i < 32) :
    (zext v).getLsbD i = if i < n then v.getLsbD i else false := by
  rw [zext, BitVec.getLsbD_setWidth]
  split
  · simp [hi]
  · simp [BitVec.getLsbD_of_ge v i (by omega)]

/-- Settles O6: each primitive has its own lemma, which needs no bound on the width. -/
theorem extensionBits : Obligations.ExtensionBits :=
  fun _ _ _ v _ hi => ⟨sext_getLsbD v hi, zext_getLsbD v hi⟩

/-! ## A step commits or raises an enabled fault (R157, R163, R513) -/

/-- An effect may set `mem_miss` and never clears it (R46). -/
theorem Effect.memMiss {i : Instr} {s t : State} (h : Effect i s t) :
    ∃ missed, t.memMiss = (s.memMiss || missed) := by
  cases h with
  | writes rd v missed => exact ⟨missed, by simp⟩
  | stores w ea v missed =>
    obtain ⟨-, -, -, -, -, h1, -, -⟩ := storeBytes_frame w (s.noteMemMiss missed) ea v
    exact ⟨missed, by simp [h1]⟩
  | _ => exact ⟨false, by simp⟩

/-- The fault an access raises is one that its own policy enables (R71, R79). -/
theorem faultEnabled_of_accessFault {c : Config} {w : Width} {a : Word} {f : Fault}
    (h : accessFault c w a = some f) : FaultEnabled c (some f) := by
  rcases accessFault_some h with ⟨rfl, hp, -⟩ | ⟨rfl, hp, -⟩ <;> exact hp

/-- A running machine's step commits, or it raises a fault that a policy enables and commits nothing. -/
theorem step_commits_or_faults {s : State} (hm : s.mayStep = true) :
    (∃ t unrecognized missed, step s = .next t ∧ Committed s t unrecognized missed) ∨
    (∃ t f, step s = .next t ∧ StepFaults s t f ∧ FaultEnabled s.cfg (some f)) := by
  have hs : s.fault = none := ((State.mayStep_iff s).1 hm).2
  rcases step_cases s with ⟨hstop, -⟩ | ⟨-, f, hf, h⟩ | ⟨-, -, e, -, ⟨-, h⟩ | ⟨hp, h⟩⟩ |
    ⟨-, -, i, t, -, -, he, h⟩
  · simp [hstop] at hm
  · exact .inr ⟨_, f, h, stepFaults_fetch s f, faultEnabled_of_accessFault hf⟩
  · rw [State.commitUnlessFaulted_none (by simpa using hs)] at h
    exact .inl ⟨_, true, false, h, by constructor <;> simp [hs]⟩
  · exact .inr ⟨_, .decode s.cur.pc (s.memRead32 s.cur.pc), h, by constructor <;> simp, hp⟩
  · rcases he.fault with hf | ⟨f, rfl, hen, -⟩
    · have ht : t.fault = none := hf.trans hs
      obtain ⟨-, hcount, hdec, hcfg⟩ := he.keeps
      obtain ⟨missed, hmiss⟩ := he.memMiss
      rw [State.commitUnlessFaulted_none ht] at h
      exact .inl ⟨_, false, missed, h, by constructor <;> simp [hcount, hdec, hmiss, ht, hcfg]⟩
    · exact .inr ⟨_, f, h, (raisesOnly_raise s.begun f).step, hen⟩

/-- Under the hardware policies no model-level fault is enabled (R15). -/
theorem not_faultEnabled_of_hardware {c : Config} (h : c.AtHardwarePolicies) (f : Fault) :
    ¬ FaultEnabled c (some f) := by
  obtain ⟨-, hs, hm, hd, hv⟩ := h
  cases f <;> simp [FaultEnabled, hs, hm, hd, hv]

/-- Settles O31: a step that does not commit raises an enabled fault, and the hardware policies
enable none. -/
theorem hardwarePoliciesNeverFault : Obligations.HardwarePoliciesNeverFault := by
  intro s hp hr hf _
  rcases step_commits_or_faults ((State.mayStep_iff s).2 ⟨hr, hf⟩) with h | ⟨_, f, -, -, hen⟩
  · exact h
  · exact absurd hen (not_faultEnabled_of_hardware hp f)

/-! ## The reset state (R600, R603) -/

/-- Booting with an empty image loads nothing over the cleared state. -/
theorem State.boot_of_image_nil {c : Config} (h : c.image = []) : State.boot c = State.cleared c := by
  rw [State.boot, h, State.loadWords]

/-- Settles O53: the hardware configuration has the empty image, and its region map is a closed list. -/
theorem resetIsBootOfHardware : Obligations.ResetIsBootOfHardware :=
  ⟨(State.boot_of_image_nil rfl).symm, rfl, by decide, by decide⟩

end Sys2Proof.Machine

/-! # Proofs of the state family (10_state.md) -/

namespace Sys2Proof.Machine

/-! ## The invariant of the execute part -/

/-- `StepInvariant` as it stands inside a step, where the snapshots need not agree: a hardwired x0 is
zero in both of them (R32, R38). -/
structure ExecInvariant (s : State) : Prop where
  canonical : s.mem.wf
  inRegions : ∀ c ∈ s.mem, c.1 < 2 ^ 32 ∧ mapped s.cfg (BitVec.ofNat 32 c.1) = true
  curZero : s.cfg.x0Hardwired = true → s.cur.reg 0 = 0
  nxtZero : s.cfg.x0Hardwired = true → s.nxt.reg 0 = 0
  faultEnabled : FaultEnabled s.cfg s.fault

/-- Between steps the snapshots agree beside it (R40). -/
theorem stepInvariant_iff (s : State) : StepInvariant s ↔ s.cur = s.nxt ∧ ExecInvariant s where
  mp h := ⟨h.snapshots, h.canonical, h.inRegions, h.hardwiredZero, h.snapshots ▸ h.hardwiredZero,
    h.faultEnabled⟩
  mpr | ⟨hs, h⟩ => ⟨hs, h.canonical, h.inRegions, h.curZero, h.faultEnabled⟩

theorem StepInvariant.exec {s : State} (h : StepInvariant s) : ExecInvariant s :=
  ((stepInvariant_iff s).1 h).2

namespace ExecInvariant

/-- The cleared state lists no byte, holds no register but 0 and records no fault (R600). -/
theorem cleared (c : Config) : ExecInvariant (State.cleared c) where
  canonical := ⟨.nil, by simp⟩
  inRegions := by simp
  curZero := by simp
  nxtZero := by simp
  faultEnabled := trivial

section Updates
variable {s : State} (h : ExecInvariant s)
include h

theorem clearDiagnostics : ExecInvariant s.clearDiagnostics := { h with }

theorem noteDecodeMiss : ExecInvariant s.noteDecodeMiss := { h with }

theorem noteMemMiss (missed : Bool) : ExecInvariant (s.noteMemMiss missed) := { h with }

theorem halt : ExecInvariant s.halt := { h with }

theorem setPc (pc : Word) : ExecInvariant (s.setPc pc) := { h with }

theorem begun : ExecInvariant s.begun := (h.clearDiagnostics.noteMemMiss _).setPc _

theorem writeReg (r : Reg) (v : Word) : ExecInvariant (s.writeReg r v) where
  canonical := by simpa using h.canonical
  inRegions := by simpa using h.inRegions
  curZero := by simpa using h.curZero
  nxtZero hx := by
    rw [State.writeReg_cfg] at hx
    rw [State.writeReg_reg_zero r v hx, h.nxtZero hx]
  faultEnabled := by simpa using h.faultEnabled

theorem storeBytes (w : Width) (ea v : Word) : ExecInvariant (storeBytes w s ea v) := by
  obtain ⟨hcur, hnxt, -, -, -, -, hfault, hcfg⟩ := storeBytes_frame w s ea v
  constructor
  · exact storeBytes_mem_wf w h.canonical ea v
  · rw [hcfg]; exact storeBytes_mem_inRegions w ea v h.inRegions
  · rw [hcfg, hcur]; exact h.curZero
  · rw [hcfg, hnxt]; exact h.nxtZero
  · rw [hcfg, hfault]; exact h.faultEnabled

theorem loadWords (a : Word) (ws : List Word) : ExecInvariant (s.loadWords a ws) where
  canonical := State.loadWords_mem_wf ws h.canonical a
  inRegions := by simpa using State.loadWords_mem_inRegions ws a h.inRegions
  curZero := by simpa using h.curZero
  nxtZero := by simpa using h.nxtZero
  faultEnabled := by simpa using h.faultEnabled

/-- Raising an enabled fault discards the next snapshot, so the snapshots agree again (R513). -/
theorem raise {f : Fault} (hf : FaultEnabled s.cfg (some f)) : StepInvariant (s.raise f) :=
  ⟨rfl, h.canonical, h.inRegions, h.curZero, hf⟩

/-- The commit copies the next snapshot, so they agree again (R157). -/
theorem commit : StepInvariant s.commit :=
  ⟨rfl, h.canonical, h.inRegions, h.nxtZero, h.faultEnabled⟩

end Updates

end ExecInvariant

/-- Every effect of an instruction is made of the updates above. -/
theorem Effect.execInvariant {i : Instr} {s t : State} (he : Effect i s t) (h : ExecInvariant s) :
    ExecInvariant t := by
  cases he with
  | writes rd v missed => exact (h.noteMemMiss missed).writeReg rd v
  | links rd v pc => exact (h.writeReg rd v).setPc pc
  | goes pc => exact h.setPc pc
  | stays => exact h
  | stores w ea v missed => exact (h.noteMemMiss missed).storeBytes w ea v
  | halts => exact h.halt
  | corner _ hc => exact (h.raise (f := .divCorner s.cur.pc) hc).exec
  | accessFaults _ _ _ _ ha => exact (h.raise (faultEnabled_of_accessFault ha)).exec

/-! ## The invariant between steps (R32, R40, R61, R513) -/

/-- Settles O32: the step ends by a commit or by raising an enabled fault, and each makes
`StepInvariant` of `ExecInvariant`. -/
theorem stepKeepsInvariant : Obligations.StepKeepsInvariant := by
  intro s t hi hst
  have hb : ExecInvariant s.begun := hi.exec.begun
  rcases step_cases s with ⟨-, h⟩ | ⟨-, f, hf, h⟩ | ⟨hm, -, e, -, ⟨-, h⟩ | ⟨hp, h⟩⟩ |
    ⟨hm, -, i, u, -, -, he, h⟩ <;> cases h.symm.trans hst
  · exact hi
  · exact hi.exec.clearDiagnostics.raise (faultEnabled_of_accessFault hf)
  · have hs : s.fault = none := ((State.mayStep_iff s).1 hm).2
    rw [State.commitUnlessFaulted_none (by simpa using hs)]
    exact hb.noteDecodeMiss.commit
  · exact hb.raise hp
  · have hs : s.fault = none := ((State.mayStep_iff s).1 hm).2
    rcases he.fault with hf | ⟨f, rfl, hen, -⟩
    · rw [State.commitUnlessFaulted_none (hf.trans hs)]
      exact (he.execInvariant hb).commit
    · rw [State.commitUnlessFaulted_some (State.raise_fault _ f)]
      exact hb.raise hen

/-- Settles O34: the load of the image keeps what the cleared state meets. -/
theorem bootMeetsInvariant : Obligations.BootMeetsInvariant := fun c =>
  (stepInvariant_iff _).2 ⟨by simp [State.boot], (ExecInvariant.cleared c).loadWords _ _⟩

/-- Settles O33: `State.reset` is the boot state of the hardware configuration. -/
theorem resetMeetsInvariant : Obligations.ResetMeetsInvariant :=
  show StepInvariant State.reset from resetIsBootOfHardware.1 ▸ bootMeetsInvariant Config.hardware

/-! ## Host operations -/

/-- What every step keeps, RUN_N keeps (R164). -/
theorem runN_keeps {P : State → Prop} (hP : ∀ s t, P s → step s = .next t → P t) (n : Nat) :
    ∀ {s t : State}, P s → runN n s = .next t → P t := by
  induction n with
  | zero =>
    intro s t hs h
    cases h
    exact hs
  | succ n ih =>
    intro s t hs h
    obtain ⟨u, hu⟩ := step_next s
    exact ih (hP s u hs hu) (runN_succ_of_step n hu ▸ h)

/-- What a host operation makes of a state: RUN_N, STOP, SET_REG and RESET what they are defined to,
and a rejected SET_REG or a view the state itself (R164 to R168, R170). -/
theorem hostApply_cases {s t : State} {op : HostOp} {r : HostReply} (h : hostApply op s = .next (t, r)) :
    (∃ n, op = .runN n ∧ runN n s = .next t) ∨ (op = .stop ∧ t = hostStop s) ∨
    (∃ i v, op = .setReg i v ∧ hostSetReg i v s = some t) ∨
    (∃ image, op = .reset image ∧ t = hostReset image s) ∨ t = s := by
  cases op with
  | runN n =>
    obtain ⟨u, hu⟩ := runN_next n s
    simp only [hostApply, hu] at h
    cases h
    exact .inl ⟨n, rfl, hu⟩
  | stop =>
    cases h
    exact .inr (.inl ⟨rfl, rfl⟩)
  | setReg i v =>
    cases hr : hostSetReg i v s with
    | some u =>
      simp only [hostApply, hr] at h
      cases h
      exact .inr (.inr (.inl ⟨i, v, rfl, hr⟩))
    | none =>
      simp only [hostApply, hr] at h
      cases h
      exact .inr (.inr (.inr (.inr rfl)))
  | reset image =>
    cases h
    exact .inr (.inr (.inr (.inl ⟨image, rfl, rfl⟩)))
  | dumpRegisters | dumpMemory | listProgram | status =>
    cases h
    exact .inr (.inr (.inr (.inr rfl)))

/-- An accepted SET_REG leaves the state as it is, at a hardwired x0, or writes the register in both
snapshots (R166). -/
theorem hostSetReg_cases {s t : State} {i : Nat} {v : Word} (h : hostSetReg i v s = some t) :
    t = s ∨ ∃ q : Reg, s.hardwired q = false ∧
      t = { s with cur := s.cur.setReg q v, nxt := s.nxt.setReg q v } := by
  unfold hostSetReg at h
  split at h
  case isFalse => cases h
  case isTrue hlt =>
    cases hw : s.hardwired ⟨i, hlt⟩ <;> simp only [hw] at h <;> cases h
    · exact .inr ⟨_, hw, rfl⟩
    · exact .inl rfl

/-- SET_REG writes both snapshots alike, and never a hardwired x0 (R32, R166). -/
theorem StepInvariant.hostSetReg {s t : State} {i : Nat} {v : Word} (hi : StepInvariant s)
    (h : hostSetReg i v s = some t) : StepInvariant t := by
  rcases hostSetReg_cases h with rfl | ⟨q, hq, rfl⟩
  · exact hi
  · refine ⟨by simp [hi.snapshots], hi.canonical, hi.inRegions, fun hx => ?_, hi.faultEnabled⟩
    have hne : (0 : Reg) ≠ q := by
      rintro rfl
      simp_all [State.hardwired]
    rw [Snapshot.setReg_reg_of_ne _ v hne]
    exact hi.hardwiredZero hx

/-- Settles O35: RUN_N repeats the step, RESET boots, and STOP and SET_REG keep each clause. -/
theorem hostOperationsKeepInvariant : Obligations.HostOperationsKeepInvariant := by
  intro s t op r hi h
  rcases hostApply_cases h with ⟨n, -, hn⟩ | ⟨-, rfl⟩ | ⟨i, v, -, hv⟩ | ⟨image, -, rfl⟩ | rfl
  · exact runN_keeps stepKeepsInvariant n hi hn
  · exact { hi with }
  · exact hi.hostSetReg hv
  · exact bootMeetsInvariant _
  · exact hi

/-- Settles O36, by induction on how the state was reached. -/
theorem reachableStatesMeetInvariant : Obligations.ReachableStatesMeetInvariant := by
  intro s hr
  induction hr with
  | boot c => exact bootMeetsInvariant c
  | step _ hst ih => exact stepKeepsInvariant _ _ ih hst
  | host _ hop ih => exact hostOperationsKeepInvariant _ _ _ _ ih hop

/-! ## The run flag (R41, R431) -/

/-- Only a SYSTEM instruction changes `run` (R41). -/
theorem Effect.run {i : Instr} {s t : State} (h : Effect i s t) :
    t.run = s.run ∨ (family i = .system ∧ t = s.halt) := by
  cases h with
  | halts hf => exact .inr ⟨hf, rfl⟩
  | stores w ea v missed =>
    obtain ⟨-, -, hrun, -⟩ := storeBytes_frame w (s.noteMemMiss missed) ea v
    exact .inl hrun
  | _ => exact .inl (by simp)

@[simp] theorem State.commitUnlessFaulted_run (s : State) : s.commitUnlessFaulted.run = s.run := by
  unfold State.commitUnlessFaulted; split <;> rfl

@[simp] theorem State.commitUnlessFaulted_cfg (s : State) : s.commitUnlessFaulted.cfg = s.cfg := by
  unfold State.commitUnlessFaulted; split <;> rfl

/-- A step leaves `run` as it is, or runs a SYSTEM word and commits its halt (R431). -/
theorem step_run {s t : State} (hst : step s = .next t) :
    t.run = s.run ∨
    (opcodeField (s.memRead32 s.cur.pc) = 0b1110011 ∧ s.fault = none ∧ t = s.begun.halt.commit) := by
  rcases step_cases s with ⟨-, h⟩ | ⟨-, f, -, h⟩ | ⟨-, -, e, -, ⟨-, h⟩ | ⟨-, h⟩⟩ |
    ⟨hm, -, i, u, hd, -, he, h⟩ <;> cases h.symm.trans hst
  case inr.inr.inr =>
    rcases he.run with hr | ⟨hsys, rfl⟩
    · exact .inl (by simpa using hr)
    · have hs : s.fault = none := ((State.mayStep_iff s).1 hm).2
      obtain ⟨-, -, hsystem, -⟩ := family_of_decode hd
      exact .inr ⟨hsystem.1 hsys, hs, State.commitUnlessFaulted_none (by simpa using hs)⟩
  all_goals exact .inl (by simp)

/-- Settles O38: a stopped machine takes no step, and a running one halts at a committed SYSTEM word only. -/
theorem onlySystemClearsRun : Obligations.OnlySystemClearsRun := by
  intro s t hst
  constructor
  · intro hr
    rw [step_of_stopped (by simp [State.mayStep, hr])] at hst
    cases hst
    exact hr
  · intro hr hr'
    rcases step_run hst with h | ⟨hop, hs, rfl⟩
    · simp [hr, hr'] at h
    · exact ⟨hop, by simpa using hs, by simp⟩

/-! ## The configuration (R49) -/

theorem step_cfg {s t : State} (hst : step s = .next t) : t.cfg = s.cfg := by
  rcases step_cases s with ⟨-, h⟩ | ⟨-, f, -, h⟩ | ⟨-, -, e, -, ⟨-, h⟩ | ⟨-, h⟩⟩ |
    ⟨-, -, i, u, -, -, he, h⟩ <;> cases h.symm.trans hst
  case inr.inr.inr =>
    obtain ⟨-, -, -, hcfg⟩ := he.keeps
    simpa using hcfg
  all_goals simp

/-- Settles O43: no step changes the configuration, so neither does RUN_N, and RESET boots the
configuration with the new image. -/
theorem configurationIsFixed : Obligations.ConfigurationIsFixed := by
  refine ⟨fun s t => step_cfg, fun s t op r h => ?_⟩
  rcases hostApply_cases h with ⟨n, -, hn⟩ | ⟨-, rfl⟩ | ⟨i, v, -, hv⟩ | ⟨image, hop, rfl⟩ | rfl
  · have hkeeps : ∀ u u' : State, u.cfg = s.cfg → step u = .next u' → u'.cfg = s.cfg :=
      fun _ _ hu hst => (step_cfg hst).trans hu
    exact .inl (runN_keeps hkeeps n rfl hn)
  · exact .inl rfl
  · rcases hostSetReg_cases hv with rfl | ⟨q, -, rfl⟩ <;> exact .inl rfl
  · exact .inr ⟨image, hop, by simp [hostReset, State.boot]⟩
  · exact .inl rfl

/-! ## Unmapped bytes (R46, R64 to R67) -/

theorem mapped_iff (c : Config) (a : Word) :
    mapped c a = true ↔ ∃ r ∈ c.regions, r.base ≤ a ∧ a ≤ r.last := by
  simp [mapped, regionContains_iff]

theorem touchesUnmapped_iff (c : Config) (w : Width) (a : Word) :
    touchesUnmapped c w a = true ↔ ∃ k, k < w.bytes ∧ mapped c (a + BitVec.ofNat 32 k) = false := by
  simp [touchesUnmapped, accessBytes]

/-- Settles O46: each clause is what the region list says of an address or of the bytes of an access. -/
theorem unmappedBytes : Obligations.UnmappedBytes :=
  ⟨mapped_iff,
    fun _ _ b h =>
      ⟨State.readByte_unmapped (mapped_eq_false h), State.writeByte_unmapped b (mapped_eq_false h)⟩,
    touchesUnmapped_iff⟩

/-! ## The program image in memory (R602, R604) -/

theorem State.readByte_of_mem_nil {s : State} (h : s.mem = []) (a : Word) : s.readByte a = 0 := by
  simp [State.readByte, h]

/-- Offsets below the size of the address space tell addresses apart. -/
theorem add_ofNat_ne_of_lt (a : Word) {i j : Nat} (hi : i < 2 ^ 32) (hj : j < 2 ^ 32) (h : i ≠ j) :
    a + BitVec.ofNat 32 i ≠ a + BitVec.ofNat 32 j := by
  intro e
  have e' : BitVec.ofNat 32 i = BitVec.ofNat 32 j := by simpa using e
  have := congrArg BitVec.toNat e'
  simp only [BitVec.toNat_ofNat] at this
  omega

/-- Offset `j` from the second word of an image is offset `4 + j` from the first. -/
theorem add_four_add_ofNat (a : Word) (j : Nat) :
    a + 4#32 + BitVec.ofNat 32 j = a + BitVec.ofNat 32 (4 + j) := by
  rw [BitVec.ofNat_add, BitVec.add_assoc]

/-- A load leaves every byte beyond the image as it was (R602). -/
theorem State.readByte_loadWords_of_ne (ws : List Word) : ∀ (s : State) (a : Word) {x : Word},
    (∀ j, j < 4 * ws.length → x ≠ a + BitVec.ofNat 32 j) → (s.loadWords a ws).readByte x = s.readByte x := by
  induction ws with
  | nil => intro s a x _; rfl
  | cons w ws ih =>
    intro s a x h
    rw [List.length_cons] at h
    have hrest : ∀ j, j < 4 * ws.length → x ≠ a + 4#32 + BitVec.ofNat 32 j := fun j hj =>
      add_four_add_ofNat a j ▸ h (4 + j) (by omega)
    rw [State.loadWords, ih _ _ hrest]
    exact State.readByte_memWrite32_of_ne w (by simpa using h 0 (by omega)) (h 1 (by omega))
      (h 2 (by omega)) (h 3 (by omega))

/-- An image no longer than the address space is found byte by byte where it was loaded and is mapped:
no later word of it overwrites an earlier one (R602). -/
theorem State.readByte_loadWords (ws : List Word) : ∀ {s : State} (a : Word), s.mem.wf →
    4 * ws.length ≤ 2 ^ 32 → ∀ (i : Nat) (h : i < ws.length) {k : Nat}, k < 4 →
    mapped s.cfg (a + BitVec.ofNat 32 (4 * i + k)) = true →
    (s.loadWords a ws).readByte (a + BitVec.ofNat 32 (4 * i + k)) = ws[i].extractLsb' (8 * k) 8 := by
  induction ws with
  | nil => intro s a _ _ i h; simp at h
  | cons w ws ih =>
    intro s a hw hlen i h k hk hm
    rw [List.length_cons] at hlen
    rw [State.loadWords]
    cases i with
    | zero =>
      rw [Nat.mul_zero, Nat.zero_add] at hm ⊢
      have hne : ∀ j, j < 4 * ws.length → a + BitVec.ofNat 32 k ≠ a + 4#32 + BitVec.ofNat 32 j :=
        fun j hj => add_four_add_ofNat a j ▸ add_ofNat_ne_of_lt a (by omega) (by omega) (by omega)
      rw [State.readByte_loadWords_of_ne ws _ _ hne]
      exact State.readByte_memWrite32 hw a w hk hm
    | succ i =>
      have haddr : a + BitVec.ofNat 32 (4 * (i + 1) + k) = a + 4#32 + BitVec.ofNat 32 (4 * i + k) := by
        rw [add_four_add_ofNat]; congr 2; omega
      rw [haddr] at hm ⊢
      exact ih (a + 4#32) (State.memWrite32_mem_wf hw a w) (by omega) i (by simpa using h) hk
        (by simpa using hm)

/-- A byte of the image after RESET (R602, R604). -/
theorem State.boot_readByte_image {c : Config} (hlen : 4 * c.image.length ≤ 2 ^ 32) (i : Nat)
    (h : i < c.image.length) {k : Nat} (hk : k < 4) :
    (State.boot c).readByte (c.textBase + BitVec.ofNat 32 (4 * i + k)) =
      if mapped c (c.textBase + BitVec.ofNat 32 (4 * i + k)) then (c.image[i]).extractLsb' (8 * k) 8
      else 0 := by
  cases hm : mapped c (c.textBase + BitVec.ofNat 32 (4 * i + k)) with
  | true => exact State.readByte_loadWords c.image _ (ExecInvariant.cleared c).canonical hlen i h hk hm
  | false => exact State.readByte_unmapped (by simpa [State.boot] using hm)

/-- Every other byte after RESET (R600, R604). -/
theorem State.boot_readByte_of_ne {c : Config} {a : Word}
    (h : ∀ j, j < 4 * c.image.length → a ≠ c.textBase + BitVec.ofNat 32 j) :
    (State.boot c).readByte a = 0 :=
  (State.readByte_loadWords_of_ne c.image _ _ h).trans (State.readByte_of_mem_nil rfl a)

/-- Settles O52: the load changes memory alone, so every other field is the cleared state's. -/
theorem bootState : Obligations.BootState := by
  refine ⟨fun s image => rfl, fun c => ?_⟩
  refine ⟨?_, ?_, ?_, ?_, ?_, ?_, ?_, ?_, ?_, fun hlen =>
    ⟨fun i h k => State.boot_readByte_image hlen i h, fun a => State.boot_readByte_of_ne⟩⟩
  all_goals simp [State.boot]

end Sys2Proof.Machine

/-! # Proofs of the memory family (20_memory.md) -/

namespace Sys2Proof.Machine

/-! ## Words and half-words read as their bytes (R67, R72) -/

/-- Bit `i` of a word read is bit `i mod 8` of its byte `i / 8`. -/
theorem State.memRead32_getLsbD (s : State) (a : Word) {i : Nat} (hi : i < 32) :
    (s.memRead32 a).getLsbD i = (s.readByte (a + BitVec.ofNat 32 (i / 8))).getLsbD (i % 8) := by
  obtain ⟨k, j, hk, hj, rfl⟩ : ∃ k j, k < 4 ∧ j < 8 ∧ i = 8 * k + j :=
    ⟨i / 8, i % 8, by omega, by omega, by omega⟩
  have hdiv : (8 * k + j) / 8 = k := by omega
  have hmod : (8 * k + j) % 8 = j := by omega
  rw [hdiv, hmod]
  -- the width 32 read as the sum of four byte widths, which `getLsbD_append` matches
  change BitVec.getLsbD (w := 8 + 8 + 8 + 8) (_ ++ _ ++ _ ++ _) _ = _
  simp only [BitVec.getLsbD_append]
  match k, hk with
  | 0, _ => simp [hj]
  | 1, _ => simp [hj]
  | 2, _ => rw [if_neg (by omega), if_neg (by omega), if_pos (by omega)]; congr 1; omega
  | 3, _ => rw [if_neg (by omega), if_neg (by omega), if_neg (by omega)]; congr 1; omega

/-- A half-word whose two bytes read as those of `v` reads as the low half of `v`. -/
theorem State.memRead16_eq_of_bytes {s : State} {a v : Word}
    (h : ∀ k, k < 2 → s.readByte (a + BitVec.ofNat 32 k) = v.extractLsb' (8 * k) 8) :
    s.memRead16 a = v.extractLsb' 0 16 := by
  have h0 : s.readByte a = v.extractLsb' 0 8 := by simpa using h 0 (by omega)
  have h1 : s.readByte (a + 1#32) = v.extractLsb' 8 8 := h 1 (by omega)
  rw [State.memRead16, h0, h1]
  exact BitVec.extractLsb'_append_extractLsb'_eq_extractLsb' (by rfl)

/-- A word whose four bytes read as those of `v` reads as `v`. -/
theorem State.memRead32_eq_of_bytes {s : State} {a v : Word}
    (h : ∀ k, k < 4 → s.readByte (a + BitVec.ofNat 32 k) = v.extractLsb' (8 * k) 8) :
    s.memRead32 a = v := by
  apply BitVec.eq_of_getLsbD_eq
  intro i hi
  rw [State.memRead32_getLsbD s a hi, h (i / 8) (by omega), BitVec.getLsbD_extractLsb',
    Nat.div_add_mod i 8]
  simp [Nat.mod_lt]

/-- A word stored where none of its bytes is unmapped reads back (R68, R78). -/
theorem BytesStored.memRead32 {s t : State} {a v : Word} (h : BytesStored s t 4 a v)
    (hm : touchesUnmapped s.cfg .word a = false) : t.memRead32 a = v :=
  State.memRead32_eq_of_bytes fun k hk => h.stored k hk (mapped_of_no_miss hm hk)

/-- Settles O44: the four bytes stored are those of `v`. -/
theorem wordRoundTrip : Obligations.WordRoundTrip :=
  fun _ a v hw hm => (bytesStored_memWrite32 hw a v).memRead32 hm

/-! ## One byte array under every width (R73) -/

/-- A byte stored at `a + k` takes bits `8k+7..8k` of a later word read at `a`, and no other bit. -/
theorem State.memRead32_memWrite8_getLsbD {s : State} (hw : s.mem.wf) (a b : Word) {k i : Nat} (hk : k < 4)
    (hm : mapped s.cfg (a + BitVec.ofNat 32 k) = true) (hi : i < 32) :
    ((s.memWrite8 (a + BitVec.ofNat 32 k) b).memRead32 a).getLsbD i =
      if 8 * k ≤ i ∧ i < 8 * k + 8 then b.getLsbD (i - 8 * k) else (s.memRead32 a).getLsbD i := by
  rw [State.memRead32_getLsbD _ a hi, State.memRead32_getLsbD s a hi]
  split
  case isTrue h =>
    have hdiv : i / 8 = k := by omega
    have hmod : i % 8 = i - 8 * k := by omega
    have hlt : i - 8 * k < 8 := by omega
    rw [hdiv, hmod, State.memWrite8, State.readByte_writeByte_self _ hw hm]
    simp [hlt]
  case isFalse h =>
    rw [State.readByte_memWrite8_of_ne b (add_ofNat_ne a (by omega) hk (by omega))]

/-- Settles O45: each clause reads the bytes a store left (R68). -/
theorem mixedWidthsShareBytes : Obligations.MixedWidthsShareBytes := by
  intro s a v b hw
  refine ⟨fun k hk hm => State.readByte_memWrite32 hw a v hk hm, fun h0 h1 => ?_,
    fun k hk hm i hi => State.memRead32_memWrite8_getLsbD hw a b hk hm hi⟩
  refine State.memRead16_eq_of_bytes fun k hk => State.readByte_memWrite32 hw a v (by omega) ?_
  match k, hk with
  | 0, _ => simpa using h0
  | 1, _ => exact h1

/-! ## Straddling accesses (R70) -/

theorem straddles_iff (c : Config) (w : Width) (a : Word) : straddles c w a = true ↔
    (¬ ∃ r ∈ c.regions, ∀ k, k < w.bytes → r.base ≤ a + BitVec.ofNat 32 k ∧ a + BitVec.ofNat 32 k ≤ r.last) ∧
    ∃ k, k < w.bytes ∧ mapped c (a + BitVec.ofNat 32 k) = true := by
  rw [straddles, Bool.and_eq_true]
  refine and_congr ?_ ?_
  · simp [accessBytes, regionContains_iff]
  · simp [accessBytes]

/-- Settles O48: a byte some region contains is a mapped one (R64). -/
theorem straddlingAccess : Obligations.StraddlingAccess := by
  intro c n a
  simp only [straddles_iff, mapped_iff]

/-! ## A word written at the program counter is fetched (R86, R152) -/

/-- A step on an SW word whose access raises nothing stores `x[rs2]` and goes on (R354). -/
theorem step_sw {s : State} {w : Word} (h : Fetches s w) (hw : s.mem.wf)
    (hrow : w &&& 0x0000707F = 0x00002023) {ea : Word}
    (hea : s.readReg (rs1Field w) + BitVec.ofInt 32 (immSField w).toInt = ea)
    (hf : accessFault s.cfg .word ea = none) :
    ∃ t, step s = .next t ∧
      StepStores s t 4 ea (s.readReg (rs2Field w)) (touchesUnmapped s.cfg .word ea) := by
  have hd : decode w = .ok (.sw (rs2Field w) (rs1Field w) (immSField w)) := decode_of_row (.sw 0 0 0) hrow
  have hea' : s.begun.effectiveAddress (rs1Field w) (immSField w) = ea := by
    rw [← hea, State.begun_effectiveAddress, State.effectiveAddress, imm12_eq]
  have he := execStore_next (s := s.begun) (w := .word) State.memWrite32 (rs2Field w) (rs1Field w)
    (immSField w) (by rw [hea']; exact hf)
  rw [hea'] at he
  exact ⟨_, step_of_exec h hd he, (storesOnly_memWrite32 (s := s.begun) hw ea _ _).step h⟩

/-- Settles O49: the stored word is read back at the next program counter, and storing changes
nothing else the next fetch depends on. -/
theorem storeIsFetchedNext : Obligations.StoreIsFetchedNext := by
  intro s w h hw hrow hea hf hm
  obtain ⟨t, hst, hs⟩ := step_sw h hw hrow hea hf
  exact ⟨t, hst,
    { running := hs.run.trans h.running
      unfaulted := hs.committed.fault
      snapshots := hs.committed.snapshots
      fetchable := by rw [hs.committed.cfg, hs.pc]; exact hf
      word := by rw [hs.pc]; exact hs.bytes.memRead32 hm }⟩

/-- A word placed at a fetchable program counter whose bytes are mapped is the one fetched (log entry 11). -/
theorem fetches_placeWord {s : State} (hs : s.cur = s.nxt) (hw : s.mem.wf)
    (hm : touchesUnmapped s.cfg .word s.cur.pc = false) (hf : accessFault s.cfg .word s.cur.pc = none)
    (w : Word) : Fetches (s.placeWord w) w where
  running := rfl
  unfaulted := rfl
  snapshots := by simpa [State.placeWord] using hs
  fetchable := by simpa [State.placeWord] using hf
  word := by
    have hcur : (s.placeWord w).cur = s.cur := State.memWrite32_cur s s.cur.pc w
    rw [hcur, State.memRead32_congr (s := s.placeWord w) (t := s.memWrite32 s.cur.pc w) rfl rfl]
    exact wordRoundTrip s _ _ hw hm

/-- Settles O50: `withFetchWord` places the low `nbits` bits. -/
theorem placedWordIsFetched : Obligations.PlacedWordIsFetched :=
  fun _ nbits w hs hw hm hf => fetches_placeWord hs hw hm hf (tableWord nbits w)

/-! ## The host's moves (R172) -/

/-- Settles O56: STOP clears `run`, SET_REG writes a register of both snapshots, and the views change
nothing. -/
theorem hostMovesAreLimited : Obligations.HostMovesAreLimited := by
  intro s t op r h hrun hreset
  rcases hostApply_cases h with ⟨n, rfl, -⟩ | ⟨-, rfl⟩ | ⟨i, v, -, hv⟩ | ⟨image, rfl, -⟩ | rfl
  · exact absurd rfl (hrun n)
  · exact ⟨rfl, rfl, rfl, nofun⟩
  · rcases hostSetReg_cases hv with rfl | ⟨q, -, rfl⟩ <;> simp
  · exact absurd rfl (hreset image)
  · exact ⟨rfl, rfl, rfl, id⟩

end Sys2Proof.Machine

/-! # Proofs of the encoding family (30_encoding.md) -/

namespace Sys2Proof.Machine

/-! ## Rows of the opcode table and the encoder (R103 to R118) -/

/-- The encoder writes the fixed bits of the instruction's row. -/
theorem encode_row : ∀ i : Instr, encode i &&& i.rowMask = i.rowMatch
  | .add .. => Laws.EncodeRow.add ..
  | .sub .. => Laws.EncodeRow.sub ..
  | .sll .. => Laws.EncodeRow.sll ..
  | .slt .. => Laws.EncodeRow.slt ..
  | .sltu .. => Laws.EncodeRow.sltu ..
  | .xor .. => Laws.EncodeRow.xor ..
  | .srl .. => Laws.EncodeRow.srl ..
  | .sra .. => Laws.EncodeRow.sra ..
  | .or .. => Laws.EncodeRow.or ..
  | .and .. => Laws.EncodeRow.and ..
  | .mul .. => Laws.EncodeRow.mul ..
  | .div .. => Laws.EncodeRow.div ..
  | .divu .. => Laws.EncodeRow.divu ..
  | .addi .. => Laws.EncodeRow.addi ..
  | .slti .. => Laws.EncodeRow.slti ..
  | .sltiu .. => Laws.EncodeRow.sltiu ..
  | .xori .. => Laws.EncodeRow.xori ..
  | .ori .. => Laws.EncodeRow.ori ..
  | .andi .. => Laws.EncodeRow.andi ..
  | .slli .. => Laws.EncodeRow.slli ..
  | .srli .. => Laws.EncodeRow.srli ..
  | .srai .. => Laws.EncodeRow.srai ..
  | .lui .. => Laws.EncodeRow.lui ..
  | .auipc .. => Laws.EncodeRow.auipc ..
  | .lb .. => Laws.EncodeRow.lb ..
  | .lh .. => Laws.EncodeRow.lh ..
  | .lw .. => Laws.EncodeRow.lw ..
  | .lbu .. => Laws.EncodeRow.lbu ..
  | .lhu .. => Laws.EncodeRow.lhu ..
  | .sb .. => Laws.EncodeRow.sb ..
  | .sh .. => Laws.EncodeRow.sh ..
  | .sw .. => Laws.EncodeRow.sw ..
  | .beq .. => Laws.EncodeRow.beq ..
  | .bne .. => Laws.EncodeRow.bne ..
  | .blt .. => Laws.EncodeRow.blt ..
  | .bge .. => Laws.EncodeRow.bge ..
  | .bltu .. => Laws.EncodeRow.bltu ..
  | .bgeu .. => Laws.EncodeRow.bgeu ..
  | .jal .. => Laws.EncodeRow.jal ..
  | .jalr .. => Laws.EncodeRow.jalr ..
  | .ecall => Laws.EncodeRow.ecall

/-- An even branch offset is read back from its encoding (R106). -/
theorem immBField_encodeB_of_ok {off : BitVec 13} (h : decide (branchOffsetOk off) = true) (f3 : BitVec 3)
    (rs1 rs2 : Reg) : immBField (encodeB f3 rs1 rs2 off) = off :=
  immBField_encodeB f3 rs1 rs2 off (even_of_bit0 (of_decide_eq_true h))

/-- An even JAL offset is read back from its encoding (R108). -/
theorem immJField_encodeJ_of_ok {off : BitVec 21} (h : decide (jalOffsetOk off) = true) (rd : Reg) :
    immJField (encodeJ rd off) = off :=
  immJField_encodeJ rd off (even_of_bit0 (of_decide_eq_true h))

/-- The operands of an encoded instruction are read back from its word, format by format. -/
theorem operandsOf_encode (i : Instr) (h : i.wellFormed = true) : i.operandsOf (encode i) = i := by
  cases i with
  | add | sub | sll | slt | sltu | xor | srl | sra | or | and | mul | div | divu =>
    simp only [encode, Instr.operandsOf, rdField_encodeR, rs1Field_encodeR, rs2Field_encodeR]
  | addi | slti | sltiu | xori | ori | andi | lb | lh | lw | lbu | lhu | jalr =>
    simp only [encode, Instr.operandsOf, rdField_encodeI, rs1Field_encodeI, immIField_encodeI]
  | slli | srli | srai =>
    simp only [encode, Instr.operandsOf, rdField_encodeShift, rs1Field_encodeShift, shamtField_encodeShift]
  | lui | auipc => simp only [encode, Instr.operandsOf, rdField_encodeU, immUField_encodeU]
  | sb | sh | sw =>
    simp only [encode, Instr.operandsOf, rs1Field_encodeS, rs2Field_encodeS, immSField_encodeS]
  | beq | bne | blt | bge | bltu | bgeu =>
    simp only [encode, Instr.operandsOf, rs1Field_encodeB, rs2Field_encodeB, immBField_encodeB_of_ok h]
  | jal => simp only [encode, Instr.operandsOf, rdField_encodeJ, immJField_encodeJ_of_ok h]
  | ecall => rfl

/-- Settles O1: an encoded word has its row's fixed bits, so it decodes to the row's constructor, with
the operands that were encoded. -/
theorem decodeOfEncode : Obligations.DecodeOfEncode := by
  intro i h
  rw [decode_of_row i (encode_row i), operandsOf_encode i h]

/-! ## Encoding what was decoded (R116, R118) -/

theorem immBField_bit0 (w : Word) : (immBField w).getLsbD 0 = false := by
  rw [immBField, BitVec.getLsbD_append]; rfl

theorem immJField_bit0 (w : Word) : (immJField w).getLsbD 0 = false := by
  rw [immJField, BitVec.getLsbD_append]; rfl

/-- Operands read from a word are well formed: its branch and JAL offsets are even (R106, R108). -/
theorem wellFormed_operandsOf (w : Word) (i : Instr) : (i.operandsOf w).wellFormed = true := by
  cases i with
  | beq | bne | blt | bge | bltu | bgeu => exact decide_eq_true (immBField_bit0 w)
  | jal => exact decide_eq_true (immJField_bit0 w)
  | _ => rfl

section OfRow
variable {w m : Word} {op : BitVec 7} {f3 : BitVec 3} {f7 : BitVec 7}

theorem encodeR_of_row (h : w &&& 0xFE00707F = m)
    (hm : m &&& 0xFE00707F = m ∧ opcodeField m = op ∧ funct3Field m = f3 ∧ funct7Field m = f7) :
    encodeR f7 f3 op (rdField w) (rs1Field w) (rs2Field w) = w := by
  obtain ⟨hm, rfl, rfl, rfl⟩ := hm
  obtain ⟨ho, h3, h7⟩ := (funct7Mask_iff hm).1 h
  rw [← ho, ← h3, ← h7, encodeR_fields]

theorem encodeShift_of_row (h : w &&& 0xFE00707F = m)
    (hm : m &&& 0xFE00707F = m ∧ opcodeField m = 0b0010011 ∧ funct3Field m = f3 ∧ funct7Field m = f7) :
    encodeShift f7 f3 (rdField w) (rs1Field w) (shamtField w) = w := by
  obtain ⟨hm, hop, rfl, rfl⟩ := hm
  obtain ⟨ho, h3, h7⟩ := (funct7Mask_iff hm).1 h
  rw [← h3, ← h7, encodeShift_fields w (ho.trans hop)]

theorem encodeI_of_row (h : w &&& 0x0000707F = m)
    (hm : m &&& 0x0000707F = m ∧ opcodeField m = op ∧ funct3Field m = f3) :
    encodeI f3 op (rdField w) (rs1Field w) (immIField w) = w := by
  obtain ⟨hm, rfl, rfl⟩ := hm
  obtain ⟨ho, h3⟩ := (funct3Mask_iff hm).1 h
  rw [← ho, ← h3, encodeI_fields]

theorem encodeS_of_row (h : w &&& 0x0000707F = m)
    (hm : m &&& 0x0000707F = m ∧ opcodeField m = 0b0100011 ∧ funct3Field m = f3) :
    encodeS f3 (rs2Field w) (rs1Field w) (immSField w) = w := by
  obtain ⟨hm, hop, rfl⟩ := hm
  obtain ⟨ho, h3⟩ := (funct3Mask_iff hm).1 h
  rw [← h3, encodeS_fields w (ho.trans hop)]

theorem encodeB_of_row (h : w &&& 0x0000707F = m)
    (hm : m &&& 0x0000707F = m ∧ opcodeField m = 0b1100011 ∧ funct3Field m = f3) :
    encodeB f3 (rs1Field w) (rs2Field w) (immBField w) = w := by
  obtain ⟨hm, hop, rfl⟩ := hm
  obtain ⟨ho, h3⟩ := (funct3Mask_iff hm).1 h
  rw [← h3, encodeB_fields w (ho.trans hop)]

theorem encodeU_of_row (h : opcodeField w = op) : encodeU op (rdField w) (immUField w) = w := by
  rw [← h, encodeU_fields]

end OfRow

/-- A word with a row's fixed bits is the encoding of the row's instruction with the word's operands,
except where the row leaves bits that no operand holds: JALR and SYSTEM (R116). -/
theorem encode_operandsOf {w : Word} (i : Instr) (h : w &&& i.rowMask = i.rowMatch)
    (hj : opcodeField w ≠ 0b1100111) (hs : opcodeField w ≠ 0b1110011) : encode (i.operandsOf w) = w := by
  have ho := opcodeField_of_row i h
  cases i with
  | add | sub | sll | slt | sltu | xor | srl | sra | or | and | mul | div | divu =>
    exact encodeR_of_row h (by simp only [Instr.rowMatch]; decide)
  | slli | srli | srai => exact encodeShift_of_row h (by simp only [Instr.rowMatch]; decide)
  | addi | slti | sltiu | xori | ori | andi | lb | lh | lw | lbu | lhu =>
    exact encodeI_of_row h (by simp only [Instr.rowMatch]; decide)
  | sb | sh | sw => exact encodeS_of_row h (by simp only [Instr.rowMatch]; decide)
  | beq | bne | blt | bge | bltu | bgeu => exact encodeB_of_row h (by simp only [Instr.rowMatch]; decide)
  | lui | auipc => exact encodeU_of_row ho
  | jal => exact encodeJ_fields w ho
  | jalr => exact absurd ho hj
  | ecall => exact absurd ho hs

/-- A mask of ones over some bits keeps them. -/
theorem extract_and_of_ones {w m : Word} {lo n : Nat} (h : m.extractLsb' lo n = BitVec.allOnes n) :
    (w &&& m).extractLsb' lo n = w.extractLsb' lo n := by
  rw [BitVec.extractLsb'_and, h, BitVec.and_allOnes]

/-- Clearing funct3 changes no other field of an I-type word. -/
theorem encodeI_funct3_zero (w : Word) :
    encodeI 0 (opcodeField w) (rdField w) (rs1Field w) (immIField w) = w &&& 0xFFFF8FFF := by
  have hop : opcodeField (w &&& 0xFFFF8FFF) = opcodeField w := extract_and_of_ones (by decide)
  have hrd : rdField (w &&& 0xFFFF8FFF) = rdField w := congrArg BitVec.toFin (extract_and_of_ones (by decide))
  have hf3 : funct3Field (w &&& 0xFFFF8FFF) = 0 := BitVec.extractLsb'_and.trans BitVec.and_zero
  have hrs1 : rs1Field (w &&& 0xFFFF8FFF) = rs1Field w := congrArg BitVec.toFin (extract_and_of_ones (by decide))
  have himm : immIField (w &&& 0xFFFF8FFF) = immIField w := extract_and_of_ones (by decide)
  rw [← encodeI_fields (w &&& 0xFFFF8FFF), hop, hrd, hf3, hrs1, himm]

/-- Every JALR word decodes to JALR, whatever its funct3 (R116). -/
theorem decode_jalr {w : Word} (h : opcodeField w = 0b1100111) :
    decode w = .ok (.jalr (rdField w) (rs1Field w) (immIField w)) :=
  decode_of_row (.jalr 0 0 0) (row1_of (m := 0x00000067) h (by decide))

/-- Settles O2: the operands of what was decoded are the word's fields, and each format puts its word
together again from them. -/
theorem encodeOfDecode : Obligations.EncodeOfDecode := by
  intro w i hd
  obtain ⟨hrow, hi⟩ := decode_ok hd
  refine ⟨?_, hrow, fun hj hs => ?_, fun hj => ?_⟩
  · rw [hi]; exact wellFormed_operandsOf w i
  · rw [hi]; exact encode_operandsOf i hrow hj hs
  · cases (decode_jalr hj).symm.trans hd
    rw [encode, ← hj]
    exact encodeI_funct3_zero w

/-! ## The rows a word matches (R117, R118) -/

/-- An instruction of each row of `opcodeRows`, in the order of the rows. -/
def rowInstrs : List Instr :=
  [.add 0 0 0, .sub 0 0 0, .sll 0 0 0, .slt 0 0 0, .sltu 0 0 0, .xor 0 0 0, .srl 0 0 0, .sra 0 0 0,
    .or 0 0 0, .and 0 0 0, .mul 0 0 0, .div 0 0 0, .divu 0 0 0, .slli 0 0 0, .srli 0 0 0, .srai 0 0 0,
    .addi 0 0 0, .slti 0 0 0, .sltiu 0 0 0, .xori 0 0 0, .ori 0 0 0, .andi 0 0 0,
    .lb 0 0 0, .lh 0 0 0, .lw 0 0 0, .lbu 0 0 0, .lhu 0 0 0, .sb 0 0 0, .sh 0 0 0, .sw 0 0 0,
    .beq 0 0 0, .bne 0 0 0, .blt 0 0 0, .bge 0 0 0, .bltu 0 0 0, .bgeu 0 0 0,
    .lui 0 0, .auipc 0 0, .jal 0 0, .jalr 0 0 0, .ecall]

theorem opcodeRows_eq_map : opcodeRows = rowInstrs.map (fun i => (i.rowMatch, i.rowMask)) := rfl

theorem opcodeRows_nodup : opcodeRows.Nodup := by decide

theorem row_mem_opcodeRows (i : Instr) : (i.rowMatch, i.rowMask) ∈ opcodeRows := by
  cases i <;> (simp only [Instr.rowMatch, Instr.rowMask]; decide)

/-- Every row of the table is the row of an instruction. -/
theorem exists_instr_of_mem_opcodeRows {row : Word × Word} (h : row ∈ opcodeRows) :
    ∃ i : Instr, (i.rowMatch, i.rowMask) = row := by
  rw [opcodeRows_eq_map, List.mem_map] at h
  obtain ⟨i, -, hi⟩ := h
  exact ⟨i, hi⟩

/-- Operands are no part of the row. -/
theorem row_operandsOf (w : Word) (i : Instr) :
    ((i.operandsOf w).rowMatch, (i.operandsOf w).rowMask) = (i.rowMatch, i.rowMask) := by
  cases i <;> rfl

/-- A word that matches a row decodes, and the row is that of what it decodes to. -/
theorem decode_of_matching_row {w : Word} {row : Word × Word} (hmem : row ∈ opcodeRows)
    (h : w &&& row.2 = row.1) : ∃ i, decode w = .ok i ∧ (i.rowMatch, i.rowMask) = row := by
  obtain ⟨i, rfl⟩ := exists_instr_of_mem_opcodeRows hmem
  exact ⟨i.operandsOf w, decode_of_row i h, row_operandsOf w i⟩

theorem rowsMatching_of_ok {w : Word} {i : Instr} (h : decode w = .ok i) :
    rowsMatching w = [(i.rowMatch, i.rowMask)] := by
  have hfilter : rowsMatching w = opcodeRows.filter (· == (i.rowMatch, i.rowMask)) := by
    refine List.filter_congr fun row hmem => ?_
    rw [Bool.eq_iff_iff, beq_iff_eq, beq_iff_eq]
    constructor
    · intro hrow
      obtain ⟨j, hj, rfl⟩ := decode_of_matching_row hmem hrow
      cases h.symm.trans hj
      rfl
    · rintro rfl
      exact (decode_ok h).1
  rw [hfilter, List.filter_beq, List.count_eq_one_of_mem opcodeRows_nodup (row_mem_opcodeRows i)]
  rfl

theorem rowsMatching_of_error {w : Word} {e : Unrecognized} (h : decode w = .error e) :
    rowsMatching w = [] := by
  refine List.filter_eq_nil_iff.2 fun row hmem hrow => ?_
  obtain ⟨i, hi, -⟩ := decode_of_matching_row hmem (eq_of_beq hrow)
  cases h.symm.trans hi

/-- Settles O3: a matching row decides what the word decodes to, and no row stands twice in the table. -/
theorem tableRowsAreExact : Obligations.TableRowsAreExact :=
  fun _ => ⟨fun _ => rowsMatching_of_ok, fun _ => rowsMatching_of_error⟩

/-- Settles O4: a word with a row's fixed bits decodes to the row's instruction, and a word that decodes
matches a row. -/
theorem decodeFollowsOpcodeMap : Obligations.DecodeFollowsOpcodeMap := by
  intro w
  refine ⟨decode_of_row (.add 0 0 0), decode_of_row (.sub 0 0 0), decode_of_row (.sll 0 0 0),
    decode_of_row (.slt 0 0 0), decode_of_row (.sltu 0 0 0), decode_of_row (.xor 0 0 0),
    decode_of_row (.srl 0 0 0), decode_of_row (.sra 0 0 0), decode_of_row (.or 0 0 0),
    decode_of_row (.and 0 0 0), decode_of_row (.mul 0 0 0), decode_of_row (.div 0 0 0),
    decode_of_row (.divu 0 0 0), decode_of_row (.addi 0 0 0), decode_of_row (.slti 0 0 0),
    decode_of_row (.sltiu 0 0 0), decode_of_row (.xori 0 0 0), decode_of_row (.ori 0 0 0),
    decode_of_row (.andi 0 0 0), decode_of_row (.slli 0 0 0), decode_of_row (.srli 0 0 0),
    decode_of_row (.srai 0 0 0), decode_of_row (.lui 0 0), decode_of_row (.auipc 0 0),
    decode_of_row (.lb 0 0 0), decode_of_row (.lh 0 0 0), decode_of_row (.lw 0 0 0),
    decode_of_row (.lbu 0 0 0), decode_of_row (.lhu 0 0 0), decode_of_row (.sb 0 0 0),
    decode_of_row (.sh 0 0 0), decode_of_row (.sw 0 0 0), decode_of_row (.beq 0 0 0),
    decode_of_row (.bne 0 0 0), decode_of_row (.blt 0 0 0), decode_of_row (.bge 0 0 0),
    decode_of_row (.bltu 0 0 0), decode_of_row (.bgeu 0 0 0), decode_of_row (.jal 0 0),
    decode_of_row (.jalr 0 0 0), decode_of_row .ecall, fun hnone => ?_⟩
  cases hd : decode w with
  | error e => exact ⟨e, rfl⟩
  | ok i => simp [rowsMatching_of_ok hd] at hnone

/-! ## Opcodes without an instruction (R100, R117, R120) -/

/-- The ten opcodes of R110. -/
def knownOpcodes : List (BitVec 7) :=
  [0b0110011, 0b0010011, 0b0110111, 0b0010111, 0b0000011, 0b0100011, 0b1100011, 0b1101111, 0b1100111,
    0b1110011]

theorem decode_of_opcode_unknown {w : Word} (h : opcodeField w ∉ knownOpcodes) :
    decode w = .error .opcode := by
  unfold decode
  split
  case h_11 => rfl
  all_goals
    rename_i ho
    rw [ho] at h
    exact absurd (by decide) h

/-- Settles O8: the known opcodes end in 11, and none of the seventeen is among them. -/
theorem otherOpcodesAreUnrecognized : Obligations.OtherOpcodesAreUnrecognized := by
  refine fun w => ⟨fun hlow => decode_of_opcode_unknown fun hknown => hlow ?_,
    fun hmem => decode_of_opcode_unknown ?_⟩
  · have hends : ∀ op ∈ knownOpcodes, op.extractLsb' 0 2 = 0b11 := by decide
    rw [← hends _ hknown, opcodeField, BitVec.extractLsb'_extractLsb'_of_le (by decide)]
  · revert hmem
    generalize opcodeField w = op
    revert op
    decide

/-! ## Fields and immediates as numbers (R101, R104 to R109) -/

/-- A two's-complement number from its top bit `b` and the bits `r` below it. -/
theorem toInt_of_toNat {n : Nat} (v : BitVec (n + 1)) {b r : Nat} (h : v.toNat = b * 2 ^ n + r)
    (hb : b < 2) (hr : r < 2 ^ n) : v.toInt = (r : Int) - 2 ^ n * b := by
  have hpow : 2 ^ (n + 1) = 2 * 2 ^ n := by rw [Nat.pow_succ, Nat.mul_comm]
  rw [BitVec.toInt_eq_toNat_cond, h, hpow]
  obtain rfl | rfl : b = 0 ∨ b = 1 := by omega
  · rw [if_pos (by omega)]; simp
  · rw [if_neg (by omega)]; push_cast; ring

/-- Sign extension keeps the signed value (R12). -/
theorem sext_toInt {n : Nat} (hn : n ≤ 32) (v : BitVec n) : (sext v).toInt = v.toInt :=
  BitVec.toInt_signExtend_of_le hn

section Immediates
open Claims
variable (w : Word)

theorem imm12_immIField_toInt :
    (imm12 (immIField w)).toInt = (bitsOf w 20 11 : Int) - 2048 * bitsOf w 31 1 := by
  have h := toInt_of_toNat (n := 11) (immIField w) (b := bitsOf w 31 1) (r := bitsOf w 20 11)
    (by rw [immIField_toNat]; simp only [bitsOf]; omega) (Nat.mod_lt _ (by decide))
    (Nat.mod_lt _ (by decide))
  rw [imm12, sext_toInt (by decide), h]; rfl

theorem imm12_immSField_toInt : (imm12 (immSField w)).toInt =
    (bitsOf w 7 5 : Int) + 32 * bitsOf w 25 6 - 2048 * bitsOf w 31 1 := by
  have h := toInt_of_toNat (n := 11) (immSField w) (b := bitsOf w 31 1)
    (r := bitsOf w 7 5 + 32 * bitsOf w 25 6) (by rw [immSField_toNat]; simp only [bitsOf]; omega)
    (Nat.mod_lt _ (by decide)) (by simp only [bitsOf]; omega)
  rw [imm12, sext_toInt (by decide), h]; push_cast; ring

theorem immB_immBField_toInt : (immB (immBField w)).toInt =
    2 * (bitsOf w 8 4 : Int) + 32 * bitsOf w 25 6 + 2048 * bitsOf w 7 1 - 4096 * bitsOf w 31 1 := by
  have h := toInt_of_toNat (n := 12) (immBField w) (b := bitsOf w 31 1)
    (r := 2 * bitsOf w 8 4 + 32 * bitsOf w 25 6 + 2048 * bitsOf w 7 1)
    (by rw [immBField_toNat]; simp only [bitsOf]; omega)
    (Nat.mod_lt _ (by decide)) (by simp only [bitsOf]; omega)
  rw [immB, sext_toInt (by decide), h]; push_cast; ring

theorem immU_immUField_toNat : (immU (immUField w)).toNat = 4096 * bitsOf w 12 20 := by
  rw [immU_eq, immUField_toNat, BitVec.toNat_ofNat, bitsOf]; omega

theorem immJ_immJField_toInt : (immJ (immJField w)).toInt =
    2 * (bitsOf w 21 10 : Int) + 2048 * bitsOf w 20 1 + 4096 * bitsOf w 12 8 - 1048576 * bitsOf w 31 1 := by
  have h := toInt_of_toNat (n := 20) (immJField w) (b := bitsOf w 31 1)
    (r := 2 * bitsOf w 21 10 + 2048 * bitsOf w 20 1 + 4096 * bitsOf w 12 8)
    (by rw [immJField_toNat]; simp only [bitsOf]; omega)
    (Nat.mod_lt _ (by decide)) (by simp only [bitsOf]; omega)
  rw [immJ, sext_toInt (by decide), h]; push_cast; ring

end Immediates

/-- Settles O5: fields are digits of the word, and each immediate is a signed value whose top bit is
bit 31. -/
theorem fieldsAndImmediatesAreArithmetic : Obligations.FieldsAndImmediatesAreArithmetic := by
  intro w
  refine ⟨rdField_val w, rs1Field_val w, rs2Field_val w, ?_, funct3Field_toNat w, funct7Field_toNat w,
    imm12_immIField_toInt w, imm12_immSField_toInt w, immB_immBField_toInt w, immU_immUField_toNat w,
    immJ_immJField_toInt w, shamtField_toNat w⟩
  simpa [Claims.bitsOf] using opcodeField_toNat w

/-! ## The halves of a constant (R122) -/

theorem splitHi_toNat (v : Word) : (splitHi v).toNat = (v.toNat + 2048) % 4294967296 / 4096 := by
  have h := toNat_extract (v + 0x800) 12 20
  rw [BitVec.toNat_add] at h
  change _ = (v.toNat + 2048) % 4294967296 / 4096 % 1048576 at h
  rw [splitHi, h]; omega

/-- Subtracting the upper half leaves the low twelve bits as they are. -/
theorem splitLo_eq (v : Word) : splitLo v = v.setWidth 12 := by
  apply BitVec.eq_of_toNat_eq
  rw [splitLo, BitVec.toNat_setWidth, BitVec.toNat_sub, toNat_append_mul, BitVec.toNat_setWidth]
  have := (splitHi v).isLt
  have := v.isLt
  simp only [BitVec.toNat_ofNat]
  omega

theorem setWidth12_toInt (v : Word) :
    (v.setWidth 12).toInt = ((v.toNat % 2048 : Nat) : Int) - 2048 * (v.toNat / 2048 % 2 : Nat) :=
  toInt_of_toNat (n := 11) _ (by rw [BitVec.toNat_setWidth]; omega) (Nat.mod_lt _ (by decide))
    (Nat.mod_lt _ (by decide))

/-- The halves of `v` add up to it: the carry into the upper half makes up for a negative lower half. -/
theorem split_add (v : Word) :
    BitVec.ofNat 32 ((splitHi v).toNat * 4096) + BitVec.ofInt 32 (splitLo v).toInt = v := by
  rw [← BitVec.ofInt_natCast, ← BitVec.ofInt_add, splitHi_toNat, splitLo_eq, setWidth12_toInt]
  apply BitVec.eq_of_toNat_eq
  rw [BitVec.toNat_ofInt]
  have := v.isLt
  omega

/-! ## li and its two forms (R33, R122, R251, R300) -/

/-- The constants that one ADDI loads. -/
def FitsImm12 (imm : Word) : Prop := -2048 ≤ imm.toInt ∧ imm.toInt ≤ 2047

theorem expandPseudo_li_short (rd : Reg) {imm : Word} (h : FitsImm12 imm) :
    expandPseudo (.li rd imm) = [.addi rd 0 (imm.setWidth 12)] := if_pos h

theorem expandPseudo_li_long (rd : Reg) {imm : Word} (h : ¬ FitsImm12 imm) :
    expandPseudo (.li rd imm) = [.lui rd (splitHi imm), .addi rd rd (splitLo imm)] := if_neg h

/-- A constant that fits is the sign extension of its low twelve bits. -/
theorem ofInt_setWidth12 {imm : Word} (h : FitsImm12 imm) :
    BitVec.ofInt 32 (imm.setWidth 12).toInt = imm := by
  obtain ⟨hlo, hhi⟩ := h
  rw [BitVec.toInt_eq_toNat_cond] at hlo hhi
  rw [setWidth12_toInt]
  apply BitVec.eq_of_toNat_eq
  rw [BitVec.toNat_ofInt]
  have := imm.isLt
  omega

/-! ## Steps of a program held in memory (R152, R164) -/

theorem State.hardwired_congr {s t : State} (h : t.cfg = s.cfg) (r : Reg) : t.hardwired r = s.hardwired r := by
  rw [State.hardwired, State.hardwired, h]

theorem State.readReg_of_writable {s : State} {r : Reg} (h : s.hardwired r = false) :
    s.readReg r = s.cur.reg r := by simp [State.readReg, h]

/-- A step on an encoded ADDI (R251). -/
theorem step_addi {s : State} {rd rs1 : Reg} {imm : BitVec 12} (h : Fetches s (encode (.addi rd rs1 imm))) :
    ∃ t, step s = .next t ∧
      StepWrites s t rd (s.readReg rs1 + BitVec.ofInt 32 imm.toInt) (s.cur.pc + 4) false := by
  rw [← imm12_eq]
  exact ⟨_, step_of_exec h (decodeOfEncode _ rfl) rfl, (writesOnly_writeReg s.begun rd _).step h⟩

/-- A step on an encoded LUI (R300). -/
theorem step_lui {s : State} {rd : Reg} {imm20 : BitVec 20} (h : Fetches s (encode (.lui rd imm20))) :
    ∃ t, step s = .next t ∧
      StepWrites s t rd (BitVec.ofNat 32 (imm20.toNat * 4096)) (s.cur.pc + 4) false := by
  rw [← immU_eq]
  exact ⟨_, step_of_exec h (decodeOfEncode _ rfl) rfl, (writesOnly_writeReg s.begun rd _).step h⟩

section Held
open Claims
variable {s t u : State} {i : Instr} {is : List Instr} {rd : Reg} {v v' : Word} {m n : Nat} {missed : Bool}

theorem fetches_of_holdsProgram (h : HoldsProgram s (i :: is)) : Fetches s (encode i) where
  running := h.running
  unfaulted := h.unfaulted
  snapshots := h.snapshots
  fetchable := by simpa using h.fetchable 0 (by simp)
  word := by rw [← BitVec.add_zero s.cur.pc]; exact h.words 0 (Nat.succ_pos _)

/-- A step that goes on to the next word and writes no memory leaves the rest of the program held. -/
theorem holdsProgram_tail (h : HoldsProgram s (i :: is)) (hw : StepWrites s t rd v (s.cur.pc + 4) missed) :
    HoldsProgram t is := by
  have hpc (k : Nat) : t.cur.pc + BitVec.ofNat 32 (4 * k) = s.cur.pc + BitVec.ofNat 32 (4 * (k + 1)) := by
    rw [hw.pc, Nat.mul_succ, Nat.add_comm (4 * k)]
    exact add_four_add_ofNat s.cur.pc (4 * k)
  refine ⟨hw.run.trans h.running, hw.committed.fault, hw.committed.snapshots, fun k hk => ?_, fun k hk => ?_⟩
  · rw [hpc, hw.committed.cfg]
    exact h.fetchable (k + 1) (by simpa using hk)
  · rw [hpc, State.memRead32_congr hw.mem hw.committed.cfg]
    exact h.words (k + 1) (by simpa using hk)

/-- What `n` steps that write `x[rd]` alone and go on word by word come to, where the last writes `v`. -/
structure RunWrites (s t : State) (rd : Reg) (v : Word) (n : Nat) : Prop where
  result : s.hardwired rd = false → t.cur.reg rd = v
  discarded : s.hardwired rd = true → t.cur.reg rd = s.cur.reg rd
  others : ∀ r, r ≠ rd → t.cur.reg r = s.cur.reg r
  pc : t.cur.pc = s.cur.pc + BitVec.ofNat 32 (4 * n)
  mem : t.mem = s.mem
  run : t.run = s.run
  fault : t.fault = none
  icount : t.icount = s.icount + n
  cfg : t.cfg = s.cfg

theorem RunWrites.of_step (h : StepWrites s t rd v (s.cur.pc + 4) missed) : RunWrites s t rd v 1 :=
  { h with fault := h.committed.fault, icount := h.committed.icount, cfg := h.committed.cfg }

theorem RunWrites.trans (h : RunWrites s t rd v m) (h' : RunWrites t u rd v' n) :
    RunWrites s u rd v' (m + n) where
  result hx := h'.result ((State.hardwired_congr h.cfg rd).trans hx)
  discarded hx := (h'.discarded ((State.hardwired_congr h.cfg rd).trans hx)).trans (h.discarded hx)
  others r hr := (h'.others r hr).trans (h.others r hr)
  pc := by rw [h'.pc, h.pc, Nat.mul_add, BitVec.ofNat_add, BitVec.add_assoc]
  mem := h'.mem.trans h.mem
  run := h'.run.trans h.run
  fault := h'.fault
  icount := by rw [h'.icount, h.icount, Nat.add_assoc]
  cfg := h'.cfg.trans h.cfg

/-- One ADDI from x0: `x[rd] <- x0 + imm`. -/
theorem runN_li_short {imm : BitVec 12} (h : HoldsProgram s [.addi rd 0 imm]) :
    ∃ t, runN 1 s = .next t ∧ RunWrites s t rd (s.readReg 0 + BitVec.ofInt 32 imm.toInt) 1 := by
  obtain ⟨t, hst, hw⟩ := step_addi (fetches_of_holdsProgram h)
  exact ⟨t, runN_succ_of_step 0 hst, .of_step hw⟩

/-- LUI then ADDI on the same register; where the register is writable, the ADDI adds to what the LUI wrote. -/
theorem runN_li_long {hi : BitVec 20} {lo : BitVec 12} (h : HoldsProgram s [.lui rd hi, .addi rd rd lo]) :
    ∃ t v, runN 2 s = .next t ∧ RunWrites s t rd v 2 ∧ (s.hardwired rd = false →
      v = BitVec.ofNat 32 (hi.toNat * 4096) + BitVec.ofInt 32 lo.toInt) := by
  obtain ⟨t, hst, hlui⟩ := step_lui (fetches_of_holdsProgram h)
  obtain ⟨u, htu, haddi⟩ := step_addi (fetches_of_holdsProgram (holdsProgram_tail h hlui))
  refine ⟨u, _, ?_, (RunWrites.of_step hlui).trans (.of_step haddi), fun hx => ?_⟩
  · rw [runN_succ_of_step 1 hst, runN_succ_of_step 0 htu, runN_zero]
  · have ht : t.hardwired rd = false := (State.hardwired_congr hlui.committed.cfg rd).trans hx
    rw [State.readReg_of_writable ht, hlui.result hx]

end Held

/-- Settles O60: the halves add up by `split_add`, and each form of `li` runs as its own lemma says. -/
theorem pseudoHalvesAddUp : Obligations.PseudoHalvesAddUp := by
  refine ⟨split_add, fun rd imm => ?_, fun s rd imm h => ?_⟩ <;> by_cases hfit : FitsImm12 imm
  · exact .inl ⟨_, expandPseudo_li_short rd hfit, ofInt_setWidth12 hfit⟩
  · exact .inr ⟨_, _, expandPseudo_li_long rd hfit, split_add imm⟩
  · rw [expandPseudo_li_short rd hfit] at h ⊢
    obtain ⟨t, ht, hw⟩ := runN_li_short h
    rw [ofInt_setWidth12 hfit] at hw
    exact ⟨t, ht, fun hx => ⟨fun _ => hw.result hx, nofun⟩, hw.discarded, hw.others, hw.pc, hw.mem,
      hw.run.trans h.running, hw.fault, hw.icount⟩
  · rw [expandPseudo_li_long rd hfit] at h ⊢
    obtain ⟨t, v, ht, hw, hv⟩ := runN_li_long h
    rw [split_add] at hv
    exact ⟨t, ht, fun hx => ⟨nofun, fun _ => (hw.result hx).trans (hv hx)⟩, hw.discarded, hw.others, hw.pc,
      hw.mem, hw.run.trans h.running, hw.fault, hw.icount⟩

end Sys2Proof.Machine

/-! # Proofs of the step family (40_step.md) -/

namespace Sys2Proof.Machine

/-! ## A running step commits or faults (R157, R158, R513) -/

/-- Settles O30: the case analysis of a running step needs no agreement of the snapshots. -/
theorem stepCommitsOrFaults : Obligations.StepCommitsOrFaults :=
  fun s hr hf _ => step_commits_or_faults ((State.mayStep_iff s).2 ⟨hr, hf⟩)

/-! ## What an effect leaves unchanged (R162) -/

section Effects
variable {i : Instr} {s t : State} (he : Effect i s t)
include he

/-- Only a store writes memory. -/
theorem Effect.mem (hi : family i ≠ .store) : t.mem = s.mem := by
  cases he with
  | stores _ _ _ _ hf => exact absurd hf hi
  | _ => simp

/-- A byte that the store does not address, if the instruction is one, reads as before. -/
theorem Effect.readByte_of_ne {a : Word}
    (ha : ∀ w ea, storeTarget s i = some (w, ea) → ∀ k, k < w.bytes → a ≠ ea + BitVec.ofNat 32 k) :
    t.readByte a = s.readByte a := by
  cases he with
  | stores w ea v missed _ ht => exact readByte_storeBytes_of_ne w (s.noteMemMiss missed) v (ha w ea ht)
  | _ => exact State.readByte_congr (by simp) (by simp) a

/-- Without a fault, no register but the destination is written. -/
theorem Effect.nxt_reg_of_ne_destination (ht : t.fault = none) {r : Reg} (hr : destination i ≠ some r) :
    t.nxt.reg r = s.nxt.reg r := by
  cases he with
  | writes rd v missed _ hd | links rd v _ _ hd =>
    have hne : r ≠ rd := fun e => hr (e ▸ hd)
    exact State.writeReg_reg_of_ne v hne
  | stores w ea v missed =>
    obtain ⟨-, hnxt, -⟩ := storeBytes_frame w (s.noteMemMiss missed) ea v
    simp [hnxt]
  | corner | accessFaults => simp at ht
  | goes | stays | halts => rfl

/-- Without a fault, only a branch or a jump sets the next program counter. -/
theorem Effect.nxt_pc (ht : t.fault = none) (hb : family i ≠ .branch) (hj : family i ≠ .jump) :
    t.nxt.pc = s.nxt.pc := by
  cases he with
  | writes => simp
  | links _ _ _ hf => exact absurd hf hj
  | goes _ hf | stays hf => exact absurd hf hb
  | stores w ea v missed =>
    obtain ⟨-, hnxt, -⟩ := storeBytes_frame w (s.noteMemMiss missed) ea v
    simp [hnxt]
  | halts => rfl
  | corner | accessFaults => simp at ht

end Effects

/-! ## A step on a fetched word (R152 to R158) -/

section Fetched
variable {s t : State} {w : Word} (h : Fetches s w)
include h

/-- What a step makes of a state that fetches `w`: a fault raised in the begun state, the NOP of an
unrecognized word, or the commit of an effect of the decoded instruction. -/
theorem Fetches.step_cases (hst : step s = .next t) :
    (∃ f, t = s.begun.raise f) ∨
    ((∃ e, decode w = .error e) ∧ t = s.begun.noteDecodeMiss.commit) ∨
    (∃ i u, decode w = .ok i ∧ Effect i s.begun u ∧ u.fault = none ∧ t = u.commit) := by
  rcases Machine.step_cases s with ⟨hstop, -⟩ | ⟨-, f, hf, -⟩ | ⟨-, -, e, hd, ⟨-, hs⟩ | ⟨-, hs⟩⟩ |
    ⟨-, -, i, u, hd, -, he, hs⟩
  · simp [h.mayStep] at hstop
  · simp [h.fetchable] at hf
  · rw [State.commitUnlessFaulted_none (by simpa using h.unfaulted), hst] at hs
    cases hs
    exact .inr (.inl ⟨⟨e, h.word ▸ hd⟩, rfl⟩)
  · cases hs.symm.trans hst
    exact .inl ⟨_, rfl⟩
  · cases hs.symm.trans hst
    rcases he.fault with hf | ⟨f, rfl, -⟩
    · have hu : u.fault = none := hf.trans h.unfaulted
      exact .inr (.inr ⟨i, u, h.word ▸ hd, he, hu, State.commitUnlessFaulted_none hu⟩)
    · exact .inl ⟨f, State.commitUnlessFaulted_some (State.raise_fault _ f)⟩

/-- A register that the decoded instruction does not name as its destination keeps its value. -/
theorem Fetches.step_reg_of_ne_destination (hst : step s = .next t) {r : Reg}
    (hr : ∀ i, decode w = .ok i → destination i ≠ some r) : t.cur.reg r = s.cur.reg r := by
  rcases h.step_cases hst with ⟨f, rfl⟩ | ⟨-, rfl⟩ | ⟨i, u, hd, he, hu, rfl⟩
  · rfl
  · simp [h.snapshots]
  · simpa [h.snapshots] using he.nxt_reg_of_ne_destination hu (hr i hd)

theorem Fetches.step_mem (hst : step s = .next t) (hw : opcodeField w ≠ 0b0100011) : t.mem = s.mem := by
  rcases h.step_cases hst with ⟨f, rfl⟩ | ⟨-, rfl⟩ | ⟨i, u, hd, he, -, rfl⟩
  · rfl
  · rfl
  · obtain ⟨hstore, -⟩ := family_of_decode hd
    exact he.mem fun hf => hw (hstore.1 hf)

/-- Every byte but the four at `x[rs1] + immS` reads as before. -/
theorem Fetches.step_readByte_of_ne (hst : step s = .next t) {a : Word}
    (ha : ∀ k, k < 4 → a ≠ s.effectiveAddress (rs1Field w) (immSField w) + BitVec.ofNat 32 k) :
    t.readByte a = s.readByte a := by
  rcases h.step_cases hst with ⟨f, rfl⟩ | ⟨-, rfl⟩ | ⟨i, u, hd, he, -, rfl⟩
  · rfl
  · rfl
  · refine he.readByte_of_ne (fun x ea ht k hk => ?_)
    rw [storeTarget_of_decode hd _ ht]
    exact ha k (hk.trans_le (by cases x <;> decide))

theorem Fetches.step_pc (hst : step s = .next t) (ht : t.fault = none) (hb : opcodeField w ≠ 0b1100011)
    (hj : ¬ (opcodeField w = 0b1101111 ∨ opcodeField w = 0b1100111)) : t.cur.pc = s.cur.pc + 4 := by
  rcases h.step_cases hst with ⟨f, rfl⟩ | ⟨-, rfl⟩ | ⟨i, u, hd, he, hu, rfl⟩
  · simp at ht
  · rfl
  · obtain ⟨-, hbranch, -, hjump⟩ := family_of_decode hd
    exact he.nxt_pc hu (fun hf => hb (hbranch.1 hf)) (fun hf => hj (hjump.1 hf))

/-- A step on a SYSTEM word commits the halt (R430). -/
theorem Fetches.step_system (hw : opcodeField w = 0b1110011) : step s = .next s.begun.halt.commit := by
  have hd : decode w = .ok .ecall := decode_of_row .ecall (row1_of (m := 0x00000073) hw (by decide))
  rw [step_of_exec h hd rfl, State.commitUnlessFaulted_none (by simpa using h.unfaulted)]

end Fetched

/-- Settles O37: each clause is what the step's case analysis leaves unchanged, by the family that the
opcode decides. -/
theorem stepChangesAtMost : Obligations.StepChangesAtMost := by
  rintro s t w ea h hst rfl
  refine ⟨fun r hr => ?_, fun hw r => ?_, h.step_mem hst, fun a ha => ?_, ?_, fun hw => ?_, fun hw => ?_⟩
  · refine h.step_reg_of_ne_destination hst fun i hd => ?_
    rcases destination_of_decode hd with hn | hn <;> simp [hn, hr.symm]
  · refine h.step_reg_of_ne_destination hst fun i hd => ?_
    obtain ⟨hstore, hbranch, hsystem, -⟩ := family_of_decode hd
    simp [no_destination_of_family (hw.imp hstore.2 (Or.imp hbranch.2 hsystem.2))]
  · rw [← imm12_eq] at ha
    exact h.step_readByte_of_ne hst ha
  · exact fun hb hj ht => h.step_pc hst ht hb hj
  · rcases step_run hst with hr | ⟨hsys, -⟩
    · exact hr
    · exact absurd (h.word ▸ hsys) hw
  · cases (h.step_system hw).symm.trans hst
    rfl

/-! ## What a step depends on (R159) -/

/-- What of a state its step may depend on: the counter and both diagnostics are set aside. -/
def State.stepInput (s : State) : State := { s with icount := 0, decodeMiss := false, memMiss := false }

/-- The state with `n` added to its counter. -/
def State.addIcount (s : State) (n : Nat) : State := { s with icount := s.icount + n }

/-- Running states between steps that agree on `cur`, memory and the parameters differ in nothing else
that a step may depend on. -/
theorem AgreeForStep.stepInput_eq {s t : State} (h : AgreeForStep s t) (hs : s.cur = s.nxt)
    (ht : t.cur = t.nxt) (hms : s.mayStep = true) (hmt : t.mayStep = true) : s.stepInput = t.stepInput := by
  obtain ⟨hrs, hfs⟩ := (State.mayStep_iff s).1 hms
  obtain ⟨hrt, hft⟩ := (State.mayStep_iff t).1 hmt
  exact State.ext_fields h.cur (hs.symm.trans (h.cur.trans ht)) h.mem (hrs.trans hrt.symm) rfl rfl rfl
    (hfs.trans hft.symm) h.cfg

theorem executeWord_withIcount (w : Word) (s : State) (n : Nat) :
    executeWord w { s with icount := n } = (executeWord w s).withIcount n := by
  unfold executeWord
  split
  · exact exec_withIcount _ s n
  · unfold execUnrecognized
    cases s.cfg.decodeMiss <;> rfl

/-- Executing a word answers a next state and does not count. -/
theorem executeWord_next (w : Word) (s : State) : ∃ t, executeWord w s = .next t ∧ t.icount = s.icount := by
  unfold executeWord
  split
  · obtain ⟨t, ht, he⟩ := exec_effect _ s
    obtain ⟨-, hcount, -⟩ := he.keeps
    exact ⟨t, ht, hcount⟩
  · unfold execUnrecognized
    split <;> exact ⟨_, rfl, rfl⟩

/-- Setting the counter before the commit comes to adding to it after. -/
theorem commitUnlessFaulted_withIcount {s : State} (h : s.icount = 0) (n : Nat) :
    ({ s with icount := n } : State).commitUnlessFaulted = s.commitUnlessFaulted.addIcount n := by
  unfold State.commitUnlessFaulted
  split <;> simp [State.commit, State.addIcount, h, Nat.add_comm]

/-- A running machine's step is that of its step input, with the counter added. -/
theorem step_eq_step_stepInput {s : State} (hm : s.mayStep = true) :
    ∃ t, step s.stepInput = .next t ∧ step s = .next (t.addIcount s.icount) := by
  rw [step_of_mayStep hm, step_of_mayStep (s := s.stepInput) hm]
  cases hf : accessFault s.cfg .word s.cur.pc with
  | some f =>
    refine ⟨_, cycle_of_fetchFault (s := s.stepInput) hf, ?_⟩
    rw [cycle_of_fetchFault hf]
    simp [State.addIcount, State.raise, State.clearDiagnostics, State.stepInput]
  | none =>
    obtain ⟨u, hu, hcount⟩ := executeWord_next s.fetchWord s.stepInput.begun
    refine ⟨u.commitUnlessFaulted, ?_, ?_⟩
    · rw [cycle_of_fetchable (s := s.stepInput) hf]
      exact congrArg afterExecute hu
    · have hbegun : s.begun = { s.stepInput.begun with icount := s.icount } := rfl
      rw [cycle_of_fetchable hf, hbegun, executeWord_withIcount, hu,
        ← commitUnlessFaulted_withIcount hcount]
      rfl

/-- Settles O42: both steps are that of the same step input, each with its own counter added. -/
theorem stepDependsOnCurMemoryParameters : Obligations.StepDependsOnCurMemoryParameters := by
  intro s₁ s₂ t₁ t₂ ha hs₁ hs₂ hm₁ hm₂ h₁ h₂
  obtain ⟨t, ht, hst₁⟩ := step_eq_step_stepInput hm₁
  obtain ⟨u, hu, hst₂⟩ := step_eq_step_stepInput hm₂
  rw [← ha.stepInput_eq hs₁ hs₂ hm₁ hm₂, ht] at hu
  cases hu
  cases hst₁.symm.trans h₁
  cases hst₂.symm.trans h₂
  exact ⟨rfl, rfl, rfl, rfl, rfl, rfl, rfl, rfl, Nat.add_right_comm ..⟩

/-! ## A fetch outside every region (R152, R432, R504) -/

/-- A step on an unrecognized word, where its policy is nop, is a NOP (R432). -/
theorem stepGoesTo_unrecognized {s : State} {w : Word} {e : Unrecognized} (h : Fetches s w)
    (hd : decode w = .error e) (hp : s.cfg.decodeMiss = .nop) :
    ∃ t, step s = .next t ∧ StepGoesTo s t (s.cur.pc + 4) s.run true := by
  refine ⟨s.begun.noteDecodeMiss.commitUnlessFaulted, ?_, ?_⟩
  · simp [step_of_fetches h, executeWord, hd, execUnrecognized, hp, afterExecute]
  · rw [State.commitUnlessFaulted_none (by simpa using h.unfaulted)]
    refine ⟨?_, fun r => ?_, rfl, rfl, rfl⟩
    · constructor <;> simp [h.unfaulted]
    · simp [h.snapshots]

/-- A word with no byte mapped reads 0x00000000 (R65, R67). -/
theorem State.memRead32_unmapped {s : State} {a : Word}
    (h : ∀ k, k < 4 → mapped s.cfg (a + BitVec.ofNat 32 k) = false) : s.memRead32 a = 0 :=
  State.memRead32_eq_of_bytes fun k hk => (State.readByte_unmapped (h k hk)).trans (by simp)

/-- Settles O47: the word read is 0x00000000, which is unrecognized, and the fetch touched an unmapped
byte. -/
theorem unmappedFetchIsNop : Obligations.UnmappedFetchIsNop := by
  intro s hp hm hs hun
  obtain ⟨-, hstraddle, hmiss, hdecode, -⟩ := hp
  obtain ⟨hr, hf⟩ := (State.mayStep_iff s).1 hm
  have hword : s.memRead32 s.cur.pc = 0 := State.memRead32_unmapped hun
  have hfetch : Fetches s 0 := ⟨hr, hf, hs, accessFault_none hstraddle hmiss .word _, hword⟩
  have hunrec : decode 0 = .error .opcode := decode_of_opcode_unknown (by decide)
  have htouch : touchesUnmapped s.cfg .word s.cur.pc = true :=
    (touchesUnmapped_iff _ _ _).2 ⟨0, by decide, hun 0 (by decide)⟩
  obtain ⟨t, hst, hgoes⟩ := stepGoesTo_unrecognized hfetch hunrec hdecode
  rw [hr] at hgoes
  exact ⟨hword, t, hst, hgoes, by simp [hgoes.committed.memMiss, htouch]⟩

/-! ## SET_REG (R166) -/

theorem hostSetReg_of_ge (s : State) {i : Nat} (v : Word) (h : 32 ≤ i) : hostSetReg i v s = none :=
  dif_neg (by omega)

theorem hostSetReg_hardwired {s : State} {i : Nat} (v : Word) (h : i < 32)
    (hx : s.hardwired ⟨i, h⟩ = true) : hostSetReg i v s = some s := by
  simp [hostSetReg, h, hx]

theorem hostSetReg_writable {s : State} {i : Nat} (v : Word) (h : i < 32)
    (hx : s.hardwired ⟨i, h⟩ = false) : hostSetReg i v s =
      some { s with cur := s.cur.setReg ⟨i, h⟩ v, nxt := s.nxt.setReg ⟨i, h⟩ v } := by
  simp [hostSetReg, h, hx]

/-- Settles O54: one equation of `hostSetReg` for each clause, and for the program counter what the
host's moves keep. -/
theorem setRegWritesBothSnapshots : Obligations.SetRegWritesBothSnapshots := by
  refine fun s i v => ⟨fun hge => ?_, fun h hx => ?_, fun h hx => ?_, fun op t r hop hrun hreset => ?_⟩
  · simp [hostApply, hostSetReg_of_ge s v hge]
  · simp [hostApply, hostSetReg_hardwired v h hx]
  · refine ⟨{ s with cur := s.cur.setReg ⟨i, h⟩ v, nxt := s.nxt.setReg ⟨i, h⟩ v }, ?_, ?_, ?_,
      fun q hq => ⟨?_, ?_⟩, rfl, rfl, rfl, rfl, rfl, rfl, rfl, rfl, rfl⟩
    · simp [hostApply, hostSetReg_writable v h hx]
    · exact Snapshot.setReg_reg_self ..
    · exact Snapshot.setReg_reg_self ..
    · exact Snapshot.setReg_reg_of_ne _ v hq
    · exact Snapshot.setReg_reg_of_ne _ v hq
  · obtain ⟨-, hcur, hnxt, -⟩ := hostMovesAreLimited s t op r hop hrun hreset
    exact ⟨hcur, hnxt⟩

/-! ## RUN_N and RUN (R163, R164) -/

theorem core_run_succ_of_step {s t : State} (n : Nat) (h : step s = .next t) :
    Sys2Proof.core.run (n + 1) s = Sys2Proof.core.run n t := by
  have hcore : Sys2Proof.core.step s = .next t := h
  simp only [Host.Core.run, hcore]

/-- Settles O58, by induction on the number of steps: both runs unfold by the same step. -/
theorem runNIsRepeatedStep : Obligations.RunNIsRepeatedStep := by
  intro n
  induction n with
  | zero => exact fun s => rfl
  | succ n ih =>
    intro s
    obtain ⟨t, ht⟩ := step_next s
    rw [core_run_succ_of_step n ht, runN_succ_of_step n ht]
    exact ih t

/-- A suspended run continues from where it was. -/
theorem runN_add (m n : Nat) : ∀ {s t : State}, runN m s = .next t → runN (m + n) s = runN n t := by
  induction m with
  | zero =>
    intro s t h
    cases h
    rw [Nat.zero_add]
  | succ m ih =>
    intro s t h
    obtain ⟨u, hu⟩ := step_next s
    rw [runN_succ_of_step m hu] at h
    rw [Nat.add_right_comm, runN_succ_of_step (m + n) hu]
    exact ih h

/-- A run longer than one that has stopped stops in the same state. -/
theorem runN_add_of_stopped {m : Nat} {s t : State} (h : runN m s = .next t) (ht : t.mayStep = false)
    (n : Nat) : runN (m + n) s = .next t := (runN_add m n h).trans (runN_of_stopped ht n)

/-- Settles O59: of two runs that stopped, in `m` and in `n` steps, each is continued to `m + n`. -/
theorem runsContinueAndAreDeterminate : Obligations.RunsContinueAndAreDeterminate := by
  refine ⟨fun m n s t => runN_add m n, ?_⟩
  rintro s t u ⟨m, hm, ht⟩ ⟨n, hn, hu⟩
  have htu : runN (m + n) s = .next u := Nat.add_comm n m ▸ runN_add_of_stopped hn hu m
  cases (runN_add_of_stopped hm ht n).symm.trans htu
  rfl

/-! ## The step through `exec` (R151 to R158) -/

/-- The begun state written out: the fetch's diagnostics and the default next pc (R151 to R153). -/
theorem State.begun_eq (s : State) : s.begun =
    { s with decodeMiss := false, memMiss := touchesUnmapped s.cfg .word s.cur.pc,
             nxt := { s.nxt with pc := s.cur.pc + 4 } } := rfl

theorem State.commitUnlessFaulted_eq (s : State) : s.commitUnlessFaulted =
    if s.fault = none then { s with cur := s.nxt, icount := s.icount + 1 } else s := by
  simp [State.commitUnlessFaulted, State.commit]

/-- Settles O18: `exec` answers a next state, and the step commits it unless it faulted. -/
theorem stepRunsDecodedInstruction : Obligations.StepRunsDecodedInstruction := by
  intro s w i h hd
  obtain ⟨t, ht, -⟩ := exec_effect i s.begun
  rw [step_of_exec h hd ht, ← State.begun_eq, ht, State.commitUnlessFaulted_eq]

/-! ## Stopped machines and STOP (R164, R165, R431) -/

theorem State.mayStep_eq_false_iff (s : State) : s.mayStep = false ↔ s.run = false ∨ s.fault ≠ none := by
  rw [← Bool.not_eq_true, State.mayStep_iff, not_and_or, Bool.not_eq_true]

/-- Settles O39: such a machine may not step. -/
theorem stoppedMachinePerformsNoStep : Obligations.StoppedMachinePerformsNoStep := by
  intro s h
  have hm : s.mayStep = false := (State.mayStep_eq_false_iff s).2 h
  exact ⟨step_of_stopped hm, runN_of_stopped hm⟩

/-- Settles O55: the state STOP leaves may not step. -/
theorem stopClearsRun : Obligations.StopClearsRun := by
  intro s
  obtain ⟨-, hrun⟩ := stoppedMachinePerformsNoStep (hostStop s) (.inl rfl)
  exact ⟨hostStop s, rfl, rfl, hrun⟩

/-! ## The views (R167, R170) -/

theorem dumpRegisters_get (s : State) (r : Reg) : (dumpRegisters s).1.get r = s.readReg r := by
  simp [dumpRegisters, Vector.get_eq_getElem]

/-- Settles O57: every view replies on the state itself, and shows what its definition maps over the
register numbers, the addresses or the loaded words. -/
theorem viewsChangeNothing : Obligations.ViewsChangeNothing := by
  intro s start stop
  refine ⟨⟨_, rfl, dumpRegisters_get s⟩, ⟨_, rfl, ?_, fun k hk => ?_⟩, rfl, _, rfl, ?_, fun i hi => ?_⟩
  · simp [dumpMemory]
  · simp [dumpMemory]
  · simp [listProgram]
  · simp [listProgram]

end Sys2Proof.Machine

/-! # Proofs of the register ALU family (41_alu_reg.md) -/

namespace Sys2Proof.Machine

section
open Claims

/-! ## From the execute part to the step (R152 to R158) -/

/-- A step on a word whose instruction writes a register and goes on (R153, R157). -/
theorem step_of_writesOnly {s : State} {w : Word} {i : Instr} {rd : Reg} {v : Word} {missed : Bool}
    (h : Fetches s w) (hd : decode w = .ok i)
    (he : ∃ t, exec i s.begun = .next t ∧ WritesOnly s.begun t rd v missed) :
    ∃ t, step s = .next t ∧ StepWrites s t rd v (s.cur.pc + 4) missed := by
  obtain ⟨t, ht, hw⟩ := he
  exact ⟨_, step_of_exec h hd ht, hw.step h⟩

/-- A step on a word whose instruction raises a fault (R163, R513). -/
theorem step_of_raisesOnly {s : State} {w : Word} {i : Instr} {f : Fault}
    (h : Fetches s w) (hd : decode w = .ok i)
    (he : ∃ t, exec i s.begun = .next t ∧ RaisesOnly s.begun t f) :
    ∃ t, step s = .next t ∧ StepFaults s t f := by
  obtain ⟨t, ht, hr⟩ := he
  exact ⟨_, step_of_exec h hd ht, hr.step⟩

/-! ## Register-register operations (R200 to R211, R213) -/

/-- The shift amount is the low five bits of the second operand, its value modulo 32 (R204). -/
theorem shiftLeft_shiftAmount (a b : Word) : shiftLeft a (shiftAmount b) = shl a (b.toNat % 32) := by
  rw [shiftLeft_eq, shiftAmount_eq, shl]

theorem shiftRightLogical_shiftAmount (a b : Word) :
    shiftRightLogical a (shiftAmount b) = shr a (b.toNat % 32) := by
  rw [shiftRightLogical_eq, shiftAmount_eq, shr]

theorem shiftRightArith_shiftAmount (a b : Word) :
    shiftRightArith a (shiftAmount b) = sar a (b.toNat % 32) := by
  rw [shiftRightArith_eq, shiftAmount_eq, sar]

/-- An instruction that runs `execRegReg` with the ALU function `f` has the shape R200 gives it, in
whichever arithmetic `g` the function is written. -/
theorem regRegExec_of_exec {i : Reg → Reg → Reg → Instr} {f g : Word → Word → Word}
    (hfg : ∀ a b, f a b = g a b)
    (hi : ∀ rd rs1 rs2 s, exec (i rd rs1 rs2) s = execRegReg f rd rs1 rs2 s) : RegRegExec i g := by
  intro s rd rs1 rs2
  rw [← hfg]
  exact ⟨_, hi rd rs1 rs2 s, writesOnly_writeReg s rd _⟩

/-- Settles O9: each operation runs `execRegReg`, and its ALU function is the arithmetic one. -/
theorem registerOperationsComplete : Obligations.RegisterOperationsComplete :=
  ⟨regRegExec_of_exec (f := aluAdd) (fun _ _ => rfl) fun _ _ _ _ => rfl,
    regRegExec_of_exec (f := aluSub) (fun _ _ => rfl) fun _ _ _ _ => rfl,
    regRegExec_of_exec shiftLeft_shiftAmount fun _ _ _ _ => rfl,
    regRegExec_of_exec aluSlt_eq fun _ _ _ _ => rfl,
    regRegExec_of_exec aluSltu_eq fun _ _ _ _ => rfl,
    regRegExec_of_exec (f := aluXor) (fun _ _ => rfl) fun _ _ _ _ => rfl,
    regRegExec_of_exec shiftRightLogical_shiftAmount fun _ _ _ _ => rfl,
    regRegExec_of_exec shiftRightArith_shiftAmount fun _ _ _ _ => rfl,
    regRegExec_of_exec (f := aluOr) (fun _ _ => rfl) fun _ _ _ _ => rfl,
    regRegExec_of_exec (f := aluAnd) (fun _ _ => rfl) fun _ _ _ _ => rfl,
    regRegExec_of_exec aluMul_eq fun _ _ _ _ => rfl⟩

/-- The frame of the execute part carries over to a step on the words of the instruction's row. -/
theorem regRegWord_of_exec {i : Reg → Reg → Reg → Instr} {f : Word → Word → Word} {fixed : Word}
    (he : RegRegExec i f)
    (hd : ∀ {w}, w &&& 0xFE00707F = fixed → decode w = .ok (i (rdField w) (rs1Field w) (rs2Field w))) :
    RegRegWord fixed f := by
  intro s w h hrow
  exact step_of_writesOnly h (hd hrow) (he s.begun (rdField w) (rs1Field w) (rs2Field w))

/-- Settles O19: the words of each row decode to an operation that O9 describes. -/
theorem registerWordsStep : Obligations.RegisterWordsStep := by
  obtain ⟨hadd, hsub, hsll, hslt, hsltu, hxor, hsrl, hsra, hor, hand, hmul⟩ := registerOperationsComplete
  exact ⟨regRegWord_of_exec hadd (decode_of_row (.add 0 0 0)),
    regRegWord_of_exec hsub (decode_of_row (.sub 0 0 0)),
    regRegWord_of_exec hsll (decode_of_row (.sll 0 0 0)),
    regRegWord_of_exec hslt (decode_of_row (.slt 0 0 0)),
    regRegWord_of_exec hsltu (decode_of_row (.sltu 0 0 0)),
    regRegWord_of_exec hxor (decode_of_row (.xor 0 0 0)),
    regRegWord_of_exec hsrl (decode_of_row (.srl 0 0 0)),
    regRegWord_of_exec hsra (decode_of_row (.sra 0 0 0)),
    regRegWord_of_exec hor (decode_of_row (.or 0 0 0)),
    regRegWord_of_exec hand (decode_of_row (.and 0 0 0)),
    regRegWord_of_exec hmul (decode_of_row (.mul 0 0 0))⟩

/-! ## Divisions (R212, R214, R215) -/

section Divide
variable {corner : Word → Word → Option Word} {s : State} {rs1 rs2 : Reg}

/-- Outside the corners a division writes its quotient. -/
theorem execDivide_quotient (quot : Word → Word → Word) (rd : Reg)
    (h : corner (s.readReg rs1) (s.readReg rs2) = none) :
    execDivide corner quot rd rs1 rs2 s = .next (s.writeReg rd (quot (s.readReg rs1) (s.readReg rs2))) := by
  simp [execDivide, h]

/-- In a corner a division does as DIV_CORNER_POLICY says (R212). -/
theorem divCornerExec_execDivide (quot : Word → Word → Word) (rd : Reg) {v : Word}
    (h : corner (s.readReg rs1) (s.readReg rs2) = some v) :
    DivCornerExec s (execDivide corner quot rd rs1 rs2 s) rd v :=
  ⟨fun hp => ⟨_, by simp only [execDivide, h, hp], writesOnly_writeReg s rd v⟩,
    fun hp => ⟨_, by simp only [execDivide, h, hp], raisesOnly_raise s _⟩⟩

end Divide

theorem divCorner_of_overflows {a b : Word} (h : DivOverflows a b) : divCorner a b = some 0x80000000 := by
  obtain ⟨ha, hb⟩ := h
  rw [toInt_intMin.1 ha, toInt_negOne.1 hb, divCorner_overflow]

/-- Settles O10: each clause is one outcome of `execDivide`, by what the corner functions say of the
operands. -/
theorem divisionsComplete : Obligations.DivisionsComplete := by
  rintro s rd rs1 rs2 a b rfl rfl
  refine ⟨fun hb => ?_, fun ho => ?_, fun hb ho => ?_, fun hb => ?_, fun hb => ?_⟩
  · exact divCornerExec_execDivide quotSigned rd (by rw [hb, divCorner_zero])
  · exact divCornerExec_execDivide quotSigned rd (divCorner_of_overflows ho)
  · exact ⟨_, _, execDivide_quotient quotSigned rd (divCorner_none hb ho), quotSigned_toInt ho,
      writesOnly_writeReg s rd _⟩
  · exact divCornerExec_execDivide quotUnsigned rd (by rw [hb, divuCorner_zero])
  · exact ⟨_, _, execDivide_quotient quotUnsigned rd (divuCorner_none _ hb), quotUnsigned_toNat _ _,
      writesOnly_writeReg s rd _⟩

/-- A corner of the execute part is a corner of the step, under either policy. -/
theorem divCornerStep_of_exec {s : State} {w : Word} {i : Instr} {rd : Reg} {v : Word} (h : Fetches s w)
    (hd : decode w = .ok i) (he : DivCornerExec s.begun (exec i s.begun) rd v) : DivCornerStep s rd v := by
  obtain ⟨hvalue, hfault⟩ := he
  exact ⟨fun hp => step_of_writesOnly h hd (hvalue hp), fun hp => step_of_raisesOnly h hd (hfault hp)⟩

/-- Settles O20: the words decode to DIV and DIVU, of which O10 speaks in the begun state. -/
theorem divisionWordsStep : Obligations.DivisionWordsStep := by
  intro s w a b h ha hb
  obtain ⟨hzero, hover, hquot, hzerou, hquotu⟩ :=
    divisionsComplete s.begun (rdField w) (rs1Field w) (rs2Field w) a b ha hb
  refine ⟨fun hrow => ?_, fun hrow => ?_⟩
  · have hd : decode w = .ok (.div (rdField w) (rs1Field w) (rs2Field w)) :=
      decode_of_row (.div 0 0 0) hrow
    refine ⟨fun hb => divCornerStep_of_exec h hd (hzero hb),
      fun ho => divCornerStep_of_exec h hd (hover ho), fun hb ho => ?_⟩
    obtain ⟨t, v, ht, hv, hw⟩ := hquot hb ho
    exact ⟨_, v, step_of_exec h hd ht, hv, hw.step h⟩
  · have hd : decode w = .ok (.divu (rdField w) (rs1Field w) (rs2Field w)) :=
      decode_of_row (.divu 0 0 0) hrow
    refine ⟨fun hb => divCornerStep_of_exec h hd (hzerou hb), fun hb => ?_⟩
    obtain ⟨t, v, ht, hv, hw⟩ := hquotu hb
    exact ⟨_, v, step_of_exec h hd ht, hv, hw.step h⟩

end

/-! ## Example words (R202, R214, R259, R301, R323, R352, R384, R410, R411, R430) -/

/-- Settles O7: the decoder runs on ten closed words. -/
theorem sampleWordsDecode : Obligations.SampleWordsDecode := by
  unfold Obligations.SampleWordsDecode
  decide

end Sys2Proof.Machine

/-! # Proofs of the immediate ALU family (42_alu_imm.md) -/

namespace Sys2Proof.Machine

section
open Claims

/-! ## The execute part (R250 to R259) -/

/-- An instruction that runs `execRegVal` on the ALU function `f` and the sign-extended immediate has the
shape R250 gives it, in whichever arithmetic `g` the function is written. -/
theorem regImmExec_of_exec {i : Reg → Reg → BitVec 12 → Instr} {f g : Word → Word → Word}
    (hfg : ∀ a b, f a b = g a b)
    (hi : ∀ rd rs1 imm s, exec (i rd rs1 imm) s = execRegVal (fun a => f a (imm12 imm)) rd rs1 s) :
    RegImmExec i g := by
  intro s rd rs1 imm
  rw [← hfg, ← imm12_eq]
  exact ⟨_, hi rd rs1 imm s, writesOnly_writeReg s rd _⟩

/-- The same for a shift by the amount in the word. -/
theorem shiftImmExec_of_exec {i : Reg → Reg → BitVec 5 → Instr} {f g : Word → Nat → Word}
    (hfg : ∀ a k, f a k = g a k)
    (hi : ∀ rd rs1 shamt s, exec (i rd rs1 shamt) s = execRegVal (fun a => f a shamt.toNat) rd rs1 s) :
    ShiftImmExec i g := by
  intro s rd rs1 shamt
  rw [← hfg]
  exact ⟨_, hi rd rs1 shamt s, writesOnly_writeReg s rd _⟩

/-- Settles O11: each operation runs `execRegVal`, and its ALU function is the arithmetic one. -/
theorem immediateOperationsComplete : Obligations.ImmediateOperationsComplete :=
  ⟨regImmExec_of_exec (f := aluAdd) (fun _ _ => rfl) fun _ _ _ _ => rfl,
    regImmExec_of_exec aluSlt_eq fun _ _ _ _ => rfl,
    regImmExec_of_exec aluSltu_eq fun _ _ _ _ => rfl,
    regImmExec_of_exec (f := aluXor) (fun _ _ => rfl) fun _ _ _ _ => rfl,
    regImmExec_of_exec (f := aluOr) (fun _ _ => rfl) fun _ _ _ _ => rfl,
    regImmExec_of_exec (f := aluAnd) (fun _ _ => rfl) fun _ _ _ _ => rfl,
    shiftImmExec_of_exec shiftLeft_eq fun _ _ _ _ => rfl,
    shiftImmExec_of_exec shiftRightLogical_eq fun _ _ _ _ => rfl,
    shiftImmExec_of_exec shiftRightArith_eq fun _ _ _ _ => rfl⟩

/-! ## The step on a word of the row (R112, R152 to R158) -/

/-- The frame of the execute part carries over to a step on the words of the instruction's row. -/
theorem regImmWord_of_exec {i : Reg → Reg → BitVec 12 → Instr} {f : Word → Word → Word} {fixed : Word}
    (he : RegImmExec i f)
    (hd : ∀ {w}, w &&& 0x0000707F = fixed → decode w = .ok (i (rdField w) (rs1Field w) (immIField w))) :
    RegImmWord fixed f := by
  intro s w h hrow
  exact step_of_writesOnly h (hd hrow) (he s.begun (rdField w) (rs1Field w) (immIField w))

/-- The same for the shifts, whose rows fix the upper seven bits too (R109). -/
theorem shiftImmWord_of_exec {i : Reg → Reg → BitVec 5 → Instr} {f : Word → Nat → Word} {fixed : Word}
    (he : ShiftImmExec i f)
    (hd : ∀ {w}, w &&& 0xFE00707F = fixed → decode w = .ok (i (rdField w) (rs1Field w) (shamtField w))) :
    ShiftImmWord fixed f := by
  intro s w h hrow
  exact step_of_writesOnly h (hd hrow) (he s.begun (rdField w) (rs1Field w) (shamtField w))

/-- Settles O21: the words of each row decode to an operation that O11 describes. -/
theorem immediateWordsStep : Obligations.ImmediateWordsStep := by
  obtain ⟨haddi, hslti, hsltiu, hxori, hori, handi, hslli, hsrli, hsrai⟩ := immediateOperationsComplete
  exact ⟨regImmWord_of_exec haddi (decode_of_row (.addi 0 0 0)),
    regImmWord_of_exec hslti (decode_of_row (.slti 0 0 0)),
    regImmWord_of_exec hsltiu (decode_of_row (.sltiu 0 0 0)),
    regImmWord_of_exec hxori (decode_of_row (.xori 0 0 0)),
    regImmWord_of_exec hori (decode_of_row (.ori 0 0 0)),
    regImmWord_of_exec handi (decode_of_row (.andi 0 0 0)),
    shiftImmWord_of_exec hslli (decode_of_row (.slli 0 0 0)),
    shiftImmWord_of_exec hsrli (decode_of_row (.srli 0 0 0)),
    shiftImmWord_of_exec hsrai (decode_of_row (.srai 0 0 0))⟩

end

end Sys2Proof.Machine

/-! # Proofs of the upper-immediate family (43_upper_imm.md) -/

namespace Sys2Proof.Machine

section
open Claims

/-- Settles O12: each writes its value to `rd`, and the immediate above twelve zero bits is `imm20 * 4096`
(R107). -/
theorem upperImmediatesComplete : Obligations.UpperImmediatesComplete := by
  intro s rd imm20
  rw [← immU_eq]
  exact ⟨⟨_, rfl, writesOnly_writeReg s rd (immU imm20)⟩,
    ⟨_, rfl, writesOnly_writeReg s rd (s.cur.pc + immU imm20)⟩⟩

/-- The U-format immediate is the number in bits [31:12] (R107). -/
theorem immUField_toNat_eq_bitsOf (w : Word) : (immUField w).toNat = bitsOf w 12 20 := immUField_toNat w

/-- Settles O22: the words decode to LUI and AUIPC, of which O12 speaks in the begun state. -/
theorem upperImmediateWordsStep : Obligations.UpperImmediateWordsStep := by
  intro s w h
  obtain ⟨hlui, hauipc⟩ := upperImmediatesComplete s.begun (rdField w) (immUField w)
  rw [immUField_toNat_eq_bitsOf] at hlui hauipc
  exact ⟨fun hrow => step_of_writesOnly h (decode_of_row (.lui 0 0) hrow) hlui,
    fun hrow => step_of_writesOnly h (decode_of_row (.auipc 0 0) hrow) hauipc⟩

end

end Sys2Proof.Machine

/-! # Proofs of the load family (44_loads.md) -/

namespace Sys2Proof.Machine

section
open Claims

/-! ## The loaded value as a number (R12, R13, R67, R72) -/

/-- `sext_N` reads its bits as a signed number (R12). -/
theorem sext_eq_signedWord {n : Nat} (v : BitVec (n + 1)) : sext v = signedWord (n + 1) v.toNat := by
  have hpow : 2 ^ (n + 1) = 2 * 2 ^ n := Nat.pow_succ'
  rw [sext_eq_ofInt, BitVec.toInt_eq_toNat_cond, signedWord, Nat.add_sub_cancel]
  by_cases h : v.toNat < 2 ^ n
  · rw [if_pos (by omega), if_pos h, BitVec.ofInt_natCast]
  · rw [if_neg (by omega), if_neg h]
    push_cast
    rfl

/-- `zext_N` keeps the unsigned number its bits hold (R13). -/
theorem zext_eq_ofNat {n : Nat} (v : BitVec n) : zext v = BitVec.ofNat 32 v.toNat :=
  (BitVec.ofNat_toNat 32 v).symm

theorem State.memRead16_toNat (s : State) (ea : Word) : (s.memRead16 ea).toNat = num16 s ea := by
  rw [memRead16, toNat_append_mul]
  simp only [num16, num8, BitVec.ofNat_eq_ofNat]
  omega

theorem State.memRead32_toNat (s : State) (ea : Word) : (s.memRead32 ea).toNat = num32 s ea := by
  rw [memRead32]
  iterate 3 rw [toNat_append_mul]
  simp only [num32, num8, BitVec.ofNat_eq_ofNat]
  omega

theorem State.memRead32_eq_ofNat (s : State) (ea : Word) : s.memRead32 ea = BitVec.ofNat 32 (num32 s ea) := by
  rw [← memRead32_toNat, BitVec.ofNat_toNat, BitVec.setWidth_eq]

theorem State.sext_memRead8 (s : State) (ea : Word) : sext (s.memRead8 ea) = signedWord 8 (num8 s ea) :=
  sext_eq_signedWord (s.memRead8 ea)

theorem State.zext_memRead8 (s : State) (ea : Word) : zext (s.memRead8 ea) = BitVec.ofNat 32 (num8 s ea) :=
  zext_eq_ofNat (s.memRead8 ea)

theorem State.sext_memRead16 (s : State) (ea : Word) : sext (s.memRead16 ea) = signedWord 16 (num16 s ea) := by
  rw [sext_eq_signedWord, memRead16_toNat]

theorem State.zext_memRead16 (s : State) (ea : Word) : zext (s.memRead16 ea) = BitVec.ofNat 32 (num16 s ea) := by
  rw [zext_eq_ofNat, memRead16_toNat]

/-! ## The execute part (R320 to R326) -/

/-- An instruction that runs `execLoad` with the value `f` has the shape R320 and R71 give it, in whichever
arithmetic `g` the value is written. A value is read after the access noted its miss, which `f` must ignore. -/
theorem loadExec_of_exec {i : Reg → Reg → BitVec 12 → Instr} {w : Width} {g : State → Word → Word}
    (f : State → Word → Word)
    (hi : ∀ rd rs1 imm s, exec (i rd rs1 imm) s = execLoad w f rd rs1 imm s)
    (hfg : ∀ s missed ea, f (State.noteMemMiss s missed) ea = g s ea) : LoadExec i w g := by
  intro s rd rs1 imm ea hea
  obtain rfl : ea = s.effectiveAddress rs1 imm := by rw [hea, State.effectiveAddress, imm12_eq]
  rw [hi]
  refine ⟨fun hnone => ?_, fun fault hsome => ?_⟩
  · rw [execLoad_next f rd rs1 imm hnone, hfg]
    exact ⟨_, rfl, writesOnly_load s rd _ _⟩
  · exact ⟨_, execLoad_fault f rd rs1 imm hsome, raisesOnly_raise s fault⟩

/-- Settles O13: each load runs `execLoad`, and the bytes it extends are those of the number in memory. -/
theorem loadsComplete : Obligations.LoadsComplete :=
  ⟨loadExec_of_exec (fun t ea => sext (t.memRead8 ea)) (fun _ _ _ _ => rfl) fun s _ ea => s.sext_memRead8 ea,
    loadExec_of_exec (fun t ea => sext (t.memRead16 ea)) (fun _ _ _ _ => rfl) fun s _ ea => s.sext_memRead16 ea,
    loadExec_of_exec State.memRead32 (fun _ _ _ _ => rfl) fun s _ ea => s.memRead32_eq_ofNat ea,
    loadExec_of_exec (fun t ea => zext (t.memRead8 ea)) (fun _ _ _ _ => rfl) fun s _ ea => s.zext_memRead8 ea,
    loadExec_of_exec (fun t ea => zext (t.memRead16 ea)) (fun _ _ _ _ => rfl) fun s _ ea => s.zext_memRead16 ea⟩

/-! ## The step on a word of the row (R113, R152 to R158) -/

/-- The two outcomes of the execute part carry over to a step on the words of the instruction's row, the
begun state reading the same bytes. -/
theorem loadWord_of_exec {i : Reg → Reg → BitVec 12 → Instr} {n : Width} {value : State → Word → Word}
    {fixed : Word} (he : LoadExec i n value) (hbegun : ∀ s ea, value (State.begun s) ea = value s ea)
    (hd : ∀ {w}, w &&& 0x0000707F = fixed → decode w = .ok (i (rdField w) (rs1Field w) (immIField w))) :
    LoadWord fixed n value := by
  intro s w ea h hrow hea
  obtain ⟨hnext, hfault⟩ := he s.begun (rdField w) (rs1Field w) (immIField w) ea hea
  rw [hbegun] at hnext
  exact ⟨fun hnone => step_of_writesOnly h (hd hrow) (hnext hnone),
    fun f hsome => step_of_raisesOnly h (hd hrow) (hfault f hsome)⟩

/-- Settles O23: the words of each row decode to a load that O13 describes. -/
theorem loadWordsStep : Obligations.LoadWordsStep := by
  obtain ⟨hlb, hlh, hlw, hlbu, hlhu⟩ := loadsComplete
  exact ⟨loadWord_of_exec hlb (fun _ _ => rfl) (decode_of_row (.lb 0 0 0)),
    loadWord_of_exec hlh (fun _ _ => rfl) (decode_of_row (.lh 0 0 0)),
    loadWord_of_exec hlw (fun _ _ => rfl) (decode_of_row (.lw 0 0 0)),
    loadWord_of_exec hlbu (fun _ _ => rfl) (decode_of_row (.lbu 0 0 0)),
    loadWord_of_exec hlhu (fun _ _ => rfl) (decode_of_row (.lhu 0 0 0))⟩

end

end Sys2Proof.Machine

/-! # Proofs of the store family (45_stores.md) -/

namespace Sys2Proof.Machine

section
open Claims

/-! ## The execute part (R350 to R354) -/

/-- An instruction that runs `execStore` with `put` has the shape R350 and R71 give it, where `put`, run
after the access noted its miss, stores the access's bytes and nothing else. -/
theorem storeExec_of_exec {i : Reg → Reg → BitVec 12 → Instr} {w : Width} (put : State → Word → Word → State)
    (hi : ∀ rs2 rs1 imm s, exec (i rs2 rs1 imm) s = execStore w put rs2 rs1 imm s)
    (hput : ∀ {s : State}, s.mem.wf → ∀ ea v missed,
      StoresOnly s (put (s.noteMemMiss missed) ea v) w.bytes ea v missed) : StoreExec i w := by
  intro s rs2 rs1 imm ea hw hea
  obtain rfl : ea = s.effectiveAddress rs1 imm := by rw [hea, State.effectiveAddress, imm12_eq]
  rw [hi]
  refine ⟨fun hnone => ?_, fun f hsome => ?_⟩
  · exact ⟨_, execStore_next put rs2 rs1 imm hnone, hput hw _ _ _⟩
  · exact ⟨_, execStore_fault put rs2 rs1 imm hsome, raisesOnly_raise s f⟩

/-- Settles O14: each store runs `execStore` with the little-endian write of its width. -/
theorem storesComplete : Obligations.StoresComplete :=
  ⟨storeExec_of_exec State.memWrite8 (fun _ _ _ _ => rfl) storesOnly_memWrite8,
    storeExec_of_exec State.memWrite16 (fun _ _ _ _ => rfl) storesOnly_memWrite16,
    storeExec_of_exec State.memWrite32 (fun _ _ _ _ => rfl) storesOnly_memWrite32⟩

/-! ## The step on a word of the row (R114, R152 to R158) -/

/-- A store of the execute part commits as a store of the step. -/
theorem step_of_storesOnly {s : State} {w : Word} {i : Instr} {n : Nat} {ea v : Word} {missed : Bool}
    (h : Fetches s w) (hd : decode w = .ok i)
    (he : ∃ t, exec i s.begun = .next t ∧ StoresOnly s.begun t n ea v missed) :
    ∃ t, step s = .next t ∧ StepStores s t n ea v missed := by
  obtain ⟨t, ht, hw⟩ := he
  exact ⟨_, step_of_exec h hd ht, hw.step h⟩

/-- The two outcomes of the execute part carry over to a step on the words of the instruction's row. -/
theorem storeWord_of_exec {i : Reg → Reg → BitVec 12 → Instr} {n : Width} {fixed : Word} (he : StoreExec i n)
    (hd : ∀ {w}, w &&& 0x0000707F = fixed → decode w = .ok (i (rs2Field w) (rs1Field w) (immSField w))) :
    StoreWord fixed n := by
  intro s w ea h hw hrow hea
  obtain ⟨hnext, hfault⟩ := he s.begun (rs2Field w) (rs1Field w) (immSField w) ea hw hea
  exact ⟨fun hnone => step_of_storesOnly h (hd hrow) (hnext hnone),
    fun f hsome => step_of_raisesOnly h (hd hrow) (hfault f hsome)⟩

/-- Settles O24: the words of each row decode to a store that O14 describes. -/
theorem storeWordsStep : Obligations.StoreWordsStep := by
  obtain ⟨hsb, hsh, hsw⟩ := storesComplete
  exact ⟨storeWord_of_exec hsb (decode_of_row (.sb 0 0 0)),
    storeWord_of_exec hsh (decode_of_row (.sh 0 0 0)),
    storeWord_of_exec hsw (decode_of_row (.sw 0 0 0))⟩

end

end Sys2Proof.Machine

/-! # Proofs of the branch family (46_branches.md) -/

namespace Sys2Proof.Machine

section
open Claims

/-! ## The predicates as arithmetic (R384 to R387) -/

theorem ltSigned_iff (a b : Word) : ltSigned a b = true ↔ a.toInt < b.toInt := by simp [ltSigned]

theorem ltUnsigned_iff (a b : Word) : ltUnsigned a b = true ↔ a.toNat < b.toNat := by simp [ltUnsigned]

theorem not_ltSigned_iff (a b : Word) : (!ltSigned a b) = true ↔ b.toInt ≤ a.toInt := by
  rw [Bool.not_eq_true', ← Bool.not_eq_true, ltSigned_iff, not_lt]

theorem not_ltUnsigned_iff (a b : Word) : (!ltUnsigned a b) = true ↔ b.toNat ≤ a.toNat := by
  rw [Bool.not_eq_true', ← Bool.not_eq_true, ltUnsigned_iff, not_lt]

/-! ## The execute part (R380) -/

section
variable {cond : Word → Word → Bool} {s : State} {rs1 rs2 : Reg}

theorem execBranch_taken (off : BitVec 13) (h : cond (s.readReg rs1) (s.readReg rs2) = true) :
    execBranch cond rs1 rs2 off s = .next (s.setPc (s.branchTarget off)) := by simp [execBranch, h]

theorem execBranch_notTaken (off : BitVec 13) (h : ¬ cond (s.readReg rs1) (s.readReg rs2) = true) :
    execBranch cond rs1 rs2 off s = .next s := by simp [execBranch, h]

end

/-- An instruction that runs `execBranch` with the test `cond` has the shape R380 gives it, for the
predicate `p` that `cond` decides. -/
theorem branchExec_of_exec {i : Reg → Reg → BitVec 13 → Instr} {cond : Word → Word → Bool}
    {p : Word → Word → Prop} (hcond : ∀ a b, cond a b = true ↔ p a b)
    (hi : ∀ rs1 rs2 off s, exec (i rs1 rs2 off) s = execBranch cond rs1 rs2 off s) : BranchExec i p := by
  intro s rs1 rs2 off
  rw [← hcond, ← immB_eq, hi]
  refine ⟨fun htaken => ?_, fun hnot => ?_⟩
  · exact ⟨_, execBranch_taken off htaken, setsPcAndRun_setPc s (s.branchTarget off)⟩
  · exact ⟨s, execBranch_notTaken off hnot, setsPcAndRun_self s⟩

/-- Settles O15: each branch runs `execBranch`, and its test decides the arithmetic predicate. -/
theorem branchesComplete : Obligations.BranchesComplete :=
  ⟨branchExec_of_exec (fun _ _ => beq_iff_eq) fun _ _ _ _ => rfl,
    branchExec_of_exec (fun _ _ => bne_iff_ne) fun _ _ _ _ => rfl,
    branchExec_of_exec ltSigned_iff fun _ _ _ _ => rfl,
    branchExec_of_exec not_ltSigned_iff fun _ _ _ _ => rfl,
    branchExec_of_exec ltUnsigned_iff fun _ _ _ _ => rfl,
    branchExec_of_exec not_ltUnsigned_iff fun _ _ _ _ => rfl⟩

/-! ## The step on a word of the row (R115, R152 to R158) -/

/-- A step on a word whose instruction sets no more than the next program counter and the run flag. -/
theorem step_of_setsPcAndRun {s : State} {w : Word} {i : Instr} {pc : Word} {run : Bool}
    (h : Fetches s w) (hd : decode w = .ok i)
    (he : ∃ t, exec i s.begun = .next t ∧ SetsPcAndRun s.begun t pc run) :
    ∃ t, step s = .next t ∧ StepGoesTo s t pc run false := by
  obtain ⟨t, ht, hw⟩ := he
  exact ⟨_, step_of_exec h hd ht, hw.step h⟩

/-- The two outcomes of the execute part carry over to a step on the words of the instruction's row; the
next program counter of the begun state is the `pc + 4` of a branch not taken (R153). -/
theorem branchWord_of_exec {i : Reg → Reg → BitVec 13 → Instr} {p : Word → Word → Prop} {fixed : Word}
    (he : BranchExec i p)
    (hd : ∀ {w}, w &&& 0x0000707F = fixed → decode w = .ok (i (rs1Field w) (rs2Field w) (immBField w))) :
    BranchWord fixed p := by
  intro s w h hrow
  obtain ⟨htaken, hnot⟩ := he s.begun (rs1Field w) (rs2Field w) (immBField w)
  exact ⟨fun hp => step_of_setsPcAndRun h (hd hrow) (htaken hp),
    fun hp => step_of_setsPcAndRun h (hd hrow) (hnot hp)⟩

/-- Settles O25: the words of each row decode to a branch that O15 describes. -/
theorem branchWordsStep : Obligations.BranchWordsStep := by
  obtain ⟨hbeq, hbne, hblt, hbge, hbltu, hbgeu⟩ := branchesComplete
  exact ⟨branchWord_of_exec hbeq (decode_of_row (.beq 0 0 0)),
    branchWord_of_exec hbne (decode_of_row (.bne 0 0 0)),
    branchWord_of_exec hblt (decode_of_row (.blt 0 0 0)),
    branchWord_of_exec hbge (decode_of_row (.bge 0 0 0)),
    branchWord_of_exec hbltu (decode_of_row (.bltu 0 0 0)),
    branchWord_of_exec hbgeu (decode_of_row (.bgeu 0 0 0))⟩

end

end Sys2Proof.Machine

/-! # Proofs of the jump family (47_jumps.md) -/

namespace Sys2Proof.Machine

/-! ## The execute part (R410 to R412) -/

/-- Settles O16: each jump writes the link and then its target, which it computes from the state before. -/
theorem jumpsComplete : Obligations.JumpsComplete := by
  intro s rd rs1 off imm
  rw [← immJ_eq, ← imm12_eq]
  exact ⟨⟨_, rfl, linksAndJumps_update s rd s.linkValue (s.jalTarget off)⟩,
    ⟨_, rfl, linksAndJumps_update s rd s.linkValue (s.jalrTarget rs1 imm)⟩⟩

/-! ## The step on a word of the row (R116, R152 to R158) -/

/-- A step on a word whose instruction writes a register and sets the next program counter. -/
theorem step_of_linksAndJumps {s : State} {w : Word} {i : Instr} {rd : Reg} {v pc : Word}
    (h : Fetches s w) (hd : decode w = .ok i)
    (he : ∃ t, exec i s.begun = .next t ∧ LinksAndJumps s.begun t rd v pc) :
    ∃ t, step s = .next t ∧ StepWrites s t rd v pc false := by
  obtain ⟨t, ht, hl⟩ := he
  exact ⟨_, step_of_exec h hd ht, hl.step h⟩

/-- Settles O26: the words decode to JAL and JALR, of which O16 speaks in the begun state. -/
theorem jumpWordsStep : Obligations.JumpWordsStep := by
  intro s w h
  obtain ⟨hjal, hjalr⟩ :=
    jumpsComplete s.begun (rdField w) (rs1Field w) (immJField w) (immIField w)
  exact ⟨fun hrow => step_of_linksAndJumps h (decode_of_row (.jal 0 0) hrow) hjal,
    fun hrow => step_of_linksAndJumps h (decode_of_row (.jalr 0 0 0) hrow) hjalr⟩

end Sys2Proof.Machine

/-! # Proofs of the system family (48_system.md) -/

namespace Sys2Proof.Machine

/-! ## SYSTEM words (R430) -/

/-- Settles O17: ECALL is `halt`. -/
theorem ecallCompletes : Obligations.EcallCompletes := fun s => ⟨s.halt, rfl, setsPcAndRun_halt s⟩

/-- Settles O27: the word decodes to ECALL, of which O17 speaks in the begun state, and the halted machine
performs no step. -/
theorem systemWordsHalt : Obligations.SystemWordsHalt := by
  intro s w h hrow
  obtain ⟨t, hst, hgoes⟩ := step_of_setsPcAndRun h (decode_of_row .ecall hrow) (ecallCompletes s.begun)
  obtain ⟨-, hrun⟩ := stoppedMachinePerformsNoStep t (.inl hgoes.run)
  exact ⟨t, hst, hgoes, hrun⟩

/-! ## Unrecognized words (R117, R432, R433) -/

/-- The words no row matches are those the decoder refuses (R117, R118). -/
theorem rowsMatching_eq_nil_iff {w : Word} : rowsMatching w = [] ↔ ∃ e, decode w = .error e := by
  constructor
  · intro hnone
    cases hd : decode w with
    | error e => exact ⟨e, rfl⟩
    | ok i => simp [rowsMatching_of_ok hd] at hnone
  · rintro ⟨e, he⟩
    exact rowsMatching_of_error he

/-- Settles O28: the decoder refuses the word, and a step on a refused word is a NOP under this policy. -/
theorem unrecognizedWordsAreNops : Obligations.UnrecognizedWordsAreNops := by
  intro s w h hnone hp
  obtain ⟨e, hd⟩ := rowsMatching_eq_nil_iff.1 hnone
  exact stepGoesTo_unrecognized h hd hp

/-- A fetchable word that the decoder refuses raises DecodeFault where its policy is fault (R433). -/
theorem stepFaults_unrecognized {s : State} {e : Unrecognized} (hm : s.mayStep = true)
    (hf : accessFault s.cfg .word s.cur.pc = none) (hd : decode (s.memRead32 s.cur.pc) = .error e)
    (hp : s.cfg.decodeMiss = .fault) :
    ∃ t, step s = .next t ∧ StepFaults s t (.decode s.cur.pc (s.memRead32 s.cur.pc)) := by
  have hexec : executeWord (s.memRead32 s.cur.pc) s.begun =
      .next (s.begun.raise (.decode s.cur.pc (s.memRead32 s.cur.pc))) := by
    simp [executeWord, hd, execUnrecognized, hp]
  refine ⟨_, ?_, (raisesOnly_raise s.begun (.decode s.cur.pc (s.memRead32 s.cur.pc))).step⟩
  rw [step_of_mayStep hm, cycle_of_fetchable hf, State.fetchWord, hexec, afterExecute]

/-- Settles O29: the decoder refuses the fetched word. -/
theorem unrecognizedWordsFault : Obligations.UnrecognizedWordsFault := by
  intro s w h hnone hp
  obtain ⟨e, hd⟩ := rowsMatching_eq_nil_iff.1 hnone
  obtain rfl := h.word
  exact stepFaults_unrecognized h.mayStep h.fetchable hd hp

/-! ## A field of NOPs (R434, R614) -/

/-- Memory with no byte listed reads as the word 0x00000000 everywhere (R65, R67). -/
theorem State.memRead32_of_mem_nil {s : State} (h : s.mem = []) (a : Word) : s.memRead32 a = 0 :=
  State.memRead32_eq_of_bytes fun k _ => (State.readByte_of_mem_nil h _).trans (by simp)

/-- With empty memory, under the hardware policies, the word fetched is 0x00000000, which is unrecognized: the
step is a NOP. -/
theorem step_of_mem_nil {s : State} (hp : s.cfg.AtHardwarePolicies) (hr : s.run = true) (hf : s.fault = none)
    (hs : s.cur = s.nxt) (hmem : s.mem = []) :
    ∃ t, step s = .next t ∧ StepGoesTo s t (s.cur.pc + 4) s.run true := by
  obtain ⟨-, hstraddle, hmiss, hdecode, -⟩ := hp
  have hfetch : Fetches s 0 :=
    ⟨hr, hf, hs, accessFault_none hstraddle hmiss .word _, State.memRead32_of_mem_nil hmem _⟩
  exact stepGoesTo_unrecognized hfetch (decode_of_opcode_unknown (by decide)) hdecode

/-- Settles O51, by induction on the number of steps: the first is a NOP, after which memory is still empty. -/
theorem emptyMemoryRunsOn : Obligations.EmptyMemoryRunsOn := by
  intro n
  induction n with
  | zero => exact fun s _ hr _ _ hmem => ⟨s, rfl, by simp, fun _ => rfl, hr, rfl, hmem⟩
  | succ n ih =>
    intro s hp hr hf hs hmem
    obtain ⟨u, hst, hu⟩ := step_of_mem_nil hp hr hf hs hmem
    obtain ⟨t, ht, hpc, hregs, hrun, hcount, htmem⟩ := ih u (hu.committed.cfg ▸ hp) (hu.run.trans hr)
      hu.committed.fault hu.committed.snapshots (hu.mem.trans hmem)
    refine ⟨t, (runN_succ_of_step n hst).trans ht, ?_, fun r => (hregs r).trans (hu.regs r), hrun, ?_, htmem⟩
    · rw [hpc, hu.pc, Nat.mul_succ, Nat.add_comm (4 * n)]
      exact add_four_add_ofNat s.cur.pc (4 * n)
    · rw [hcount, hu.committed.icount, Nat.add_assoc, Nat.add_comm 1]

end Sys2Proof.Machine

/-! # Proofs of the exceptions family (60_exceptions.md) -/

namespace Sys2Proof.Machine

/-! ## The sticky fault record (R513, R600) -/

/-- RESET clears the fault record (R600). -/
theorem hostReset_fault (image : List Word) (s : State) : (hostReset image s).fault = none := by
  simp [hostReset, State.boot]

/-- Settles O40: RESET clears the record, RUN_N performs no step where a fault is recorded, and the other
operations never write it. -/
theorem faultStaysUntilReset : Obligations.FaultStaysUntilReset := by
  intro s t op r hs h
  by_cases hreset : ∃ image, op = .reset image
  · obtain ⟨image, rfl⟩ := hreset
    cases h
    exact .inl ⟨image, rfl, hostReset_fault image s⟩
  · refine .inr ⟨not_exists.1 hreset, ?_⟩
    obtain ⟨-, hrun⟩ := stoppedMachinePerformsNoStep s (.inr hs)
    rcases hostApply_cases h with ⟨n, -, hn⟩ | ⟨-, rfl⟩ | ⟨i, v, -, hv⟩ | ⟨image, hop, -⟩ | rfl
    · cases (hrun n).symm.trans hn
      rfl
    · rfl
    · rcases hostSetReg_cases hv with rfl | ⟨q, -, rfl⟩ <;> rfl
    · exact absurd ⟨image, hop⟩ hreset
    · rfl

/-! ## The faults of one access (R71, R79, R505) -/

section Access
variable {c : Config} {n : Width} {a : Word}

theorem accessFault_of_straddles (hp : c.straddle = .fault) (h : straddles c n a = true) :
    accessFault c n a = some (.straddle a n) := if_pos ⟨hp, h⟩

/-- Where no straddle is raised, the access comes to the miss. -/
theorem accessFault_of_noStraddle (h : c.straddle = .perByte ∨ straddles c n a = false) :
    accessFault c n a =
      if c.memMiss = .fault ∧ touchesUnmapped c n a = true then some (.memMiss a n) else none := by
  refine if_neg ?_
  rintro ⟨hp, hs⟩
  simp [hp, hs] at h

theorem accessFault_of_miss (h : c.straddle = .perByte ∨ straddles c n a = false) (hp : c.memMiss = .fault)
    (hm : touchesUnmapped c n a = true) : accessFault c n a = some (.memMiss a n) := by
  rw [accessFault_of_noStraddle h, if_pos ⟨hp, hm⟩]

theorem accessFault_of_noMiss (h : c.straddle = .perByte ∨ straddles c n a = false)
    (hm : c.memMiss = .silent ∨ touchesUnmapped c n a = false) : accessFault c n a = none := by
  rw [accessFault_of_noStraddle h, if_neg]
  rintro ⟨hp, hu⟩
  simp [hp, hu] at hm

end Access

/-! ## The order of the faults in a step (R505) -/

/-- The fault that a step of a fault-free machine records: the fetch's, without one the DecodeFault of an
unrecognized word, and on a recognized word a division corner or the fault of a data access. -/
theorem step_fault_cases {s t : State} {f : Fault} (hs : s.fault = none) (hst : step s = .next t)
    (ht : t.fault = some f) :
    accessFault s.cfg .word s.cur.pc = some f ∨
    (accessFault s.cfg .word s.cur.pc = none ∧ rowsMatching (s.memRead32 s.cur.pc) = [] ∧
      f = .decode s.cur.pc (s.memRead32 s.cur.pc)) ∨
    (accessFault s.cfg .word s.cur.pc = none ∧ rowsMatching (s.memRead32 s.cur.pc) ≠ [] ∧
      (f = .divCorner s.cur.pc ∨ ∃ n a, accessFault s.cfg n a = some f)) := by
  rcases step_cases s with ⟨-, h⟩ | ⟨-, g, hg, h⟩ | ⟨-, hf, e, hd, ⟨-, h⟩ | ⟨-, h⟩⟩ |
    ⟨-, hf, i, u, hd, -, he, h⟩ <;> cases h.symm.trans hst
  · simp [hs] at ht
  · cases ht
    exact .inl hg
  · rw [State.commitUnlessFaulted_none (by simpa using hs)] at ht
    simp [hs] at ht
  · cases ht
    exact .inr (.inl ⟨hf, rowsMatching_of_error hd, rfl⟩)
  · rcases he.fault with hu | ⟨g, rfl, -, hg⟩
    · have hu : u.fault = none := hu.trans hs
      rw [State.commitUnlessFaulted_none hu] at ht
      cases hu.symm.trans ht
    · rw [State.commitUnlessFaulted_some (State.raise_fault _ g)] at ht
      cases ht
      exact .inr (.inr ⟨hf, by simp [rowsMatching_of_ok hd], hg⟩)

/-- Settles O41: the fetch and the decode raise their faults, `step_fault_cases` lists the recorded ones, and
the last three clauses are the branches of `accessFault`. -/
theorem faultsFollowPriority : Obligations.FaultsFollowPriority := by
  intro s hr hs
  have hm : s.mayStep = true := (State.mayStep_iff s).2 ⟨hr, hs⟩
  refine ⟨fun f hf => ⟨_, ?_, stepFaults_fetch s f⟩, fun hf hp hnone => ?_,
    fun t f hst ht => step_fault_cases hs hst ht, fun c n a => accessFault_of_straddles,
    fun c n a => accessFault_of_miss, fun c n a => accessFault_of_noMiss⟩
  · rw [step_of_mayStep hm, cycle_of_fetchFault hf]
  · obtain ⟨e, hd⟩ := rowsMatching_eq_nil_iff.1 hnone
    exact stepFaults_unrecognized hm hf hd hp

end Sys2Proof.Machine
